-- ==== Sys2Proof/Word.lean ====
section
/-! DEFINITION. The plainest data: bytes, 64-bit words, byte sequences, and the size of the two spaces. -/

namespace Sys2Proof

/-- A byte, an integer from 0 to 255 (00_scope.md R9). -/
abbrev Byte := BitVec 8

/-- A 64-bit register value (00_scope.md R7 `REG_WIDTH`) or memory address (R7 `ADDR_WIDTH`). -/
abbrev Word := BitVec 64

/-- A finite sequence of bytes (00_scope.md R9). -/
abbrev Bytes := List Byte

/-- The number of byte addresses of memory space, `2^64` (20_memory.md R50). -/
abbrev addrSpace : Nat := 2 ^ 64

end Sys2Proof
end

