-- ==== Sys2Proof/Machine/Bytes.lean ====
section
/-! DEFINITION. Byte sequences and byte order (00_scope.md R9, 20_memory.md R53 to R55). -/

namespace Sys2Proof.Machine

/-- `s[i]`, the element at index `i` (R9); every use has `i < len(s)`. -/
def byteAt (s : Bytes) (i : Nat) : Byte := s.getD i 0

/-- `le_n(v)`, the `n`-byte little-endian sequence of `v` (R9). -/
def leBytes : Nat → Nat → Bytes
  | 0, _ => []
  | n + 1, v => BitVec.ofNat 8 v :: leBytes n (v / 256)

/-- `from_le(s) = Σ s[i] · 256^i` (R9). -/
def fromLe : Bytes → Nat
  | [] => 0
  | b :: s => b.toNat + 256 * fromLe s

/-- `ceil_div(a, b)` (R9). -/
def ceilDiv (a b : Nat) : Nat := (a + b - 1) / b

/-- `popcount(h)`, the number of set bits of a byte (R9). -/
def popcount (h : Byte) : Nat := ((List.range 8).filter fun i => h.getLsbD i).length

end Sys2Proof.Machine
end

