-- ==== Sys2Proof/Config.lean ====
section
/-! DEFINITION. What an implementation or its platform fixes (the OPEN parameters of 00_scope.md R7), and the
free values: constants without a body, so that no proof can learn what they are. -/

namespace Sys2Proof

/-- The byte addresses `base ≤ a < base + size`. -/
structure Window where
  base : Nat
  size : Nat
deriving DecidableEq, Repr

/-- Which encoder the default codec is fitted with: LIT_ENC (42_entropy_stage.md R157), or one of which nothing
but the laws of R152 is known. -/
inductive Encoder where
  | fitted
  | litEnc
deriving DecidableEq, Repr

/-- The configuration of one block: plain data that no step changes. `refusedReads` and `refusedWrites` are the
addresses where `MEM_ADMITS` is false (00_scope.md R7, 20_memory.md R50); memory space is finite, so a list of
windows can be any predicate. `nonIdempotent` are the addresses that are not idempotent memory (R58). `losesScratch` is
the model's own parameter (log entry 30): whether an error of phase A leaves SCR of a mixed command with any value
(43_codec_facade.md R183) or as it was (40_command_interface.md R101, 60_exceptions.md R204). -/
structure Config where
  mmioBase      : Word
  codecId       : BitVec 4
  encoder       : Encoder
  refusedReads  : List Window
  refusedWrites : List Window
  nonIdempotent : List Window
  losesScratch  : Bool
deriving DecidableEq, Repr

/-- A codec other than the default, with the laws 42_entropy_stage.md R152(a) and R153 demand of it. -/
structure Codec where
  encode    : Bytes → Bytes
  decode    : Bytes → Nat → Option Bytes
  roundTrip : ∀ X : Bytes, decode (encode X) X.length = some X
  bounded   : ∀ (E : Bytes) (L : Nat) (r : Bytes), decode E L = some r → r.length ≤ L

/-- The codec that stores its input as it is. It stands in where no other codec is fitted: a `Codec` must exist. -/
def Codec.stored : Codec where
  encode X := X
  decode E L := if E.length ≤ L then some E else none
  roundTrip X := by simp
  bounded E L r h := by
    split at h
    · cases h; assumption
    · cases h

/-- The configuration of `Machine.State.reset`: the default codec with an encoder of which nothing is assumed, a
platform that refuses nothing, a window at address 0, and SCR kept after an error of phase A (vector K-6 of
95_test_vectors.md; log entry 30). DESIGN CHOICE (log entry 6), unsafe to rest a claim on. -/
def Config.standard : Config :=
  { mmioBase := 0, codecId := 1, encoder := .fitted, refusedReads := [], refusedWrites := [],
    nonIdempotent := [], losesScratch := false }

/-- Free value: an `any value` byte, by the number of the draw (93_implementation_defined.md U1 to U9). -/
opaque Config.freeByte : Nat → Byte

/-- Free value: an `any value` 64-bit word, by the number of the draw. -/
opaque Config.freeWord : Nat → Word

/-- Free value: an unbounded choice among finitely many outcomes, by the number of the draw. -/
opaque Config.freeNat : Nat → Nat

/-- Free value: a yes-or-no choice, by the number of the draw. -/
opaque Config.freeBool : Nat → Bool

/-- `ENTROPY_ENCODE` of `Encoder.fitted`, before the law of R152(a) is imposed on it (Machine/Entropy.lean). -/
opaque Config.fittedEncode : Bytes → Bytes

/-- The codec fitted for a `CODEC_ID` other than 1 (93_implementation_defined.md U12). -/
opaque Config.otherCodec : BitVec 4 → Option Codec

end Sys2Proof
end

