-- ==== Sys2Proof/Syntax.lean ====
section
/-! DEFINITION. The six commands of the opcode table, the command word they are written in, and what the
host, the other agents and the environment can do to the block. -/

namespace Sys2Proof

/-- The six commands, one constructor per row of spec/opcode_table.json (30_encoding.md R71). A command has
no operand field: its operands come from the latched argument registers (R70, R74). -/
inductive Instr where
  | encodeDelta
  | applyDelta
  | compress
  | decompress
  | mixedCompress
  | mixedDecompress
deriving DecidableEq, Repr

/-- The one format of a command word, `CMD64` (30_encoding.md R70): OPCODE is bits 7:0 and RSVD is bits 63:8. -/
structure CmdWord where
  opcode : Byte
  rsvd   : BitVec 56
deriving DecidableEq, Repr

/-- The direction of a host MMIO access, with the value a write carries. -/
inductive MmioOp where
  | read
  | write (w : Word)
deriving DecidableEq, Repr

/-- A host access to the register window as it arrives on the slave port: the platform address, the width in
bytes of one beat, the number of beats (more than one is a burst) and the direction (20_memory.md R52). -/
structure MmioAccess where
  addr  : Word
  width : Nat
  beats : Nat
  op    : MmioOp
deriving DecidableEq, Repr

/-- One step of an agent other than the engine, or the engine's turn, in the order in which they take effect.
`memWrite` and `memRead` are one byte each, because no wider access is promised to be atomic (20_memory.md R57);
they stand for the HOST and for every other bus master (R14, R68). `otherCommand` is a command that runs at the same
time on another instance of the block, with the regions it reads and those it writes (R68); the bytes it moves are
events of their own. -/
inductive Event where
  | mmio (a : MmioAccess)
  | memWrite (addr : Word) (b : Byte)
  | memRead (addr : Word)
  | otherCommand (reads writes : List Window)
  | irqSample
  | reset
  | engine
deriving DecidableEq, Repr

/-- What the host is answered: the value of an MMIO read, the end of an MMIO write, the error response of an
access R52 does not define, the byte of a memory read, and the level of `irq`. -/
inductive Reply where
  | data (v : Word)
  | written
  | errorResponse
  | byte (b : Byte)
  | irq (level : Bool)
deriving DecidableEq, Repr

end Sys2Proof
end

