-- ==== Sys2Proof/Machine/Opcode.lean ====
section
/-! DEFINITION. The opcode map, as the encoder reads it (30_encoding.md R71). -/

namespace Sys2Proof

/-- The command word that selects a command (30_encoding.md R71): the word equals the opcode. -/
def Instr.cmdWord : Instr → CmdWord
  | .encodeDelta => ⟨0x01, 0⟩
  | .applyDelta => ⟨0x02, 0⟩
  | .compress => ⟨0x03, 0⟩
  | .decompress => ⟨0x04, 0⟩
  | .mixedCompress => ⟨0x05, 0⟩
  | .mixedDecompress => ⟨0x06, 0⟩

end Sys2Proof
end

