-- ==== Sys2Proof/Machine/Params.lean ====
section
/-! DEFINITION. The fixed parameters of 00_scope.md R7. -/

namespace Sys2Proof.Machine

/-- `MMIO_SIZE` (R7): the register window is 256 bytes. -/
abbrev mmioSize : Nat := 256

/-- `PAIR_BYTES` (R7): two pixels. -/
abbrev pairBytes : Nat := 8

/-- `PIXEL_BYTES` (R7): `[R, G, B, A]`. -/
abbrev pixelBytes : Nat := 4

/-- `GROUP_PAIRS` (R7): the pairs one header byte covers. -/
abbrev groupPairs : Nat := 8

/-- `PAYLOAD_BYTES_PER_PAIR` (R7). -/
abbrev payloadBytes : Nat := 6

/-- `GROUP_BUF_BYTES` (R7): the capacity of PAYBUF. -/
abbrev groupBufBytes : Nat := 48

/-- `LEN_PREFIX_BYTES` (R7), called `P` in 42_entropy_stage.md. -/
abbrev lenPrefixBytes : Nat := 4

/-- The constant of the ID register: "SWWW", source revision 7, block revision 1 (10_state.md R22). -/
def idValue : Word := 0x5357575700070001#64

/-- CAP.MAX_OP, the highest valid opcode (10_state.md R23). -/
abbrev maxOp : Nat := 6

end Sys2Proof.Machine
end

