-- ==== Sys2Proof/WellFormed.lean ====
section
/-! DEFINITION. Which terms are well formed. An `Instr` has no field, so the checks are on the command word it is
written in (30_encoding.md R70 to R72) and on the host access that carries it (20_memory.md R52). -/

namespace Sys2Proof

/-- A command word is legal: RSVD is 0, and OPCODE is 0x01 to 0x06 (30_encoding.md R70 to R72). -/
def CmdWord.wellFormed (c : CmdWord) : Bool :=
  c.rsvd == 0 && (1 ≤ c.opcode.toNat && c.opcode.toNat ≤ Machine.maxOp)

/-- An instruction is well formed when its command word is. -/
def Instr.wellFormed (i : Instr) : Bool := i.cmdWord.wellFormed

/-- The MMIO access shape of 20_memory.md R52 at offset `off` of the window: a single beat of 8 bytes, at an offset
that is a multiple of 8 in 0x00 to 0xF8. -/
def MmioAccess.wellFormed (a : MmioAccess) (off : Nat) : Bool :=
  a.width == 8 && a.beats == 1 && off % 8 == 0 && decide (off < Machine.mmioSize)

end Sys2Proof
end

