-- ==== Sys2Proof/Decode.lean ====
section
/-! DEFINITION. Decoding a command word (30_encoding.md R70 to R73) from its bytes, and encoding a command. -/

namespace Sys2Proof

/-- Why a byte sequence is no command (30_encoding.md R72, R73). -/
inductive DecodeError where
  /-- The command word always has the fixed length of 8 bytes (R73). -/
  | wrongLength
  /-- Bits 63:8 are not all 0 (R72). -/
  | reservedBits
  /-- OPCODE is 0x00, or is 0x07 to 0xFF (R72). -/
  | reservedOpcode
deriving DecidableEq, Repr

/-- The two fields of a 64-bit command word (R70). -/
def CmdWord.ofWord (w : Word) : CmdWord := ⟨w.extractLsb' 0 8, w.extractLsb' 8 56⟩

/-- The 64-bit word of the two fields (R70). -/
def CmdWord.toWord (c : CmdWord) : Word := c.rsvd ++ c.opcode

/-- The opcode map of R71; every other opcode is reserved (R72). -/
def decodeOpcode (op : Byte) : Except DecodeError Instr :=
  match op.toNat with
  | 1 => .ok .encodeDelta
  | 2 => .ok .applyDelta
  | 3 => .ok .compress
  | 4 => .ok .decompress
  | 5 => .ok .mixedCompress
  | 6 => .ok .mixedDecompress
  | _ => .error .reservedOpcode

/-- A command word selects its command only when the whole 64-bit word equals the opcode (R71, R72). -/
def decodeWord (w : Word) : Except DecodeError Instr :=
  let c := CmdWord.ofWord w
  if c.rsvd = 0 then decodeOpcode c.opcode else .error .reservedBits

/-- The decoder: the 8 bytes of a command word, least significant first (20_memory.md R53). -/
def decode (bs : Bytes) : Except DecodeError Instr :=
  if bs.length = 8 then decodeWord (BitVec.ofNat 64 (Machine.fromLe bs)) else .error .wrongLength

/-- The 64-bit command word of an instruction (R71). -/
def encodeWord (i : Instr) : Word := i.cmdWord.toWord

/-- The encoder: the 8 bytes of the command word, least significant first (20_memory.md R53). -/
def encode (i : Instr) : Bytes := Machine.leBytes 8 (encodeWord i).toNat

/-- The instruction the decoder reads from an instruction whose bits are `w`, numbered as spec/opcode_table.json
numbers them, with every bit above `nbits` 0. -/
def decodeTableWord (nbits w : Nat) : Option Instr :=
  let v := w % 2 ^ nbits
  if v < 2 ^ 64 then (decode (Machine.leBytes 8 v)).toOption else none

end Sys2Proof
end

