-- ==== Sys2Proof/Machine/State.lean ====
section
/-! DEFINITION. The state of one block, its faults and refusals, and its reset (10_state.md). -/

namespace Sys2Proof.Machine

/-- The engine state `ENG`, read as STATUS.BUSY (10_state.md R21). -/
inductive Eng where
  | idle
  | busy
deriving DecidableEq, Repr

/-- The error codes of STATUS.ERR (60_exceptions.md R201). The codes 0x0C to 0xFF are never reported. -/
inductive ErrCode where
  | none
  | badCmd
  | region
  | overlap
  | geometry
  | dstOverflow
  | scrOverflow
  | tooLarge
  | entropy
  | deltaTruncated
  | bufTooSmall
  | bus
deriving DecidableEq, Repr

/-- The four regions of a command (00_scope.md R11). -/
inductive RegionName where
  | src0
  | src1
  | dst
  | scr
deriving DecidableEq, Repr

/-- A region: an address register and its length or capacity register (00_scope.md R11). -/
structure Region where
  addr : Word
  len  : Word
deriving DecidableEq, Repr

/-- The eight argument registers as four regions (10_state.md R28 to R31). -/
structure Args where
  src0 : Region
  src1 : Region
  dst  : Region
  scr  : Region
deriving DecidableEq, Repr

/-- LATCH, the engine's own copy of the opcode and the argument registers (10_state.md R39). -/
structure Latch where
  op   : Byte
  args : Args
deriving DecidableEq, Repr

/-- The engine's working state while a command runs (10_state.md R40): the rolling header byte, the rolling
payload buffer, the slot counter, the apply decoder's recorded pair indices, its pair counter, and the two
cursors. -/
structure Work where
  hdr    : Byte
  payBuf : Bytes
  slot   : Nat
  pend   : List Nat
  base   : Nat
  rd     : Nat
  wr     : Nat
deriving DecidableEq, Repr

/-- A command that has ended, with the end of one before it or its own not yet observed by the host (20_memory.md R63
part 2): its LATCH, and whether the host has observed its own end. -/
structure Ended where
  latch : Latch
  seen  : Bool
deriving DecidableEq, Repr

/-- The state. ID and CAP are constants that the one operation reading registers gives (Machine/Mmio.lean), STATUS
and `irq` are views of the fields below (Machine/Flags.lean), and the remaining bits of CTRL and STATUS are
hardwired 0 (10_state.md R24, R26). The fields from `hazard` on are the model's own. -/
structure State where
  /-- The configuration; no step changes it (00_scope.md R7). -/
  cfg        : Config
  /-- CTRL.IRQ_EN (R24). -/
  irqEn      : Bool
  /-- CMD (R25). -/
  cmd        : Word
  /-- `ENG`, read as STATUS.BUSY (R21, R26). -/
  eng        : Eng
  /-- STATUS.DONE (R26). -/
  done       : Bool
  /-- STATUS.CMD_DROPPED (R26). -/
  cmdDropped : Bool
  /-- STATUS.ERR (R26). -/
  err        : ErrCode
  /-- STATUS.LAST_OP (R26). -/
  lastOp     : Byte
  /-- The argument registers SRC0_ADDR to SCR_CAP (R28 to R31). -/
  args       : Args
  /-- RESULT_LEN (R33). -/
  resultLen  : Word
  /-- RESULT_AUX (R34). -/
  resultAux  : Word
  /-- ERR_INFO (R35). -/
  errInfo    : Word
  /-- LATCH (R39). -/
  latch      : Latch
  /-- The engine's working state (R40). -/
  work       : Work
  /-- Memory space, as the cells that differ from the background (20_memory.md R50; Machine/Memory.lean). -/
  mem        : List Host.Cell
  /-- A rule H1, H2 or H5 of 70_reset_and_hazards.md R240 was broken during the running command. -/
  hazard     : Bool
  /-- The commands that have ended, oldest first, from the oldest whose end the host has not observed (20_memory.md R63
  part 2; log entry 15). -/
  ended      : List Ended
  /-- The number of free values drawn so far. -/
  draws      : Nat
  /-- What the other agents do next, in the order in which it takes effect (00_scope.md R14). -/
  events     : List Event
  /-- What the host was answered, oldest first. -/
  replies    : List Reply
deriving DecidableEq, Repr

/-- Why the machine stops with a fault. -/
inductive Fault where
  /-- Raised by the step alone, where the engine is BUSY and LATCH.OP holds a reserved opcode. Safe: only a legal
  command word is ever latched (40_command_interface.md R94), so no state that a run reaches raises it, and the
  spec gives such a state no meaning (log entry 19). -/
  | latchedReservedOpcode (op : Byte)
deriving DecidableEq, Repr

/-- Why an instruction has no meaning. -/
inductive Refusal where
  /-- The instruction is not modelled. No arm answers it: every command has its meaning. Safe. -/
  | notModelled (mnemonic : String)
deriving DecidableEq, Repr

/-- A region of no bytes, the reset value of each pair of argument registers (10_state.md R43). -/
def Region.zero : Region := ⟨0, 0⟩

/-- The reset value of the argument registers (10_state.md R43). -/
def Args.zero : Args := ⟨.zero, .zero, .zero, .zero⟩

/-- The value the model names for the working state at reset, where the spec gives none. DESIGN CHOICE (log
entry 5), unsafe. -/
def Work.zero : Work := ⟨0, [], 0, [], 0, 0, 0⟩

/-- The state after reset under the configuration `c`, with nothing listed in memory and nothing happening yet
(10_state.md R43). LATCH and the working state are unspecified there (log entries 4 and 5). -/
def State.resetWith (c : Config) : State :=
  { cfg := c, irqEn := false, cmd := 0, eng := .idle, done := false, cmdDropped := false, err := .none,
    lastOp := 0, args := .zero, resultLen := 0, resultAux := 0, errInfo := 0, latch := ⟨0, .zero⟩,
    work := .zero, mem := [], hazard := false, ended := [], draws := 0, events := [], replies := [] }

/-- The state after reset (10_state.md R43), under the configuration of log entry 6. -/
def State.reset : State := State.resetWith .standard

end Sys2Proof.Machine
end

