-- ==== Sys2Proof/Machine/Flags.lean ====
section
/-! DEFINITION. The status flags (10_state.md R26, R27, R38; 60_exceptions.md R201): their word, how a host clears
them, and the interrupt line. These are the only flags the block has (R27). -/

namespace Sys2Proof.Machine

/-- The value of STATUS.ERR for an error (60_exceptions.md R201). -/
def ErrCode.code : ErrCode → Byte
  | .none => 0x00
  | .badCmd => 0x01
  | .region => 0x02
  | .overlap => 0x03
  | .geometry => 0x04
  | .dstOverflow => 0x05
  | .scrOverflow => 0x06
  | .tooLarge => 0x07
  | .entropy => 0x08
  | .deltaTruncated => 0x09
  | .bufTooSmall => 0x0A
  | .bus => 0x0B

/-- STATUS.BUSY (R21, R26). -/
def State.busy (s : State) : Bool := s.eng == .busy

/-- The STATUS word (R26): LAST_OP in bits 23:16, ERR in 15:8, CMD_DROPPED, DONE and BUSY in bits 2 to 0, every
other bit hardwired 0. -/
def State.statusWord (s : State) : Word :=
  0#40 ++ s.lastOp ++ s.err.code ++ 0#5 ++ BitVec.ofBool s.cmdDropped ++ BitVec.ofBool s.done ++
    BitVec.ofBool s.busy

/-- A host write of `w` to STATUS: write 1 to clear (R27). -/
def State.statusWrite (s : State) (w : Word) : State :=
  { s with done := s.done && !w.getLsbD 1, cmdDropped := s.cmdDropped && !w.getLsbD 2 }

/-- The interrupt output (10_state.md R38, 60_exceptions.md R207). -/
def State.irq (s : State) : Bool := s.done && s.irqEn

end Sys2Proof.Machine
end

