-- ==== Sys2Proof/Machine/Memory.lean ====
section
/-! DEFINITION. Memory space (20_memory.md R50): a total map from `2^64` byte addresses to bytes, held as the
cells that differ from the background, addresses strictly rising. -/

namespace Sys2Proof.Machine

/-- What an unlisted address reads as. DESIGN CHOICE (log entry 3), unsafe: the spec gives memory no reset
contents; its test vectors start from zero bytes. -/
def background : Byte := 0

/-- The byte at an address. -/
def memRead : List Host.Cell → Nat → Byte
  | [], _ => background
  | (k, b) :: m, a => if k = a then b else memRead m a

/-- The cells with `a` holding `b`, nothing listed before them. -/
def consCell (a : Nat) (b : Byte) (m : List Host.Cell) : List Host.Cell :=
  if b = background then m else (a, b) :: m

/-- Memory with the byte at `a` replaced by `b`, in canonical form. -/
def memWrite : List Host.Cell → Nat → Byte → List Host.Cell
  | [], a, b => consCell a b []
  | (k, c) :: m, a, b =>
    if a < k then consCell a b ((k, c) :: m)
    else if a = k then consCell a b m
    else (k, c) :: memWrite m a b

/-- The cells from address `lo` on are in canonical form: inside memory space, strictly rising, none of them
the background. -/
def memWfFrom : Nat → List Host.Cell → Bool
  | _, [] => true
  | lo, (k, b) :: m => decide (lo ≤ k) && decide (k < addrSpace) && b != background && memWfFrom (k + 1) m

/-- Memory is in canonical form. -/
def memWf (m : List Host.Cell) : Bool := memWfFrom 0 m

/-- The bytes at `a` to `a + n - 1`. -/
def memBytes (m : List Host.Cell) (a : Nat) : Nat → Bytes
  | 0 => []
  | n + 1 => memRead m a :: memBytes m (a + 1) n

/-- Memory with the bytes of a sequence stored from `a` on. -/
def memWriteBytes (m : List Host.Cell) (a : Nat) : Bytes → List Host.Cell
  | [] => m
  | b :: bs => memWriteBytes (memWrite m a b) (a + 1) bs

end Sys2Proof.Machine
end

