-- ==== Sys2Proof/Machine/Operands.lean ====
section
/-! DEFINITION. Operands: the regions a command uses (30_encoding.md R74), their checks (40_command_interface.md
R99, R100), and the sets of bytes a command may write (20_memory.md R60). -/

namespace Sys2Proof.Machine

/-- `index(s)` of a region (40_command_interface.md R99). -/
def RegionName.index : RegionName → Nat
  | .src0 => 0
  | .src1 => 1
  | .dst => 2
  | .scr => 3

/-- `Region(s)` (00_scope.md R11). -/
def Args.region (a : Args) : RegionName → Region
  | .src0 => a.src0
  | .src1 => a.src1
  | .dst => a.dst
  | .scr => a.scr

/-- The first address of a region. -/
def Region.base (r : Region) : Nat := r.addr.toNat

/-- The length of a region in bytes. -/
def Region.size (r : Region) : Nat := r.len.toNat

/-- The address just past a region, computed exactly (R99). -/
abbrev Region.limit (r : Region) : Nat := r.base + r.size

/-- An address is one of the region's bytes (00_scope.md R11). -/
def Region.holds (r : Region) (a : Nat) : Bool := decide (r.base ≤ a) && decide (a < r.limit)

/-- The regions a command uses (40_command_interface.md R96, 30_encoding.md R74). -/
def usedRegions : Instr → List RegionName
  | .encodeDelta => [.src0, .src1, .dst]
  | .applyDelta => [.src0, .dst]
  | .compress => [.src0, .dst]
  | .decompress => [.src0, .dst]
  | .mixedCompress => [.src0, .src1, .dst, .scr]
  | .mixedDecompress => [.src0, .dst, .scr]

/-- An address is a byte of some region the command uses. -/
def usesByte (i : Instr) (a : Args) (x : Nat) : Bool := (usedRegions i).any fun r => (a.region r).holds x

/-- A `raise Err(code, info)` of a command's pseudocode (00_scope.md R10). -/
structure Raise where
  code : ErrCode
  info : Nat
deriving DecidableEq, Repr

/-- The order in which regions are checked (R99). -/
def regionOrder : List RegionName := [.src0, .src1, .dst, .scr]

/-- `check_regions(used)` (40_command_interface.md R99). -/
def checkRegions (used : List RegionName) (a : Args) : Option Raise :=
  (regionOrder.find? fun s => used.contains s && decide (addrSpace < (a.region s).limit)).map
    fun s => ⟨.region, s.index⟩

/-- `overlaps(a, b)` (40_command_interface.md R100). -/
def overlaps (a b : Region) : Bool :=
  decide (0 < a.size) && decide (0 < b.size) && decide (a.base < b.limit) && decide (b.base < a.limit)

/-- The order in which pairs of regions are checked (R100). -/
def overlapOrder : List (RegionName × RegionName) :=
  [(.src0, .dst), (.src1, .dst), (.src0, .scr), (.src1, .scr), (.dst, .scr)]

/-- `check_overlap(used)` (40_command_interface.md R100). -/
def checkOverlap (used : List RegionName) (a : Args) : Option Raise :=
  (overlapOrder.find? fun p =>
      used.contains p.1 && used.contains p.2 && overlaps (a.region p.1) (a.region p.2)).map
    fun p => ⟨.overlap, 16 * p.1.index + p.2.index⟩

/-- A set of bytes of one region: all of them, or the RGB bytes of a frame buffer alone, those at an offset whose
remainder by 4 is not 3 (20_memory.md R59, R60). -/
structure Span where
  base    : Nat
  size    : Nat
  rgbOnly : Bool
deriving DecidableEq, Repr

/-- The byte at offset `off` of a frame buffer is an alpha byte (20_memory.md R59). -/
def alphaOffset (off : Nat) : Bool := off % pixelBytes == 3

/-- An address is in a span. -/
def Span.holds (p : Span) (a : Nat) : Bool :=
  decide (p.base ≤ a) && decide (a < p.base + p.size) && !(p.rgbOnly && alphaOffset (a - p.base))

/-- An address is in one of the spans. -/
def inSpans (ps : List Span) (a : Nat) : Bool := ps.any fun p => p.holds a

/-- All the bytes of a region. A region that passes the top of memory space (R99) has no byte beyond it. -/
def Region.span (r : Region) : Span := ⟨r.base, min r.size (addrSpace - r.base), false⟩

/-- The RGB bytes of a frame buffer. -/
def Region.rgbSpan (r : Region) : Span := { r.span with rgbOnly := true }

/-- The MWS of an error other than BUS (20_memory.md R60, 60_exceptions.md R204): the frame buffer of
APPLY_DELTA and MIXED_DECOMPRESS is not in it. -/
def errorSpans (i : Instr) (a : Args) : List Span :=
  match i with
  | .encodeDelta => [a.dst.span]
  | .applyDelta => []
  | .compress => [a.dst.span]
  | .decompress => [a.dst.span]
  | .mixedCompress => [a.dst.span, a.scr.span]
  | .mixedDecompress => [a.scr.span]

/-- The MWS of a BUS error, of a reset and of a hazard (20_memory.md R60, 60_exceptions.md R205,
70_reset_and_hazards.md R231, R241). It holds the success write set of every run, so it is MWS ∪ WS. An alpha byte of DST
that SCR of MIXED_DECOMPRESS shares is in it as a byte of SCR (R60), although R59 and R231 call it never written: DESIGN
CHOICE (log entry 32). So is a byte of SRC0 or SRC1 that DST or SCR shares, although R242 calls those regions never written:
DESIGN CHOICE (log entry 33). Both matter where a reset or a hazard comes before the OVERLAP error. -/
def maySpans (i : Instr) (a : Args) : List Span :=
  match i with
  | .encodeDelta => [a.dst.span]
  | .applyDelta => [a.dst.rgbSpan]
  | .compress => [a.dst.span]
  | .decompress => [a.dst.span]
  | .mixedCompress => [a.dst.span, a.scr.span]
  | .mixedDecompress => [a.scr.span, a.dst.rgbSpan]

/-- The scratch bytes that are unspecified after the command (20_memory.md R60, 43_codec_facade.md R183). -/
def scratchSpans (i : Instr) (a : Args) : List Span :=
  match i with
  | .encodeDelta => []
  | .applyDelta => []
  | .compress => []
  | .decompress => []
  | .mixedCompress => [a.scr.span]
  | .mixedDecompress => [a.scr.span]

/-- The bytes that an error of phase A leaves unspecified: none (40_command_interface.md R101, 60_exceptions.md R204), or
the scratch bytes where the configuration says that 43_codec_facade.md R183 reaches so far (log entry 30). -/
def earlySpans (c : Config) (i : Instr) (a : Args) : List Span := if c.losesScratch then scratchSpans i a else []

/-- The errors a command can raise (60_exceptions.md R201, column "raised by"). -/
def errorsOf : Instr → List ErrCode
  | .encodeDelta => [.region, .overlap, .geometry, .dstOverflow, .bus]
  | .applyDelta => [.region, .overlap, .deltaTruncated, .bufTooSmall, .bus]
  | .compress => [.region, .overlap, .tooLarge, .dstOverflow, .bus]
  | .decompress => [.region, .overlap, .dstOverflow, .entropy, .bus]
  | .mixedCompress => [.region, .overlap, .geometry, .scrOverflow, .tooLarge, .dstOverflow, .bus]
  | .mixedDecompress => [.region, .overlap, .scrOverflow, .entropy, .deltaTruncated, .bufTooSmall, .bus]

end Sys2Proof.Machine
end

