-- ==== Sys2Proof/Machine/Ops.lean ====
section
/-! DEFINITION. The shared operations: free values, the two ways a command ends (40_command_interface.md R98,
60_exceptions.md R203), the memory master port with its refusals (R205), and the engine's *complete* step (R97). -/

namespace Sys2Proof.Machine

/-! ### Free values (93_implementation_defined.md, "any value") -/

/-- Every byte of a range whose address `keep` admits drawn anew: the byte at `a + j` by draw `d + j`. -/
def drawRange (keep : Nat → Bool) (m : List Host.Cell) (a d : Nat) : Nat → List Host.Cell
  | 0 => m
  | n + 1 =>
    drawRange keep (if keep a then memWrite m a (Config.freeByte d) else m) (a + 1) (d + 1) n

/-- Every byte of a span given any value. -/
def Span.draw (p : Span) (m : List Host.Cell) (d : Nat) : List Host.Cell :=
  drawRange p.holds m p.base d p.size

/-- Every byte of the spans given any value, each by a draw of its own. -/
def drawSpans : List Span → List Host.Cell → Nat → List Host.Cell × Nat
  | [], m, d => (m, d)
  | p :: ps, m, d => drawSpans ps (p.draw m d) (d + p.size)

/-- The state with `d` free values drawn so far. -/
def State.withDraws (s : State) (d : Nat) : State := { s with draws := d }

/-- Memory with every byte of the spans given any value. -/
def State.scramble (s : State) (ps : List Span) : State :=
  let r := drawSpans ps s.mem s.draws
  { s with mem := r.1, draws := r.2 }

/-- Any value of the working state, within the capacities of 10_state.md R40. -/
def freeWork (d : Nat) : Work where
  hdr := Config.freeByte d
  payBuf := (List.range (Config.freeNat d % (groupBufBytes + 1))).map fun j => Config.freeByte (d + 1 + j)
  slot := Config.freeNat (d + 1) % (groupPairs + 1)
  pend := (List.range (Config.freeNat (d + 2) % (groupPairs + 1))).map fun j => Config.freeNat (d + 3 + j)
  base := Config.freeNat (d + 12)
  rd := Config.freeNat (d + 13)
  wr := Config.freeNat (d + 14)

/-- The number of draws that `freeWork` takes. -/
def workDraws : Nat := 64

/-- The working state between commands: any value (10_state.md R40, R43). -/
def State.forgetWork (s : State) : State :=
  { s with work := freeWork s.draws, draws := s.draws + workDraws }

/-! ### How a command ends -/

/-- The one update of the register file that ends a command (40_command_interface.md R105): ENG becomes IDLE and
STATUS and the result registers report. LAST_OP keeps its value. The host has not yet observed this end. -/
def State.endCommand (s : State) (e : ErrCode) (len aux info : Word) : State :=
  { s.forgetWork with
    eng := .idle, done := true, err := e, resultLen := len, resultAux := aux, errInfo := info, hazard := false,
    ended := s.ended ++ [⟨s.latch, false⟩] }

/-- `finish(len, aux)` (40_command_interface.md R98). -/
def State.finish (s : State) (len aux : Nat) : State :=
  s.endCommand .none (BitVec.ofNat 64 len) (BitVec.ofNat 64 aux) 0

/-- `zext_64(info)` of 60_exceptions.md R203. The spec does not say what a number of `2^64` or more gives (00_scope.md
R9, 60_exceptions.md R202): it is a free value. DESIGN CHOICE (log entry 31), safe. -/
def infoWord (info d : Nat) : Word := if info < 2 ^ 64 then BitVec.ofNat 64 info else Config.freeWord d

/-- `raise Err(code, info)`: the error completion, which is what this block has for an exception
(60_exceptions.md R203, R209). It saves no program state, has no vector and changes no mode. -/
def State.raiseErr (s : State) (r : Raise) : State :=
  (s.withDraws (s.draws + 1)).endCommand r.code 0 0 (infoWord r.info s.draws)

/-- What stands in for the return from an exception (60_exceptions.md R210): the host acknowledges the completion by
clearing DONE, and nothing is restored. -/
def State.acknowledge (s : State) : State := s.statusWrite 0x2

/-! ### The memory master port -/

/-- The kind of a port access (20_memory.md R50). -/
inductive AccessKind where
  | read
  | write
deriving DecidableEq, Repr

/-- An address is in a window. -/
def windowHolds (w : Window) (a : Nat) : Bool := decide (w.base ≤ a) && decide (a < w.base + w.size)

/-- `MEM_ADMITS(kind, a)` (20_memory.md R50). -/
def admits (c : Config) (k : AccessKind) (a : Nat) : Bool :=
  match k with
  | .read => !(c.refusedReads.any fun w => windowHolds w a)
  | .write => !(c.refusedWrites.any fun w => windowHolds w a)

/-- The port while one evaluation of a command's pseudocode runs. `refused` are the refused addresses met so far.
Where `lossy` is false every access has its plain effect and the refusals are only noted; where it is true a
refused read answers any byte and a refused write is lost (60_exceptions.md R205(b)). -/
structure Port where
  cfg     : Config
  mem     : List Host.Cell
  lossy   : Bool
  refused : List Nat
  draws   : Nat
deriving DecidableEq, Repr

/-- The read of one byte. -/
def Port.readByte (p : Port) (a : Nat) : Byte × Port :=
  if admits p.cfg .read a then (memRead p.mem a, p)
  else if p.lossy then
    (Config.freeByte p.draws, { p with refused := p.refused ++ [a], draws := p.draws + 1 })
  else (memRead p.mem a, { p with refused := p.refused ++ [a] })

/-- The read of the byte at `a`, at offset `off` of a frame that is only compared. Whether an alpha byte is fetched is
left open (20_memory.md R59, 93_implementation_defined.md U15): where its read would be refused, a draw says. -/
def Port.readFrameByte (p : Port) (a off : Nat) : Byte × Port :=
  if alphaOffset off && !admits p.cfg .read a then
    if Config.freeBool p.draws then { p with draws := p.draws + 1 }.readByte a
    else (memRead p.mem a, { p with draws := p.draws + 1 })
  else p.readByte a

/-- `MemRead(addr, n)` (00_scope.md R10). -/
def Port.read (p : Port) (a : Nat) : Nat → Bytes × Port
  | 0 => ([], p)
  | n + 1 =>
    let r := p.readByte a
    let t := r.2.read (a + 1) n
    (r.1 :: t.1, t.2)

/-- `MemRead(addr, n)` of a frame that is only compared, from offset `off` of it on. -/
def Port.readFrame (p : Port) (a off : Nat) : Nat → Bytes × Port
  | 0 => ([], p)
  | n + 1 =>
    let r := p.readFrameByte a off
    let t := r.2.readFrame (a + 1) (off + 1) n
    (r.1 :: t.1, t.2)

/-- The write of one byte. -/
def Port.writeByte (p : Port) (a : Nat) (b : Byte) : Port :=
  if admits p.cfg .write a then { p with mem := memWrite p.mem a b }
  else if p.lossy then { p with refused := p.refused ++ [a] }
  else { p with mem := memWrite p.mem a b, refused := p.refused ++ [a] }

/-- `MemWrite(addr, n, v)`, `n` being the length of `v` (00_scope.md R10). -/
def Port.write (p : Port) (a : Nat) : Bytes → Port
  | [] => p
  | b :: bs => (p.writeByte a b).write (a + 1) bs

/-- `MemWriteMasked(addr, v, mask)`: byte `v[i]` is written where bit `i` of the mask is 1, and is no access where
it is 0 (00_scope.md R10). -/
def Port.writeMasked (p : Port) (a : Nat) (mask : Byte) : Bytes → Port
  | [] => p
  | b :: bs =>
    (if mask.getLsbD 0 then p.writeByte a b else p).writeMasked (a + 1) (mask >>> 1) bs

/-- `bytes_of(region)` (00_scope.md R11). -/
def Port.bytesOf (p : Port) (r : Region) : Bytes × Port := p.read r.base r.size

/-- `bytes_of(region)` of a frame that is only compared. -/
def Port.frameOf (p : Port) (r : Region) : Bytes × Port := p.readFrame r.base 0 r.size

/-! ### The engine's *complete* step (40_command_interface.md R97) -/

/-- How a command's pseudocode ends: `finish(len, aux)` or `raise Err(code, info)`. -/
inductive Verdict where
  | finish (len aux : Nat)
  | raise (r : Raise)
deriving DecidableEq, Repr

/-- An error of phase A: memory is unchanged (40_command_interface.md R101, 60_exceptions.md R204), but for the bytes that
`earlySpans` may name. -/
def State.failA (s : State) (i : Instr) (r : Raise) : State :=
  (s.scramble (earlySpans s.cfg i s.latch.args)).raiseErr r

/-- Phase A (40_command_interface.md R101, 60_exceptions.md R206): the checks that need no memory access, in order. -/
def phaseA (i : Instr) (early : Args → Option Raise) (a : Args) : Option Raise :=
  (checkRegions (usedRegions i) a).or ((checkOverlap (usedRegions i) a).or (early a))

/-- An error of phase B other than BUS (60_exceptions.md R204): each byte of the MWS holds any value. -/
def State.failB (s : State) (i : Instr) (r : Raise) : State :=
  (s.scramble (errorSpans i s.latch.args)).raiseErr r

/-- A BUS error at the refused address `x` (60_exceptions.md R205). -/
def State.failBus (s : State) (i : Instr) (x : Nat) : State :=
  (s.scramble (maySpans i s.latch.args)).raiseErr ⟨.bus, x⟩

/-- The port at the start of phase B. -/
def State.port (s : State) (lossy : Bool) (d : Nat) : Port := ⟨s.cfg, s.mem, lossy, [], d⟩

/-- The state with the memory and the draws that an evaluation left at the port. -/
def State.afterPort (s : State) (p : Port) : State := { s with mem := p.mem, draws := p.draws }

/-- Phase B with no access refused: the pseudocode's end, with the memory it left. -/
def State.settle (s : State) (i : Instr) (v : Verdict) (p : Port) : State :=
  match v with
  | .finish len aux =>
    ((s.afterPort p).scramble (scratchSpans i s.latch.args)).finish len aux
  | .raise r => (s.withDraws p.draws).failB i r

/-- Phase B with an access refused (60_exceptions.md R205), the choices being draws: (a) BUS at any of the
`refused` addresses, or (b) the error, if it is one, that the pseudocode reaches over the lossy port. -/
def State.settleRefused (s : State) (i : Instr) (refused : List Nat) (lossy : Verdict × Port) : State :=
  let d := lossy.2.draws
  let x := refused.getD (Config.freeNat d % refused.length) 0
  let t := s.withDraws (d + 2)
  match lossy.1 with
  | .raise r => if Config.freeBool (d + 1) then t.failB i r else t.failBus i x
  | .finish _ _ => t.failBus i x

/-- Phase B (40_command_interface.md R97, R101). The accesses `A` of R205 are those of the evaluation that takes
memory as it stands; only if one of them is refused does the lossy evaluation matter. -/
def State.phaseB (s : State) (i : Instr) (body : Args → Port → Verdict × Port) : State :=
  let plain := body s.latch.args (s.port false s.draws)
  if plain.2.refused = [] then s.settle i plain.1 plain.2
  else s.settleRefused i plain.2.refused (body s.latch.args (s.port true plain.2.draws))

/-- Success or any error the command can raise, by the draw `d`. -/
def anyOutcome (i : Instr) (d : Nat) : ErrCode :=
  let outcomes := ErrCode.none :: errorsOf i
  outcomes.getD (Config.freeNat d % outcomes.length) .none

/-- The completion of a command during which a hazard rule was broken (70_reset_and_hazards.md R241): any value in
every byte of MWS ∪ WS and in the result registers, and success or any error the command can raise. -/
def State.hazardEnd (s : State) (i : Instr) : State :=
  let t := s.scramble (maySpans i s.latch.args)
  let d := t.draws
  (t.withDraws (d + 4)).endCommand (anyOutcome i d) (Config.freeWord (d + 1)) (Config.freeWord (d + 2))
    (Config.freeWord (d + 3))

/-- ERR and the result registers of a completion given the values R241 allows. -/
def State.redrawResults (s : State) (i : Instr) : State :=
  let d := s.draws
  { s with err := anyOutcome i d, resultLen := Config.freeWord (d + 1), resultAux := Config.freeWord (d + 2),
           errInfo := Config.freeWord (d + 3), draws := d + 4 }

/-- A window of locations that are not idempotent memory meets a region (20_memory.md R58). -/
def windowMeets (w : Window) (r : Region) : Bool :=
  decide (0 < w.size) && decide (0 < r.size) && decide (w.base < r.limit) && decide (r.base < w.base + w.size)

/-- Some region the command uses is not idempotent memory: rule H6 is broken (70_reset_and_hazards.md R240). -/
def breaksH6 (c : Config) (i : Instr) (a : Args) : Bool :=
  (usedRegions i).any fun r => c.nonIdempotent.any fun w => windowMeets w (a.region r)

/-- The engine's *complete* step for the command `i` (40_command_interface.md R97): it evaluates the command rule
over LATCH, the configuration and memory, performs its writes and ends the command. `early` are the command's
own checks of phase A and `body` is its phase B. -/
def State.complete (s : State) (i : Instr) (early : Args → Option Raise)
    (body : Args → Port → Verdict × Port) : State :=
  if s.hazard || breaksH6 s.cfg i s.latch.args then s.hazardEnd i
  else
    match phaseA i early s.latch.args with
    | some r => s.failA i r
    | none => s.phaseB i body

end Sys2Proof.Machine
end

