-- ==== Sys2Proof/Machine/Mmio.lean ====
section
/-! DEFINITION. The register window (10_state.md R20 to R37): the register map, reads and writes, and the command
write (40_command_interface.md R90 to R95). -/

namespace Sys2Proof.Machine

/-- The sixteen registers (10_state.md R20). -/
inductive Reg where
  | id | cap | ctrl | cmd | status
  | src0Addr | src0Len | src1Addr | src1Len | dstAddr | dstCap | scrAddr | scrCap
  | resultLen | resultAux | errInfo
deriving DecidableEq, Repr

/-- The register at an offset; none where the offset is reserved (10_state.md R20, R36). -/
def regAt (off : Nat) : Option Reg :=
  match off with
  | 0x00 => some .id
  | 0x08 => some .cap
  | 0x10 => some .ctrl
  | 0x18 => some .cmd
  | 0x20 => some .status
  | 0x28 => some .src0Addr
  | 0x30 => some .src0Len
  | 0x38 => some .src1Addr
  | 0x40 => some .src1Len
  | 0x48 => some .dstAddr
  | 0x50 => some .dstCap
  | 0x58 => some .scrAddr
  | 0x60 => some .scrCap
  | 0x68 => some .resultLen
  | 0x70 => some .resultAux
  | 0x78 => some .errInfo
  | _ => none

/-- The CAP constant of a configuration (10_state.md R23): MAX_OP, CODEC and PREFIX_BYTES. -/
def capValue (c : Config) : Word :=
  0#48 ++ BitVec.ofNat 8 maxOp ++ c.codecId ++ BitVec.ofNat 4 lenPrefixBytes

/-- The CTRL word: IRQ_EN in bit 0, every other bit hardwired 0 (10_state.md R24). -/
def State.ctrlWord (s : State) : Word := 0#63 ++ BitVec.ofBool s.irqEn

/-- The value of a register (10_state.md R22 to R35). -/
def State.readReg (s : State) : Reg → Word
  | .id => idValue
  | .cap => capValue s.cfg
  | .ctrl => s.ctrlWord
  | .cmd => s.cmd
  | .status => s.statusWord
  | .src0Addr => s.args.src0.addr
  | .src0Len => s.args.src0.len
  | .src1Addr => s.args.src1.addr
  | .src1Len => s.args.src1.len
  | .dstAddr => s.args.dst.addr
  | .dstCap => s.args.dst.len
  | .scrAddr => s.args.scr.addr
  | .scrCap => s.args.scr.len
  | .resultLen => s.resultLen
  | .resultAux => s.resultAux
  | .errInfo => s.errInfo

/-- A host read at an offset (40_command_interface.md R91): the register's value, or 0 at a reserved offset. -/
def State.mmioRead (s : State) (off : Nat) : Word :=
  match regAt off with
  | some r => s.readReg r
  | none => 0

/-- `latch(op)` (40_command_interface.md R95). -/
def latchOf (op : Byte) (a : Args) : Latch := ⟨op, a⟩

/-- A command write while busy (40_command_interface.md R92): dropped. -/
def State.dropCommand (s : State) : State := { s with cmdDropped := true }

/-- A command write of an illegal word while idle (40_command_interface.md R93): BAD_CMD. -/
def State.rejectCommand (s : State) (w : Word) : State :=
  { s with cmd := w, done := true, err := .badCmd, lastOp := w.extractLsb' 0 8, resultLen := 0,
           resultAux := 0, errInfo := w }

/-- A command write of a legal word while idle (40_command_interface.md R94): the command starts. -/
def State.startCommand (s : State) (w : Word) : State :=
  { s with cmd := w, latch := latchOf (w.extractLsb' 0 8) s.args, eng := .busy, done := false, err := .none,
           lastOp := w.extractLsb' 0 8, resultLen := 0, resultAux := 0, errInfo := 0, hazard := false }

/-- `command_write(w)` (40_command_interface.md R92 to R94). -/
def State.commandWrite (s : State) (w : Word) : State :=
  match s.eng with
  | .busy => s.dropCommand
  | .idle =>
    match decodeWord w with
    | .ok _ => s.startCommand w
    | .error _ => s.rejectCommand w

/-- A write to a register (40_command_interface.md R90). -/
def State.writeReg (s : State) (r : Reg) (w : Word) : State :=
  match r with
  | .id => s
  | .cap => s
  | .ctrl => { s with irqEn := w.getLsbD 0 }
  | .cmd => s.commandWrite w
  | .status => s.statusWrite w
  | .src0Addr => { s with args := { s.args with src0 := { s.args.src0 with addr := w } } }
  | .src0Len => { s with args := { s.args with src0 := { s.args.src0 with len := w } } }
  | .src1Addr => { s with args := { s.args with src1 := { s.args.src1 with addr := w } } }
  | .src1Len => { s with args := { s.args with src1 := { s.args.src1 with len := w } } }
  | .dstAddr => { s with args := { s.args with dst := { s.args.dst with addr := w } } }
  | .dstCap => { s with args := { s.args with dst := { s.args.dst with len := w } } }
  | .scrAddr => { s with args := { s.args with scr := { s.args.scr with addr := w } } }
  | .scrCap => { s with args := { s.args with scr := { s.args.scr with len := w } } }
  | .resultLen => s
  | .resultAux => s
  | .errInfo => s

/-- A host write at an offset (40_command_interface.md R90): nothing at a reserved offset. -/
def State.mmioWrite (s : State) (off : Nat) (w : Word) : State :=
  match regAt off with
  | some r => s.writeReg r w
  | none => s

/-- The offset in the window of an access at a platform address (10_state.md R20, `MMIO_BASE`). -/
def windowOffset (c : Config) (addr : Word) : Nat := (addr - c.mmioBase).toNat

end Sys2Proof.Machine
end

