-- ==== Sys2Proof/Machine/Agents.lean ====
section
/-! DEFINITION. What the agents other than the engine do to the block and to memory (00_scope.md R14): host accesses
to the window and to memory, and the reset input. -/

namespace Sys2Proof.Machine

/-- The host gets an answer. -/
def State.reply (s : State) (r : Reply) : State := { s with replies := s.replies ++ [r] }

/-- An ended command is observed if `p` names it. -/
def Ended.observe (p : Latch → Bool) (e : Ended) : Ended := { e with seen := e.seen || p e.latch }

/-- The ended commands that `p` names are observed. One is forgotten once it and all before it are observed. -/
def observeEnded (p : Latch → Bool) (es : List Ended) : List Ended := (es.map (Ended.observe p)).dropWhile Ended.seen

/-- The last ended command is observed if its word is `w`. -/
def observeLast (w : Word) (es : List Ended) : List Ended :=
  (es.dropLast ++ es.getLast?.toList.map (Ended.observe fun l => w == l.op.zeroExtend 64)).dropWhile Ended.seen

/-- A read of STATUS is the host's observation of the end of every command if it returns DONE = 1, and of those with
the LAST_OP it returns if it returns BUSY = 0 (20_memory.md R63 part 2). -/
def State.observe (s : State) : State :=
  if s.busy then s else { s with ended := observeEnded (fun l => s.done || s.lastOp == l.op) s.ended }

/-- The host takes `irq`: its observation of the completion that raised it, which is the last one while CMD still holds
that command's word (20_memory.md R63 part 2). -/
def State.takeIrq (s : State) : State := { s with ended := observeLast s.cmd s.ended }

/-- A host read of the register at an offset (40_command_interface.md R91). -/
def State.hostRead (s : State) (off : Nat) : State :=
  (if off = 0x20 then s.observe else s).reply (.data (s.mmioRead off))

/-- The host samples `irq` (10_state.md R38); where it is 1 the host takes it. -/
def State.sampleIrq (s : State) : State := (if s.irq then s.takeIrq else s).reply (.irq s.irq)

/-- A host MMIO access (20_memory.md R52; 40_command_interface.md R90, R91). One that R52 does not define is answered
with an error response and has no effect on any register. -/
def State.mmioAccess (s : State) (a : MmioAccess) : State :=
  let off := windowOffset s.cfg a.addr
  if a.wellFormed off then
    match a.op with
    | .read => s.hostRead off
    | .write w => (s.mmioWrite off w).reply .written
  else s.reply .errorResponse

/-- An address is a byte of a region of the command LATCH.OP names. -/
def latchedUses (l : Latch) (x : Nat) : Bool :=
  match decodeOpcode l.op with
  | .ok i => usesByte i l.args x
  | .error _ => false

/-- The bytes the command LATCH.OP names may write: MWS ∪ WS (20_memory.md R60). -/
def latchedSpans (l : Latch) : List Span :=
  match decodeOpcode l.op with
  | .ok i => maySpans i l.args
  | .error _ => []

/-- The commands for which the other agents must keep the hazard rules: each from its start to the host's observation
of its end (70_reset_and_hazards.md R240). -/
def State.guarded (s : State) : List Latch :=
  ((s.ended.filter fun e => !e.seen).map Ended.latch) ++ if s.busy then [s.latch] else []

/-- The outcome of an ended command for which a hazard rule was broken (70_reset_and_hazards.md R241): any value in
every byte of MWS ∪ WS, and, while the registers are still that command's, in ERR and the results. -/
def State.spoil (s : State) (l : Latch) (last : Bool) : State :=
  match decodeOpcode l.op with
  | .ok i =>
    let t := s.scramble (maySpans i l.args)
    if last && !s.busy && s.cmd == l.op.zeroExtend 64 then t.redrawResults i else t
  | .error _ => s

/-- The ended commands for which a rule was broken spoiled, oldest first: those that `hit` names and whose end is not
yet observed. Every other command keeps its bytes and its results (70_reset_and_hazards.md R241). -/
def State.spoilEnded (hit : Latch → Bool) : List Ended → State → State
  | [], s => s
  | e :: es, s => State.spoilEnded hit es (if !e.seen && hit e.latch then s.spoil e.latch es.isEmpty else s)

/-- A hazard rule is broken for the guarded commands that `hit` names (70_reset_and_hazards.md R240, R241): for a
running one the breach is noted for its completion, for an ended one the free values are drawn at once. -/
def State.breach (s : State) (hit : Latch → Bool) : State :=
  let t := State.spoilEnded hit s.ended s
  if s.busy && hit s.latch then { t with hazard := true } else t

/-- A byte written by the host or another bus master. A write to a region of a guarded command breaks H1, H2 or H5
(70_reset_and_hazards.md R240). -/
def State.agentWrite (s : State) (addr : Word) (b : Byte) : State :=
  { s with mem := memWrite s.mem addr.toNat b }.breach fun l => latchedUses l addr.toNat

/-- A byte read by the host or another bus master. A byte that a guarded command may write reads as any value
(70_reset_and_hazards.md R242, 20_memory.md R63 part 2), also where it is a byte of SRC0 or SRC1 too, for which the first
point of R242 gives the byte memory holds: DESIGN CHOICE (log entry 33; it matters before the OVERLAP error is observed).
So does, at all times, a location that is not idempotent memory (20_memory.md R58). -/
def State.agentRead (s : State) (addr : Word) : State :=
  if (s.guarded.any fun l => inSpans (latchedSpans l) addr.toNat) ||
      s.cfg.nonIdempotent.any (fun w => windowHolds w addr.toNat) then
    (s.withDraws (s.draws + 1)).reply (.byte (Config.freeByte s.draws))
  else s.reply (.byte (memRead s.mem addr.toNat))

/-- The regions of a command on another instance clash with those of the command LATCH.OP names: a region that either
writes shares a byte with one the other uses (20_memory.md R68). -/
def latchedClash (l : Latch) (reads writes : List Window) : Bool :=
  match decodeOpcode l.op with
  | .ok i =>
    (usedRegions i).any fun r =>
      writes.any (fun w => windowMeets w (l.args.region r)) ||
        ((r == .dst || r == .scr) && reads.any fun w => windowMeets w (l.args.region r))
  | .error _ => false

/-- A command on another instance of the block, at the same time (70_reset_and_hazards.md R240, H5). -/
def State.rivalCommand (s : State) (reads writes : List Window) : State :=
  s.breach fun l => latchedClash l reads writes

/-- Any value of a region register pair. -/
def freeRegion (d : Nat) : Region := ⟨Config.freeWord d, Config.freeWord (d + 1)⟩

/-- Any value of LATCH (10_state.md R43, 70_reset_and_hazards.md R230). -/
def freeLatch (d : Nat) : Latch :=
  ⟨Config.freeByte d, ⟨freeRegion d, freeRegion (d + 2), freeRegion (d + 4), freeRegion (d + 6)⟩⟩

/-- The registers, ENG and the hidden state after reset (10_state.md R43, 70_reset_and_hazards.md R230). -/
def State.resetRegisters (s : State) : State :=
  { s.forgetWork with
    irqEn := false, cmd := 0, eng := .idle, done := false, cmdDropped := false, err := .none, lastOp := 0,
    args := .zero, resultLen := 0, resultAux := 0, errInfo := 0, latch := freeLatch s.forgetWork.draws,
    hazard := false, draws := s.forgetWork.draws + 8 }

/-- The reset input (70_reset_and_hazards.md R230). A running command is abandoned, and each byte of its may-write
set holds any value (R231); memory is otherwise unchanged. -/
def State.resetInput (s : State) : State :=
  match s.eng with
  | .idle => s.resetRegisters
  | .busy => (s.scramble (latchedSpans s.latch)).resetRegisters

/-- One event of an agent other than the engine. -/
def State.agentEvent (s : State) (e : Event) : State :=
  match e with
  | .mmio a => s.mmioAccess a
  | .memWrite addr b => s.agentWrite addr b
  | .memRead addr => s.agentRead addr
  | .otherCommand reads writes => s.rivalCommand reads writes
  | .irqSample => s.sampleIrq
  | .reset => s.resetInput
  | .engine => s

end Sys2Proof.Machine
end

