-- ==== Sys2Proof/Machine/Delta.lean ====
section
/-! DEFINITION. The delta stage (41_delta_stage.md): the change bitmap builder and payload gatherer, the checking
parser, the payload scatterer, and the commands ENCODE_DELTA and APPLY_DELTA. -/

namespace Sys2Proof.Machine

/-! ### Encode -/

/-- The offsets of the six RGB bytes of a pair (41_delta_stage.md R120). -/
def rgbOffsets : List Nat := [0, 1, 2, 4, 5, 6]

/-- `dirty(P, C, k)` (41_delta_stage.md R120). -/
def dirty (P C : Bytes) (k : Nat) : Bool :=
  rgbOffsets.any fun j => byteAt P (pairBytes * k + j) != byteAt C (pairBytes * k + j)

/-- The payload of pair `k` of the current frame (30_encoding.md R79). -/
def payload (C : Bytes) (k : Nat) : Bytes := rgbOffsets.map fun j => byteAt C (pairBytes * k + j)

/-- The header bit of a slot: slot 0 is bit 7 (30_encoding.md R76). -/
def slotBit (slot : Nat) : Byte := (1 : Byte) <<< (7 - slot)

/-- The variables of the encoder's loop (41_delta_stage.md R121): HDR, PAYBUF and `slot` of the working state, the
output and the dirty count. -/
structure EncLoop where
  hdr    : Byte
  payBuf : Bytes
  slot   : Nat
  out    : Bytes
  count  : Nat
deriving DecidableEq, Repr

/-- The encoder's variables before the first pair (R121). -/
def encStart : EncLoop := ⟨0, [], 0, [], 0⟩

/-- A dirty pair sets its header bit and appends its payload (R121). -/
def encMark (P C : Bytes) (k : Nat) (e : EncLoop) : EncLoop :=
  if dirty P C k then
    { e with hdr := e.hdr ||| slotBit e.slot, payBuf := e.payBuf ++ payload C k, count := e.count + 1 }
  else e

/-- The flush of a group: the header byte, then the accumulated payload (R121). -/
def encFlush (e : EncLoop) : EncLoop :=
  { e with out := e.out ++ e.hdr :: e.payBuf, hdr := 0, payBuf := [], slot := 0 }

/-- One pair of the encoder's loop (R121). -/
def encPair (P C : Bytes) (e : EncLoop) (k : Nat) : EncLoop :=
  let m := encMark P C k e
  let n := { m with slot := m.slot + 1 }
  if n.slot = groupPairs then encFlush n else n

/-- The final partial group, flushed even if it is all zero (R121). -/
def encLast (e : EncLoop) : EncLoop := if 0 < e.slot then encFlush e else e

/-- `encode_delta(P, C)` (41_delta_stage.md R121): the delta stream and the dirty pair count. -/
def encodeDelta (P C : Bytes) : Bytes × Nat :=
  let e := encLast ((List.range (P.length / pairBytes)).foldl (encPair P C) encStart)
  (e.out, e.count)

/-! ### Parse and scatter -/

/-- A record `(k, q)`: a pair index and its six payload bytes (41_delta_stage.md R122). -/
abbrev Record := Nat × Bytes

/-- `pend`: the pairs whose header bits are set, in ascending order (R122, 30_encoding.md R76). -/
def pendOf (h : Byte) (base : Nat) : List Nat :=
  ((List.range groupPairs).filter fun i => h.getLsbD (7 - i)).map (base + ·)

/-- The records of one group (R122): for each pending pair "payload present", then "pair in buffer". It answers the
records and the read cursor after them. -/
def groupRecords (D : Bytes) (cap hpos : Nat) : List Nat → Nat → Except Raise (List Record × Nat)
  | [], c => .ok ([], c)
  | k :: ks, c =>
    if D.length < c + payloadBytes then .error ⟨.deltaTruncated, hpos⟩
    else if cap < pairBytes * k + pairBytes then .error ⟨.bufTooSmall, k⟩
    else
      match groupRecords D cap hpos ks (c + payloadBytes) with
      | .error e => .error e
      | .ok (rs, c') => .ok ((k, (D.drop c).take payloadBytes) :: rs, c')

/-- The loop over groups (R122), from the read cursor `c` and the pair counter `base`, in at most as many rounds as
the first argument says. -/
def parseGroups (D : Bytes) (cap : Nat) : Nat → Nat → Nat → Except Raise (List Record)
  | 0, _, _ => .ok []
  | fuel + 1, c, base =>
    if c < D.length then
      match groupRecords D cap c (pendOf (byteAt D c) base) (c + 1) with
      | .error e => .error e
      | .ok (rs, c') =>
        match parseGroups D cap fuel c' (base + groupPairs) with
        | .error e => .error e
        | .ok more => .ok (rs ++ more)
    else .ok []

/-- `parse_delta(D, cap)` (41_delta_stage.md R122). Every round consumes a header byte, so `len(D)` rounds reach the
end of the stream. -/
def parseDelta (D : Bytes) (cap : Nat) : Except Raise (List Record) := parseGroups D cap D.length 0 0

/-- The eight bytes of a pair as the scatterer lays out a payload, its alpha places being masked out (R123). -/
def pairLanes (q : Bytes) : Bytes :=
  [byteAt q 0, byteAt q 1, byteAt q 2, 0, byteAt q 3, byteAt q 4, byteAt q 5, 0]

/-- The byte mask of the scatterer: every lane but the two alpha lanes (R123). -/
def rgbMask : Byte := 0b01110111

/-- `scatter(base_addr, recs)` (41_delta_stage.md R123). -/
def Port.scatter (p : Port) (a : Nat) : List Record → Port
  | [] => p
  | (k, q) :: rs => (p.writeMasked (a + pairBytes * k) rgbMask (pairLanes q)).scatter a rs

/-! ### Commands -/

/-- The early checks of the two commands that take frames (41_delta_stage.md R124, R127; 43_codec_facade.md R180):
equal lengths, then a whole number of pairs. -/
def geometryCheck (a : Args) : Option Raise :=
  if a.src0.size ≠ a.src1.size then some ⟨.geometry, 0⟩
  else if a.src0.size % pairBytes ≠ 0 then some ⟨.geometry, 1⟩
  else none

/-- A command with no check of its own in phase A. -/
def noEarlyCheck (_ : Args) : Option Raise := none

/-- The two frames of a command and the delta stream of them, read through the port (R124, R180). -/
def gatherDelta (a : Args) (p : Port) : (Bytes × Nat) × Port :=
  let prev := p.frameOf a.src0
  let cur := prev.2.frameOf a.src1
  (encodeDelta prev.1 cur.1, cur.2)

/-- A delta stream checked in full, then scattered into DST (41_delta_stage.md R128, 43_codec_facade.md R181). -/
def applyStream (D : Bytes) (a : Args) (p : Port) : Verdict × Port :=
  match parseDelta D a.dst.size with
  | .error r => (.raise r, p)
  | .ok recs => (.finish D.length recs.length, p.scatter a.dst.base recs)

/-- Phase B of ENCODE_DELTA (41_delta_stage.md R124). -/
def encodeDeltaBody (a : Args) (p : Port) : Verdict × Port :=
  let g := gatherDelta a p
  let D := g.1.1
  if a.dst.size < D.length then (.raise ⟨.dstOverflow, D.length⟩, g.2)
  else (.finish D.length g.1.2, g.2.write a.dst.base D)

/-- Phase B of APPLY_DELTA (41_delta_stage.md R128). -/
def applyDeltaBody (a : Args) (p : Port) : Verdict × Port :=
  let r := p.bytesOf a.src0
  applyStream r.1 a r.2

/-- ENCODE_DELTA, opcode 0x01 (41_delta_stage.md R124). -/
def execEncodeDelta (s : State) : Host.Outcome State Fault Refusal :=
  .next (s.complete .encodeDelta geometryCheck encodeDeltaBody)

/-- APPLY_DELTA, opcode 0x02 (41_delta_stage.md R128). -/
def execApplyDelta (s : State) : Host.Outcome State Fault Refusal :=
  .next (s.complete .applyDelta noEarlyCheck applyDeltaBody)

end Sys2Proof.Machine
end

