-- ==== Sys2Proof/Machine/Lz4.lean ====
section
/-! DEFINITION. The default codec, the LZ4 raw block format (42_entropy_stage.md R160 to R167), and its reference
encoder LIT_ENC (R157). The spec marks these rules as general knowledge (log entry 10). -/

namespace Sys2Proof.Machine

/-- The bytes that extend a length: each is added, up to and with the first that is not 255 (R161). It answers the
length and the rest of the input, or `none` where the input ends first. -/
def lz4Extend : Bytes → Nat → Option (Nat × Bytes)
  | [], _ => none
  | e :: rest, n => if e = 255#8 then lz4Extend rest (n + 255) else some (n + e.toNat, rest)

/-- The length that a token's nibble gives (R161, R164). -/
def lz4Length (nibble : Nat) (rest : Bytes) : Option (Nat × Bytes) :=
  if nibble = 15 then lz4Extend rest 15 else some (nibble, rest)

/-- The match copy, one byte at a time, from `off` bytes back in the output (R165). -/
def lz4Copy (off : Nat) : Nat → Bytes → Bytes
  | 0, out => out
  | n + 1, out => lz4Copy off n (out ++ [byteAt out (out.length - off)])

/-- The literals of a sequence: `lit` bytes of the input appended to the output, and the input after them; `none`
where too few remain (R162) or the output would pass `Lmax` (R166). -/
def lz4Literals (Lmax lit : Nat) (rest out : Bytes) : Option (Bytes × Bytes) :=
  if rest.length < lit then none
  else if Lmax < out.length + lit then none
  else some (out ++ rest.take lit, rest.drop lit)

/-- The match of a sequence, from its two offset bytes on (R163 to R166): the output after the copy and the input
after the length bytes. -/
def lz4Match (Lmax nibble : Nat) (rest out : Bytes) : Option (Bytes × Bytes) :=
  match rest with
  | o0 :: o1 :: rest =>
    let off := o0.toNat + 256 * o1.toNat
    if off = 0 ∨ out.length < off then none
    else
      match lz4Length nibble rest with
      | none => none
      | some (ml, rest) =>
        if Lmax < out.length + (ml + 4) then none else some (lz4Copy off (ml + 4) out, rest)
  | _ => none

/-- The sequences of a block (R160), at most as many as the first argument says. -/
def lz4Sequences (Lmax : Nat) : Nat → Bytes → Bytes → Option Bytes
  | 0, _, _ => none
  | _ + 1, [], _ => none
  | fuel + 1, t :: rest, out =>
    match lz4Length (t.toNat / 16) rest with
    | none => none
    | some (lit, rest) =>
      match lz4Literals Lmax lit rest out with
      | none => none
      | some (out, rest) =>
        if rest = [] then some out
        else
          match lz4Match Lmax (t.toNat % 16) rest out with
          | none => none
          | some (out, rest) => lz4Sequences Lmax fuel rest out

/-- `lz4_decode(B, Lmax)` (42_entropy_stage.md R160). Every sequence consumes its token, so one round more than
`len(B)` reaches the missing token that makes the decode fail. -/
def lz4Decode (B : Bytes) (Lmax : Nat) : Option Bytes := lz4Sequences Lmax (B.length + 1) B []

/-- `LIT_ENC(X)` (42_entropy_stage.md R157): one sequence of literals. -/
def litEnc (X : Bytes) : Bytes :=
  let n := X.length
  if n < 15 then BitVec.ofNat 8 (n * 16) :: X
  else 0xF0#8 :: (List.replicate ((n - 15) / 255) 255#8 ++ BitVec.ofNat 8 ((n - 15) % 255) :: X)

end Sys2Proof.Machine
end

