-- ==== Sys2Proof/Machine/Entropy.lean ====
section
/-! DEFINITION. The entropy stage (42_entropy_stage.md): the length-prefix wrapper over the codec the block is fitted
with, and the commands COMPRESS and DECOMPRESS. -/

namespace Sys2Proof.Machine

/-! ### The codec -/

/-- The codec of a block whose `CODEC_ID` is not 1 (42_entropy_stage.md R153). -/
def fittedCodec (id : BitVec 4) : Codec := (Config.otherCodec id).getD .stored

/-- `ENTROPY_DECODE(E, L)`, fixed by `CODEC_ID` (42_entropy_stage.md R153, R160). -/
def entropyDecode (c : Config) (E : Bytes) (L : Nat) : Option Bytes :=
  if c.codecId = 1 then lz4Decode E L else (fittedCodec c.codecId).decode E L

/-- An encoder of the default codec of which nothing but R152 is known: the unknown function wherever the decoder
gives its argument back, and LIT_ENC elsewhere. Every function that obeys R152(a) is one of these. -/
def lawfulEncode (f : Bytes → Bytes) (X : Bytes) : Bytes :=
  if lz4Decode (f X) X.length = some X then f X else litEnc X

/-- `ENTROPY_ENCODE(X)` (42_entropy_stage.md R152, R157). -/
def entropyEncode (c : Config) (X : Bytes) : Bytes :=
  if c.codecId = 1 then
    match c.encoder with
    | .litEnc => litEnc X
    | .fitted => lawfulEncode Config.fittedEncode X
  else (fittedCodec c.codecId).encode X

/-! ### The wrapper -/

/-- The first length that the prefix cannot hold, `2^(8·P)` (42_entropy_stage.md R150). -/
abbrev lenLimit : Nat := 256 ^ lenPrefixBytes

/-- `compress(X)` (42_entropy_stage.md R150). -/
def compressBytes (c : Config) (X : Bytes) : Except Raise Bytes :=
  if lenLimit ≤ X.length then .error ⟨.tooLarge, X.length⟩
  else .ok (leBytes lenPrefixBytes X.length ++ entropyEncode c X)

/-- `decompress(Y, cap, ovf)` (42_entropy_stage.md R151). -/
def decompressBytes (c : Config) (Y : Bytes) (cap : Nat) (ovf : ErrCode) : Except Raise Bytes :=
  if Y.length < lenPrefixBytes then .error ⟨.entropy, 1⟩
  else
    let L := fromLe (Y.take lenPrefixBytes)
    if cap < L then .error ⟨ovf, L⟩
    else
      match entropyDecode c (Y.drop lenPrefixBytes) L with
      | none => .error ⟨.entropy, 2⟩
      | some r => if r.length ≠ L then .error ⟨.entropy, 3⟩ else .ok r

/-! ### Commands -/

/-- The early check of COMPRESS (42_entropy_stage.md R154): the length is known without reading. -/
def sizeCheck (a : Args) : Option Raise :=
  if lenLimit ≤ a.src0.size then some ⟨.tooLarge, a.src0.size⟩ else none

/-- The compressed stream of `X` written to DST (42_entropy_stage.md R154, 43_codec_facade.md R180). -/
def emitCompressed (X : Bytes) (aux : Nat) (a : Args) (p : Port) : Verdict × Port :=
  match compressBytes p.cfg X with
  | .error r => (.raise r, p)
  | .ok Y =>
    if a.dst.size < Y.length then (.raise ⟨.dstOverflow, Y.length⟩, p)
    else (.finish Y.length aux, p.write a.dst.base Y)

/-- Phase B of COMPRESS (42_entropy_stage.md R154). -/
def compressBody (a : Args) (p : Port) : Verdict × Port :=
  let r := p.bytesOf a.src0
  emitCompressed r.1 r.1.length a r.2

/-- Phase B of DECOMPRESS (42_entropy_stage.md R155). -/
def decompressBody (a : Args) (p : Port) : Verdict × Port :=
  let r := p.bytesOf a.src0
  match decompressBytes p.cfg r.1 a.dst.size .dstOverflow with
  | .error e => (.raise e, r.2)
  | .ok X => (.finish X.length 0, r.2.write a.dst.base X)

/-- COMPRESS, opcode 0x03 (42_entropy_stage.md R154). -/
def execCompress (s : State) : Host.Outcome State Fault Refusal :=
  .next (s.complete .compress sizeCheck compressBody)

/-- DECOMPRESS, opcode 0x04 (42_entropy_stage.md R155). -/
def execDecompress (s : State) : Host.Outcome State Fault Refusal :=
  .next (s.complete .decompress noEarlyCheck decompressBody)

end Sys2Proof.Machine
end

