-- ==== Sys2Proof/Machine/Facade.lean ====
section
/-! DEFINITION. The codec facade (43_codec_facade.md): MIXED_COMPRESS and MIXED_DECOMPRESS, which keep the
intermediate delta stream in the scratch region SCR. -/

namespace Sys2Proof.Machine

/-- A delta stream written to SCR and read back (R180, R181). It comes back unchanged unless an access to SCR is
refused (20_memory.md R63 part 3, 60_exceptions.md R205). -/
def throughScratch (D : Bytes) (a : Args) (p : Port) : Bytes × Port :=
  (p.write a.scr.base D).read a.scr.base D.length

/-- Phase B of MIXED_COMPRESS (43_codec_facade.md R180). -/
def mixedCompressBody (a : Args) (p : Port) : Verdict × Port :=
  let g := gatherDelta a p
  let D := g.1.1
  if a.scr.size < D.length then (.raise ⟨.scrOverflow, D.length⟩, g.2)
  else
    let t := throughScratch D a g.2
    emitCompressed t.1 g.1.2 a t.2

/-- Phase B of MIXED_DECOMPRESS (43_codec_facade.md R181). -/
def mixedDecompressBody (a : Args) (p : Port) : Verdict × Port :=
  let r := p.bytesOf a.src0
  match decompressBytes p.cfg r.1 a.scr.size .scrOverflow with
  | .error e => (.raise e, r.2)
  | .ok D =>
    let t := throughScratch D a r.2
    applyStream t.1 a t.2

/-- MIXED_COMPRESS, opcode 0x05 (43_codec_facade.md R180). -/
def execMixedCompress (s : State) : Host.Outcome State Fault Refusal :=
  .next (s.complete .mixedCompress geometryCheck mixedCompressBody)

/-- MIXED_DECOMPRESS, opcode 0x06 (43_codec_facade.md R181). -/
def execMixedDecompress (s : State) : Host.Outcome State Fault Refusal :=
  .next (s.complete .mixedDecompress noEarlyCheck mixedDecompressBody)

end Sys2Proof.Machine
end

