-- ==== Sys2Proof/Machine/Dispatch.lean ====
section
/-! DEFINITION. Dispatch (40_command_interface.md R96): one arm per command, each the engine's *complete* step of
that command. -/

namespace Sys2Proof.Machine

def exec (i : Instr) (s : State) : Host.Outcome State Fault Refusal :=
  match i with
  | .encodeDelta => Sys2Proof.Machine.execEncodeDelta s
  | .applyDelta => Sys2Proof.Machine.execApplyDelta s
  | .compress => Sys2Proof.Machine.execCompress s
  | .decompress => Sys2Proof.Machine.execDecompress s
  | .mixedCompress => Sys2Proof.Machine.execMixedCompress s
  | .mixedDecompress => Sys2Proof.Machine.execMixedDecompress s

end Sys2Proof.Machine
end

