-- ==== Sys2Proof/Machine/Fetch.lean ====
section
/-! DEFINITION. Which command the engine runs: the opcode in LATCH (40_command_interface.md R96). The block has no
program counter (10_state.md R21); the engine's command word is where another machine has its next instruction. -/

namespace Sys2Proof.Machine

/-- The bytes of the command word that LATCH.OP stands for: the word equals the opcode (30_encoding.md R71). -/
def State.fetchBytes (s : State) : Bytes := leBytes 8 s.latch.op.toNat

/-- The command the engine runs. -/
def State.fetch (s : State) : Except DecodeError Instr := decode s.fetchBytes

/-- The state with `es` for what the other agents do next. -/
def State.withEvents (s : State) (es : List Event) : State := { s with events := es }

/-- The engine moves next: no event of another agent stands before its turn. -/
def State.engineNext (s : State) : State :=
  match s.events with
  | [] => s
  | es => s.withEvents (.engine :: es)

/-- The state with the command word `w` accepted by an idle block (40_command_interface.md R94) and the engine to
move next; a word that is no command stands as the host's next write to CMD, which rejects it (R93). -/
def State.placeWord (s : State) (w : Word) : State :=
  match decodeWord w with
  | .ok _ => s.engineNext.startCommand w
  | .error _ =>
    { s.withEvents (.mmio ⟨s.cfg.mmioBase + 0x18, 8, 1, .write w⟩ :: s.events) with eng := .idle }

end Sys2Proof.Machine
end

