-- ==== Sys2Proof/Machine/Step.lean ====
section
/-! DEFINITION. One step of the machine (00_scope.md R14): the next event of another agent, or the engine's turn. -/

namespace Sys2Proof.Machine

/-- The engine's turn. Its one step is enabled if and only if ENG = BUSY (40_command_interface.md R97); while IDLE the
block does nothing (60_exceptions.md R217). -/
def State.engineTurn (s : State) : Host.Outcome State Fault Refusal :=
  match s.eng with
  | .idle => .next s
  | .busy =>
    match s.fetch with
    | .ok i => exec i s
    | .error _ => .fault (.latchedReservedOpcode s.latch.op)

/-- One step: the agent that `events` names moves. The engine moves at its own turn, and whenever no other agent does
(log entry 1). -/
def step (s : State) : Host.Outcome State Fault Refusal :=
  match s.events with
  | [] => s.engineTurn
  | .engine :: es => (s.withEvents es).engineTurn
  | e :: es => .next ((s.withEvents es).agentEvent e)

/-- `s` with the command word whose bits are `w` placed so that the very next step runs it (log entry 2). -/
def State.withFetchWord (s : State) (nbits w : Nat) : State :=
  s.placeWord (BitVec.ofNat 64 (w % 2 ^ nbits))

end Sys2Proof.Machine
end

