-- ==== Sys2Proof/Safety.lean ====
section
/-! DEFINITION. The words claims are stated in: what a good state is, how a command ends, what a completion leaves
alone, and when a command's accesses and regions are in order. -/

namespace Sys2Proof.Machine

/-! ### Good states -/

/-- The working state within its capacities (10_state.md R40). -/
def Work.fits (w : Work) : Prop := w.payBuf.length ≤ 48 ∧ w.slot ≤ 8 ∧ w.pend.length ≤ 8

/-- ERR holds a code that the last command word can give (60_exceptions.md R201, column "raised by"). -/
def State.errIsPossible (s : State) : Prop :=
  match decodeWord s.cmd with
  | .ok i => s.err = .none ∨ s.err ∈ errorsOf i
  | .error _ => s.err = .none ∨ s.err = .badCmd

/-- What holds while a command runs: its opcode is a command's and was the last word accepted, DONE is 0
(10_state.md R26), and the result registers read 0 (10_state.md R33 to R35). -/
def State.busyShape (s : State) : Prop :=
  s.cmd = s.latch.op.zeroExtend 64 ∧ (∃ i, decodeWord s.cmd = .ok i) ∧ s.done = false ∧ s.err = .none ∧
    s.resultLen = 0 ∧ s.resultAux = 0 ∧ s.errInfo = 0

/-- The invariant of the machine: memory is in canonical form, LAST_OP is the low byte of CMD, the working state is
within its capacities, ERR is possible, and a running command looks like one. -/
def State.Inv (s : State) : Prop :=
  memWf s.mem = true ∧ s.lastOp = s.cmd.extractLsb' 0 8 ∧ s.work.fits ∧ s.errIsPossible ∧
    (s.eng = .busy → s.busyShape) ∧ (s.eng = .idle → s.hazard = false)

/-! ### How a command ends and what it leaves alone -/

/-- A command has ended: with the error `e`, and with these values in the result registers. An information value that
does not fit 64 bits leaves ERR_INFO open (log entry 31). -/
def Ends (t : State) (e : ErrCode) (len aux info : Nat) : Prop :=
  t.eng = .idle ∧ t.done = true ∧ t.err = e ∧ t.resultLen = BitVec.ofNat 64 len ∧
    t.resultAux = BitVec.ofNat 64 aux ∧ (info < 2 ^ 64 → t.errInfo = BitVec.ofNat 64 info)

/-- The registers a completion does not write: all but BUSY, DONE, ERR and the three result registers (10_state.md
R27, 40_command_interface.md R98); and what the other agents are doing. -/
def KeepsRest (s t : State) : Prop :=
  t.cfg = s.cfg ∧ t.irqEn = s.irqEn ∧ t.cmd = s.cmd ∧ t.cmdDropped = s.cmdDropped ∧ t.lastOp = s.lastOp ∧
    t.args = s.args ∧ t.latch = s.latch ∧ t.events = s.events ∧ t.replies = s.replies

/-- Every byte reads as before. -/
def MemSame (s t : State) : Prop := ∀ x, memRead t.mem x = memRead s.mem x

/-- Every byte outside the spans reads as before. -/
def MemSameOutside (s t : State) (ps : List Span) : Prop :=
  ∀ x, inSpans ps x = false → memRead t.mem x = memRead s.mem x

/-- The bytes `bs` stand from `a` on. -/
def Holds (m : List Host.Cell) (a : Nat) (bs : Bytes) : Prop :=
  ∀ j, j < bs.length → memRead m (a + j) = byteAt bs j

/-- The bytes of a region. -/
def regionBytes (s : State) (r : Region) : Bytes := memBytes s.mem r.base r.size

/-- The six RGB bytes of pair `k` of the frame buffer at `a` are the payload `q` (30_encoding.md R79). -/
def PairHolds (m : List Host.Cell) (a k : Nat) (q : Bytes) : Prop :=
  memRead m (a + 8 * k) = byteAt q 0 ∧ memRead m (a + 8 * k + 1) = byteAt q 1 ∧
    memRead m (a + 8 * k + 2) = byteAt q 2 ∧ memRead m (a + 8 * k + 4) = byteAt q 3 ∧
    memRead m (a + 8 * k + 5) = byteAt q 4 ∧ memRead m (a + 8 * k + 6) = byteAt q 5

/-- The address `x` is an RGB byte of a pair that some record names, in the frame buffer at `a`: the success write set
of an apply (20_memory.md R60). -/
def InRecords (a : Nat) (recs : List Record) (x : Nat) : Prop :=
  ∃ r ∈ recs, ∃ j ∈ [0, 1, 2, 4, 5, 6], x = a + 8 * r.1 + j

/-! ### When a command can run to its own end -/

/-- No hazard rule was broken (70_reset_and_hazards.md R240). -/
def Quiet (i : Instr) (s : State) : Prop := s.hazard = false ∧ breaksH6 s.cfg i s.latch.args = false

/-- Every region the command uses stays inside memory space (40_command_interface.md R99). -/
def RegionsFit (i : Instr) (a : Args) : Prop :=
  ∀ r ∈ usedRegions i, (a.region r).addr.toNat + (a.region r).len.toNat ≤ 2 ^ 64

/-- A region the command writes shares no byte with another it uses (40_command_interface.md R100). -/
def RegionsApart (i : Instr) (a : Args) : Prop :=
  ∀ r ∈ usedRegions i, ∀ q ∈ usedRegions i, r ≠ q → (q = .dst ∨ q = .scr) →
    ∀ x, (a.region r).holds x = true → (a.region q).holds x = false

/-- Two frames of equal length, a whole number of pairs (41_delta_stage.md R124). -/
def FramesMatch (a : Args) : Prop := a.src0.size = a.src1.size ∧ a.src0.size % 8 = 0

/-- The platform accepts every access of a kind to the bytes from `b` on. -/
def Admitted (c : Config) (k : AccessKind) (b n : Nat) : Prop :=
  ∀ x, b ≤ x → x < b + n → admits c k x = true

/-- The platform accepts every read and every write of the command's regions. -/
def AllAdmitted (i : Instr) (s : State) : Prop :=
  ∀ r ∈ usedRegions i, ∀ x, (s.latch.args.region r).holds x = true →
    admits s.cfg .read x = true ∧ admits s.cfg .write x = true

/-- The command gathers the delta stream of two frames, of which alpha bytes need not be fetched (20_memory.md R59). -/
def gathers (i : Instr) : Bool := i == .encodeDelta || i == .mixedCompress

/-- The delta stream of the two frames of a command (41_delta_stage.md R121). -/
def gathered (s : State) : Bytes :=
  (encodeDelta (regionBytes s s.latch.args.src0) (regionBytes s s.latch.args.src1)).1

/-- The delta stream that passes through SCR, where the command comes so far (43_codec_facade.md R180, R181). -/
def scratchStream (i : Instr) (s : State) : Option Bytes :=
  let a := s.latch.args
  match i with
  | .mixedCompress => if a.scr.size < (gathered s).length then none else some (gathered s)
  | .mixedDecompress => (decompressBytes s.cfg (regionBytes s a.src0) a.scr.size .scrOverflow).toOption
  | .encodeDelta => none
  | .applyDelta => none
  | .compress => none
  | .decompress => none

/-- The bytes that a command writes to DST from its base on, where it comes so far (20_memory.md R60). -/
def output (i : Instr) (s : State) : Option Bytes :=
  let a := s.latch.args
  let fitting := fun Y : Bytes => if a.dst.size < Y.length then none else some Y
  match i with
  | .encodeDelta => fitting (gathered s)
  | .compress => (compressBytes s.cfg (regionBytes s a.src0)).toOption.bind fitting
  | .decompress => (decompressBytes s.cfg (regionBytes s a.src0) a.dst.size .dstOverflow).toOption
  | .mixedCompress => (scratchStream i s).bind fun D => (compressBytes s.cfg D).toOption.bind fitting
  | .applyDelta => none
  | .mixedDecompress => none

/-- The delta stream that an apply parses, where it comes so far. -/
def applied (i : Instr) (s : State) : Option Bytes :=
  match i with
  | .applyDelta => some (regionBytes s s.latch.args.src0)
  | .mixedDecompress => scratchStream i s
  | .encodeDelta => none
  | .compress => none
  | .decompress => none
  | .mixedCompress => none

/-- An access that the command makes in phase B (the set `A` of 60_exceptions.md R205), but for the fetch of alpha bytes,
which is left open: a read of its read set, a scratch access, or a write of its success write set. -/
def Needs (i : Instr) (s : State) (k : AccessKind) (x : Nat) : Prop :=
  let a := s.latch.args
  (k = .read ∧ a.src0.holds x = true ∧ (gathers i = true → alphaOffset (x - a.src0.base) = false)) ∨
  (k = .read ∧ gathers i = true ∧ a.src1.holds x = true ∧ alphaOffset (x - a.src1.base) = false) ∨
  (∃ D, scratchStream i s = some D ∧ a.scr.base ≤ x ∧ x < a.scr.base + D.length) ∨
  (k = .write ∧ ∃ Y, output i s = some Y ∧ a.dst.base ≤ x ∧ x < a.dst.base + Y.length) ∨
  (k = .write ∧ ∃ D recs, applied i s = some D ∧ parseDelta D a.dst.size = .ok recs ∧ InRecords a.dst.base recs x)

/-- A byte that a command may or may not fetch (20_memory.md R59): an alpha byte of a frame that it compares. -/
def FetchesAlpha (i : Instr) (s : State) (x : Nat) : Prop :=
  gathers i = true ∧ ∃ r ∈ [s.latch.args.src0, s.latch.args.src1],
    r.holds x = true ∧ alphaOffset (x - r.base) = true

/-- The phase-A checks of each command (40_command_interface.md R101, 60_exceptions.md R206). -/
def earlyCheckOf : Instr → Args → Option Raise
  | .encodeDelta => geometryCheck
  | .applyDelta => noEarlyCheck
  | .compress => sizeCheck
  | .decompress => noEarlyCheck
  | .mixedCompress => geometryCheck
  | .mixedDecompress => noEarlyCheck

/-- Phase B of each command. -/
def bodyOf : Instr → Args → Port → Verdict × Port
  | .encodeDelta => encodeDeltaBody
  | .applyDelta => applyDeltaBody
  | .compress => compressBody
  | .decompress => decompressBody
  | .mixedCompress => mixedCompressBody
  | .mixedDecompress => mixedDecompressBody

/-! ### The entries of a delta stream, whatever the buffer (30_encoding.md R76 to R78) -/

/-- A flagged pair of a stream: where its header is, the pair, and where its payload begins. -/
structure Entry where
  hpos : Nat
  pair : Nat
  at_  : Nat
deriving DecidableEq, Repr

/-- The record of an entry. -/
def Entry.record (e : Entry) (D : Bytes) : Record := (e.pair, (D.drop e.at_).take 6)

/-- What is wrong with an entry: its payload is short, or else its pair is past the buffer (41_delta_stage.md R122). -/
def Entry.failure (e : Entry) (D : Bytes) (cap : Nat) : Option Raise :=
  if D.length < e.at_ + 6 then some ⟨.deltaTruncated, e.hpos⟩
  else if cap < 8 * e.pair + 8 then some ⟨.bufTooSmall, e.pair⟩
  else none

/-- The slots that a header flags, in ascending order: slot `i` is bit `7 - i` (30_encoding.md R76). -/
def flaggedSlots (h : Byte) : List Nat := (List.range 8).filter fun i => h.getLsbD (7 - i)

/-- The entries of the group whose header is at `c` and whose first pair is `base` (30_encoding.md R78). -/
def groupEntries (D : Bytes) (c base : Nat) : List Entry :=
  (flaggedSlots (byteAt D c)).zipIdx.map fun q => ⟨c, base + q.1, c + 1 + 6 * q.2⟩

/-- The entries from the header at `c` on, at most as many groups as the first argument says. -/
def entriesFrom (D : Bytes) : Nat → Nat → Nat → List Entry
  | 0, _, _ => []
  | n + 1, c, base =>
    if c < D.length then
      groupEntries D c base ++ entriesFrom D n (c + 1 + 6 * (flaggedSlots (byteAt D c)).length) (base + 8)
    else []

/-- The entries of a stream: every group has a header, so there are at most as many groups as bytes. -/
def streamEntries (D : Bytes) : List Entry := entriesFrom D D.length 0 0

/-! ### LZ4 blocks, as sequences (42_entropy_stage.md R160 to R166) -/

/-- The bytes `ext` after a token continue a length whose nibble is `nibble` to `n`: none where it is not 15, else some
of 255 and one that is not, all of them added (R161). -/
def LengthRun (nibble : Nat) (ext : Bytes) (n : Nat) : Prop :=
  nibble < 15 ∧ ext = [] ∧ n = nibble ∨
    nibble = 15 ∧ ∃ (m : Nat) (e : Byte), e ≠ 255#8 ∧ ext = List.replicate m 255#8 ++ [e] ∧ n = 15 + 255 * m + e.toNat

/-- The output `out'` is `out` and `n` bytes more, each of which equals the one `off` before it (R165). -/
def CopiedBack (off n : Nat) (out out' : Bytes) : Prop :=
  out'.length = out.length + n ∧ out'.take out.length = out ∧
    ∀ j, out.length ≤ j → j < out'.length → byteAt out' j = byteAt out' (j - off)

/-- The input is a block of sequences that, after the output so far, gives the result within `L` bytes. The last sequence
is a token, its length bytes and its literals, which end the input (R161, R162); any other goes on with two offset bytes,
an offset from 1 to the output so far (R163), the length bytes of a match of at least 4 (R164), and the copy (R165). The
output never passes `L` (R166). -/
inductive Lz4Block (L : Nat) : Bytes → Bytes → Bytes → Prop
  | last (t : Byte) (ext lits out : Bytes) :
    LengthRun (t.toNat / 16) ext lits.length → out.length + lits.length ≤ L →
    Lz4Block L (t :: (ext ++ lits)) out (out ++ lits)
  | more (t : Byte) (ext lits out : Bytes) (o0 o1 : Byte) (ext' rest out' r : Bytes) (ml : Nat) :
    LengthRun (t.toNat / 16) ext lits.length → out.length + lits.length ≤ L →
    1 ≤ o0.toNat + 256 * o1.toNat → o0.toNat + 256 * o1.toNat ≤ out.length + lits.length →
    LengthRun (t.toNat % 16) ext' ml → out.length + lits.length + (ml + 4) ≤ L →
    CopiedBack (o0.toNat + 256 * o1.toNat) (ml + 4) (out ++ lits) out' → Lz4Block L rest out' r →
    Lz4Block L (t :: (ext ++ lits ++ o0 :: o1 :: (ext' ++ rest))) out r

/-! ### The delta stream, group by group (30_encoding.md R76 to R80) -/

/-- Pair `k` of two frames of `n` pairs is flagged. -/
def flagged (P C : Bytes) (n k : Nat) : Bool := decide (k < n) && dirty P C k

/-- The header of group `g`: the weight of slot `i` is `2^(7-i)` (30_encoding.md R76). -/
def groupHeader (P C : Bytes) (n g : Nat) : Byte :=
  BitVec.ofNat 8 (((List.range 8).map fun i => if flagged P C n (8 * g + i) then 2 ^ (7 - i) else 0).sum)

/-- The flagged pairs of group `g`, in ascending order. -/
def groupPairsOf (P C : Bytes) (n g : Nat) : List Nat :=
  ((List.range 8).map fun i => 8 * g + i).filter fun k => flagged P C n k

/-- Group `g` of the stream: its header, then the payloads of its flagged pairs (30_encoding.md R78). -/
def groupBytes (P C : Bytes) (n g : Nat) : Bytes :=
  groupHeader P C n g :: (groupPairsOf P C n g).flatMap fun k => payload C k

/-- The dirty pairs of two frames of `n` pairs, in ascending order. -/
def dirtyPairs (P C : Bytes) (n : Nat) : List Nat := (List.range n).filter fun k => dirty P C k

end Sys2Proof.Machine
end

