-- ==== Sys2Proof/Certificates/Slice0/Obligations.lean ====
section
/-! DEFINITION. The statements for the provers. A statement about every state takes the canonical form of memory, or
the whole invariant, as a premise where it needs one; that every step keeps the invariant is a statement too. -/

open Sys2Proof Sys2Proof.Machine

/-! ### Encoding -/

/-- R71: a command word selects its command only when the whole 64-bit word equals the opcode. -/
def Obligations.CommandWordSelectsItsCommandExactly : Prop :=
  ∀ w : Word,
    (decodeWord w = .ok .encodeDelta ↔ w = 0x1#64) ∧ (decodeWord w = .ok .applyDelta ↔ w = 0x2#64) ∧
    (decodeWord w = .ok .compress ↔ w = 0x3#64) ∧ (decodeWord w = .ok .decompress ↔ w = 0x4#64) ∧
    (decodeWord w = .ok .mixedCompress ↔ w = 0x5#64) ∧ (decodeWord w = .ok .mixedDecompress ↔ w = 0x6#64)

/-- Decoding and encoding agree: the bytes that decode to a command are its encoding, and no others. -/
def Obligations.DecodedBytesAreTheEncoding : Prop :=
  ∀ (i : Instr) (bs : Bytes), decode bs = .ok i ↔ bs = encode i

/-- Words of the opcode table, written out, and three words that are no command (R71, R72). -/
def Obligations.SampleCommandWordsDecode : Prop :=
  decodeTableWord 64 0x0000000000000001 = some .encodeDelta ∧
  decodeTableWord 64 0x0000000000000004 = some .decompress ∧
  decodeTableWord 64 0x0000000000000006 = some .mixedDecompress ∧
  decodeTableWord 64 0x0000000000000000 = none ∧ decodeTableWord 64 0x0000000000000007 = none ∧
  decodeTableWord 64 0x0000000000000101 = none

/-! ### The step -/

/-- At the engine's turn, a busy block runs the command its latched word decodes to (R96, R97): the step is that
command's meaning, the turn being taken off the events. -/
def Obligations.StepRunsTheDecodedCommand : Prop :=
  ∀ (s : State) (es : List Event) (i : Instr),
    (s.events = [] ∧ es = [] ∨ s.events = .engine :: es) → s.eng = .busy → i.wellFormed = true →
    decode s.fetchBytes = .ok i → step s = exec i (s.withEvents es)

/-- A host write of a command's word to CMD of an idle block starts it with the argument registers as they stand, and
at the engine's turn the step runs it (R94, R95, R97). -/
def Obligations.WrittenCommandRunsAtTheEnginesTurn : Prop :=
  ∀ (s : State) (i : Instr) (a : MmioAccess) (es : List Event),
    s.eng = .idle → s.events = .mmio a :: .engine :: es → a.width = 8 → a.beats = 1 →
    windowOffset s.cfg a.addr = 0x18 → a.op = .write (encodeWord i) →
    ∃ t, step s = .next t ∧ t.eng = .busy ∧ t.latch.args = s.args ∧ decode t.fetchBytes = .ok i ∧
      t.mem = s.mem ∧ step t = exec i (t.withEvents es)

/-- The word that the host places runs at the very next step, on the arguments the registers hold. -/
def Obligations.PlacedWordRunsNext : Prop :=
  ∀ (s : State) (i : Instr),
    step (s.withFetchWord 64 (encodeWord i).toNat) = exec i (s.startCommand (encodeWord i))

/-! ### Starting a command -/

/-- R94 and R95: a legal word written to CMD of an idle block starts its command. That the working state (R40) and the
list of ended commands stay is the model's choice (log entries 24 and 15). -/
def Obligations.LegalCommandWordStarts : Prop :=
  ∀ (s : State) (w : Word),
    s.eng = .idle → w.extractLsb' 8 56 = 0 → 1 ≤ (w.extractLsb' 0 8).toNat → (w.extractLsb' 0 8).toNat ≤ 6 →
    let t := s.mmioWrite 0x18 w
    t.cmd = w ∧ t.latch = ⟨w.extractLsb' 0 8, s.args⟩ ∧ t.eng = .busy ∧ t.done = false ∧ t.err = .none ∧
      t.lastOp = w.extractLsb' 0 8 ∧ t.resultLen = 0 ∧ t.resultAux = 0 ∧ t.errInfo = 0 ∧ t.irq = false ∧
      t.mem = s.mem ∧ t.args = s.args ∧ t.irqEn = s.irqEn ∧ t.cmdDropped = s.cmdDropped ∧ t.cfg = s.cfg ∧
      t.work = s.work ∧ t.ended = s.ended

/-- R93: an illegal word written to CMD of an idle block is rejected at once with BAD_CMD; the engine does not run. -/
def Obligations.IllegalCommandWordIsRejected : Prop :=
  ∀ (s : State) (w : Word),
    s.eng = .idle →
    (w.extractLsb' 8 56 ≠ 0 ∨ (w.extractLsb' 0 8).toNat = 0 ∨ 6 < (w.extractLsb' 0 8).toNat) →
    let t := s.mmioWrite 0x18 w
    t.cmd = w ∧ t.done = true ∧ t.err.code = 0x01#8 ∧ t.lastOp = w.extractLsb' 0 8 ∧ t.resultLen = 0 ∧
      t.resultAux = 0 ∧ t.errInfo = w ∧ t.eng = .idle ∧ t.mem = s.mem ∧ t.latch = s.latch ∧ t.args = s.args ∧
      t.irqEn = s.irqEn ∧ t.cmdDropped = s.cmdDropped ∧ t.cfg = s.cfg ∧ t.work = s.work

/-- R92: a command write while busy sets CMD_DROPPED and changes nothing else. -/
def Obligations.CommandWriteWhileBusyIsDropped : Prop :=
  ∀ (s : State) (w : Word), s.eng = .busy → s.mmioWrite 0x18 w = { s with cmdDropped := true }

/-- R25: a write to CMD is the only way to start a command, and its word is a command's. -/
def Obligations.OnlyALegalCommandWriteStartsTheEngine : Prop :=
  ∀ s t : State, s.eng = .idle → step s = .next t → t.eng = .busy →
    ∃ (a : MmioAccess) (w : Word) (es : List Event) (i : Instr),
      s.events = .mmio a :: es ∧ a.op = .write w ∧ windowOffset s.cfg a.addr = 0x18 ∧ decodeWord w = .ok i ∧
      t.latch = ⟨w.extractLsb' 0 8, s.args⟩

/-- R104: only its completion or a reset ends a running command. -/
def Obligations.OnlyCompletionOrResetEndsACommand : Prop :=
  ∀ s t : State, s.eng = .busy → step s = .next t → t.eng = .idle →
    (∃ es, s.events = .reset :: es) ∨
    (∃ es i, (s.events = [] ∧ es = [] ∨ s.events = .engine :: es) ∧ decode s.fetchBytes = .ok i ∧
      exec i (s.withEvents es) = .next t)

/-- R39 and R66: only the start of a command and a reset write LATCH. -/
def Obligations.OnlyAStartOrAResetWritesTheLatch : Prop :=
  ∀ s t : State, step s = .next t →
    t.latch = s.latch ∨ (∃ es, s.events = .reset :: es) ∨
      (s.eng = .idle ∧ t.eng = .busy ∧ t.latch.args = s.args)

/-! ### Registers -/

/-- R22 and R23: ID and CAP are constants of the configuration, field by field, and a write to either is ignored. -/
def Obligations.IdentificationRegistersAreConstant : Prop :=
  ∀ (s : State) (w : Word),
    (s.mmioRead 0x00).extractLsb' 32 32 = 0x53575757#32 ∧ (s.mmioRead 0x00).extractLsb' 16 16 = 0x0007#16 ∧
    (s.mmioRead 0x00).extractLsb' 0 16 = 0x0001#16 ∧ s.mmioWrite 0x00 w = s ∧ s.mmioWrite 0x08 w = s ∧
    (s.mmioRead 0x08).extractLsb' 0 4 = 4#4 ∧ (s.mmioRead 0x08).extractLsb' 4 4 = s.cfg.codecId ∧
    (s.mmioRead 0x08).extractLsb' 8 8 = 0x06#8 ∧ (s.mmioRead 0x08).extractLsb' 16 48 = 0#48 ∧
    (s.cfg.codecId = 1 → s.mmioRead 0x08 = 0x0614#64)

/-- R24: CTRL holds IRQ_EN alone; every other bit is hardwired 0; a write takes effect at once, while busy as well. -/
def Obligations.ControlHoldsOnlyTheInterruptEnable : Prop :=
  ∀ (s : State) (w : Word),
    s.mmioWrite 0x10 w = { s with irqEn := w.getLsbD 0 } ∧
    ∀ j, ((s.mmioWrite 0x10 w).mmioRead 0x10).getLsbD j = (j == 0 && w.getLsbD 0)

/-- R26: the fields of STATUS are where its table says; every other bit is 0. R201: the codes that ERR reads. -/
def Obligations.StatusWordHasItsFields : Prop :=
  ∀ s : State,
    let v := s.mmioRead 0x20
    v.getLsbD 0 = (s.eng == .busy) ∧ v.getLsbD 1 = s.done ∧ v.getLsbD 2 = s.cmdDropped ∧
      v.extractLsb' 3 5 = 0#5 ∧ v.extractLsb' 16 8 = s.lastOp ∧ v.extractLsb' 24 40 = 0#40 ∧
      ∃ p ∈ [(ErrCode.none, 0x00#8), (.badCmd, 0x01#8), (.region, 0x02#8), (.overlap, 0x03#8), (.geometry, 0x04#8),
          (.dstOverflow, 0x05#8), (.scrOverflow, 0x06#8), (.tooLarge, 0x07#8), (.entropy, 0x08#8),
          (.deltaTruncated, 0x09#8), (.bufTooSmall, 0x0A#8), (.bus, 0x0B#8)],
        s.err = p.1 ∧ v.extractLsb' 8 8 = p.2

/-- R27: a write to STATUS clears DONE and CMD_DROPPED where its bits 1 and 2 are 1, and does nothing else. -/
def Obligations.StatusWriteClearsOnlyWhatIsWritten : Prop :=
  ∀ (s : State) (w : Word),
    let t := s.mmioWrite 0x20 w
    (t.done = if w.getLsbD 1 then false else s.done) ∧
    (t.cmdDropped = if w.getLsbD 2 then false else s.cmdDropped) ∧
    t = { s with done := t.done, cmdDropped := t.cmdDropped } ∧
    ∀ j, (t.mmioRead 0x20).getLsbD j =
      ((s.mmioRead 0x20).getLsbD j && !(j == 1 && w.getLsbD 1) && !(j == 2 && w.getLsbD 2))

/-- R32: an argument register reads as the last value written, at any time; the write reaches no other register and
never the running command. -/
def Obligations.ArgumentRegistersHoldWhatIsWritten : Prop :=
  ∀ (s : State) (off : Nat) (w : Word), off ∈ [0x28, 0x30, 0x38, 0x40, 0x48, 0x50, 0x58, 0x60] →
    let t := s.mmioWrite off w
    t.mmioRead off = w ∧ (∀ off', off' ≠ off → t.mmioRead off' = s.mmioRead off') ∧
      t = { s with args := t.args }

/-- R36 and R37: a read at a reserved offset answers 0 and changes nothing; a write there, or to a read-only register, is
ignored. -/
def Obligations.ReservedAndReadOnlyWritesAreIgnored : Prop :=
  ∀ (s : State) (off : Nat) (w : Word),
    (0x80 ≤ off → off ≤ 0xF8 →
      s.mmioRead off = 0 ∧ s.hostRead off = s.reply (.data 0) ∧ s.mmioWrite off w = s) ∧
    (off ∈ [0x00, 0x08, 0x68, 0x70, 0x78] → s.mmioWrite off w = s)

/-- R52, as log entry 17 reads it: any access but a single aligned one of 8 bytes in the window is answered with an
error response and has no other effect. -/
def Obligations.UndefinedAccessOnlyAnswersAnError : Prop :=
  ∀ (s : State) (a : MmioAccess) (es : List Event),
    s.events = .mmio a :: es →
    (a.width ≠ 8 ∨ a.beats ≠ 1 ∨ windowOffset s.cfg a.addr % 8 ≠ 0 ∨ 0xF8 < windowOffset s.cfg a.addr) →
    step s = .next ((s.withEvents es).reply .errorResponse)

/-- R20, R25 and R28 to R35: which register each offset reads. R91 and R63: a host read answers the register's value and
changes no register and no byte of memory; a read of STATUS with DONE = 1 is the host's observation of every end. R90: a
host write of a register is the step of that write, and the host is answered. -/
def Obligations.HostAccessesReachTheirRegister : Prop :=
  (∀ s : State,
    s.mmioRead 0x18 = s.cmd ∧ s.mmioRead 0x28 = s.args.src0.addr ∧ s.mmioRead 0x30 = s.args.src0.len ∧
    s.mmioRead 0x38 = s.args.src1.addr ∧ s.mmioRead 0x40 = s.args.src1.len ∧ s.mmioRead 0x48 = s.args.dst.addr ∧
    s.mmioRead 0x50 = s.args.dst.len ∧ s.mmioRead 0x58 = s.args.scr.addr ∧ s.mmioRead 0x60 = s.args.scr.len ∧
    s.mmioRead 0x68 = s.resultLen ∧ s.mmioRead 0x70 = s.resultAux ∧ s.mmioRead 0x78 = s.errInfo) ∧
  (∀ (s : State) (a : MmioAccess) (es : List Event) (w : Word),
    s.events = .mmio a :: es → a.width = 8 → a.beats = 1 → windowOffset s.cfg a.addr % 8 = 0 →
    windowOffset s.cfg a.addr ≤ 0xF8 → a.op = .write w →
    step s = .next (((s.withEvents es).mmioWrite (windowOffset s.cfg a.addr) w).reply .written)) ∧
  ∀ (s : State) (a : MmioAccess) (es : List Event),
    s.events = .mmio a :: es → a.width = 8 → a.beats = 1 → windowOffset s.cfg a.addr % 8 = 0 →
    windowOffset s.cfg a.addr ≤ 0xF8 → a.op = .read →
    ∃ u : List Ended,
      step s = .next { s with events := es, ended := u,
                              replies := s.replies ++ [.data (s.mmioRead (windowOffset s.cfg a.addr))] } ∧
      (windowOffset s.cfg a.addr ≠ 0x20 → u = s.ended) ∧
      (windowOffset s.cfg a.addr = 0x20 → s.eng = .idle → s.done = true → u = []) ∧
      (s.eng = .busy → u = s.ended)

/-- R38: `irq` is DONE and IRQ_EN. R207: every completion and every rejection raises it where IRQ_EN is 1; the next start,
the acknowledge and reset lower it; clearing IRQ_EN masks it and clears nothing. A sample of `irq` answers its level and
changes nothing else, but that taking it where it is 1 may be the observation of an end (R63; log entries 15 and 22). -/
def Obligations.InterruptFollowsDoneAndEnable : Prop :=
  (∀ s : State, s.irq = (s.done && s.irqEn)) ∧
  (∀ (i : Instr) (s t : State), exec i s = .next t → t.irq = s.irqEn) ∧
  (∀ (s : State) (w : Word), (s.rejectCommand w).irq = s.irqEn ∧ (s.startCommand w).irq = false) ∧
  (∀ s : State, s.acknowledge.irq = false ∧ s.resetInput.irq = false) ∧
  (∀ s : State, (s.mmioWrite 0x10 0).irq = false ∧ (s.mmioWrite 0x10 0).done = s.done) ∧
  (∀ s : State, s.done = true → (s.mmioWrite 0x10 1).irq = true) ∧
  ∀ (s : State) (es : List Event), s.events = .irqSample :: es →
    ∃ u : List Ended,
      step s = .next { s with events := es, ended := u, replies := s.replies ++ [.irq (s.done && s.irqEn)] } ∧
      ((s.done && s.irqEn) = false → u = s.ended)

/-! ### Reset -/

/-- R43 and R230: reset is enabled in every state, and what it leaves in every register, ENG and `irq`, whatever came
before; memory is unchanged where no command was running. -/
def Obligations.ResetLeavesTheTable : Prop :=
  ∀ (s : State) (es : List Event), s.events = .reset :: es →
    ∃ t, step s = .next t ∧ t.events = es ∧ t.replies = s.replies ∧ t.cfg = s.cfg ∧
      t.mmioRead 0x00 = 0x5357575700070001#64 ∧ t.mmioRead 0x08 = s.mmioRead 0x08 ∧
      (∀ off, 0x10 ≤ off → t.mmioRead off = 0) ∧ t.eng = .idle ∧ t.irq = false ∧
      (s.eng = .idle → t.mem = s.mem)

/-- The state after reset, under any configuration, reads as R43 says and meets the invariant. -/
def Obligations.ResetStateMeetsTheInvariant : Prop :=
  ∀ c : Config, (State.resetWith c).Inv ∧ (State.resetWith c).eng = .idle ∧ (State.resetWith c).irq = false ∧
    ∀ off, 0x10 ≤ off → (State.resetWith c).mmioRead off = 0

/-- R231: reset while a command runs abandons it; no byte outside its may-write set is changed. -/
def Obligations.ResetAbandonsARunningCommand : Prop :=
  ∀ (s : State) (i : Instr) (es : List Event),
    s.events = .reset :: es → s.eng = .busy → decode s.fetchBytes = .ok i →
    ∃ t, step s = .next t ∧ t.eng = .idle ∧ t.done = false ∧ t.err = .none ∧ t.lastOp = 0 ∧
      t.resultLen = 0 ∧ t.resultAux = 0 ∧ t.errInfo = 0 ∧ t.mmioRead 0x20 = 0 ∧
      MemSameOutside s t (maySpans i s.latch.args)

/-! ### Invariants -/

/-- Every step keeps the invariant. -/
def Obligations.EveryStepKeepsTheInvariant : Prop :=
  ∀ s t : State, s.Inv → step s = .next t → t.Inv

/-- R200: from a state that meets the invariant, the machine never stops. -/
def Obligations.NoStepStops : Prop :=
  ∀ s : State, s.Inv → ∃ t, step s = .next t

/-- R244: a running command ends after at most as many steps as other agents have events left, and one. -/
def Obligations.RunningCommandEndsInBoundedSteps : Prop :=
  ∀ s : State, s.Inv → s.eng = .busy →
    ∃ n, n ≤ s.events.length + 1 ∧ ∃ t, core.run n s = .next t ∧ t.eng = .idle

/-- Two canonical memories that read alike at every address are equal. -/
def Obligations.CanonicalMemoriesThatReadAlikeAreEqual : Prop :=
  ∀ m m' : List Host.Cell, memWf m = true → memWf m' = true → (∀ a, memRead m a = memRead m' a) → m = m'

/-! ### Every command -/

/-- R200: every command ends in success or in one of its errors, which are those of R201, and writes no register but
those of a completion (R27, R98, R203). -/
def Obligations.EveryCommandEndsInSuccessOrOneOfItsErrors : Prop :=
  ∀ (i : Instr) (s : State), ∃ t, exec i s = .next t ∧ t.eng = .idle ∧ t.done = true ∧
    (t.err = .none ∨ t.err ∈ errorsOf i) ∧ KeepsRest s t

/-- R60: no command ever writes a byte outside its may-write set, however it ends. -/
def Obligations.CommandsWriteOnlyTheirMayWriteSet : Prop :=
  ∀ (i : Instr) (s t : State), exec i s = .next t → MemSameOutside s t (maySpans i s.latch.args)

/-- R97: a completion depends on no register but LATCH. That free values, SCR after a mixed command (R183) and the choices
of R205 and R241 among them, come out alike in the two runs is the model's choice (log entry 11): it draws them by
number, and the premise makes the numbers equal. -/
def Obligations.CompletionDependsOnlyOnTheLatch : Prop :=
  ∀ (i : Instr) (s s' t t' : State),
    s.cfg = s'.cfg → s.latch = s'.latch → s.mem = s'.mem → s.hazard = s'.hazard → s.draws = s'.draws →
    exec i s = .next t → exec i s' = .next t' →
    t.mem = t'.mem ∧ t.err = t'.err ∧ t.resultLen = t'.resultLen ∧ t.resultAux = t'.resultAux ∧
      t.errInfo = t'.errInfo

/-! ### Phase A -/

/-- R99: the region check passes exactly where every used region stays inside memory space, and otherwise reports the
first that does not, in the order SRC0, SRC1, DST, SCR, by its index; a region of length 0 always passes. -/
def Obligations.RegionCheckReportsTheFirstThatPassesTheTop : Prop :=
  ∀ (used : List RegionName) (a : Args),
    (checkRegions used a = none ↔
      ∀ r ∈ used, (a.region r).addr.toNat + (a.region r).len.toNat ≤ 2 ^ 64) ∧
    (∀ e, checkRegions used a = some e ↔
      ∃ r ∈ used, 2 ^ 64 < (a.region r).addr.toNat + (a.region r).len.toNat ∧ e = ⟨.region, r.index⟩ ∧
        ∀ q ∈ used, q.index < r.index → (a.region q).addr.toNat + (a.region q).len.toNat ≤ 2 ^ 64) ∧
    (∀ r, (a.region r).len = 0 → (a.region r).addr.toNat + (a.region r).len.toNat ≤ 2 ^ 64) ∧
    [RegionName.src0, .src1, .dst, .scr].map RegionName.index = [0, 1, 2, 3]

/-- R100: two regions overlap exactly where they share a byte; the check passes exactly where no region the command
writes shares a byte with another it uses, and otherwise reports the first pair that does, by the indices of R99. -/
def Obligations.OverlapCheckFindsSharedBytes : Prop :=
  (∀ a b : Region, overlaps a b = true ↔ ∃ x, a.holds x = true ∧ b.holds x = true) ∧
  (∀ (i : Instr) (a : Args), checkOverlap (usedRegions i) a = none ↔ RegionsApart i a) ∧
  (∀ (used : List RegionName) (a : Args) (e : Raise), checkOverlap used a = some e ↔
    ∃ pre i j post,
      [(.src0, .dst), (.src1, .dst), (.src0, .scr), (.src1, .scr), (.dst, .scr)] = pre ++ (i, j) :: post ∧
        i ∈ used ∧ j ∈ used ∧ overlaps (a.region i) (a.region j) = true ∧
        (∀ p ∈ pre, p.1 ∈ used → p.2 ∈ used → overlaps (a.region p.1) (a.region p.2) = false) ∧
        e = ⟨.overlap, 16 * i.index + j.index⟩) ∧
  [RegionName.src0, .src1, .dst, .scr].map RegionName.index = [0, 1, 2, 3]

/-- R101 and R206: phase A is the region check, then the overlap check, then the command's own; the first that fails is the
error. R204: memory is unchanged. The configuration says whether R183 reaches the scratch region of a mixed command even
then, which is the model's answer to R183 beside R101 and R204 (log entry 30). -/
def Obligations.PhaseAErrorLeavesMemoryUnchanged : Prop :=
  ∀ (i : Instr) (s : State), Quiet i s →
    let a := s.latch.args
    let endsIn := fun r : Raise => ∃ t, exec i s = .next t ∧ Ends t r.code 0 0 r.info ∧ KeepsRest s t ∧
      MemSameOutside s t (scratchSpans i a) ∧
      (i ≠ .mixedCompress ∧ i ≠ .mixedDecompress ∨ s.cfg.losesScratch = false → MemSame s t)
    (∀ r, checkRegions (usedRegions i) a = some r → endsIn r) ∧
    (∀ r, checkRegions (usedRegions i) a = none → checkOverlap (usedRegions i) a = some r → endsIn r) ∧
    (∀ r, checkRegions (usedRegions i) a = none → checkOverlap (usedRegions i) a = none →
      earlyCheckOf i a = some r → endsIn r)

/-- R124 and R127: frames whose lengths differ, or are no whole number of pairs, are rejected before any access. Whether SCR
keeps its bytes at such an end of MIXED_COMPRESS is log entry 30. -/
def Obligations.MismatchedFramesAreRejected : Prop :=
  ∀ (i : Instr) (s : State), (i = .encodeDelta ∨ i = .mixedCompress) →
    Quiet i s → RegionsFit i s.latch.args → RegionsApart i s.latch.args → ¬ FramesMatch s.latch.args →
    ∃ t, exec i s = .next t ∧
      Ends t .geometry 0 0 (if s.latch.args.src0.size = s.latch.args.src1.size then 1 else 0) ∧ KeepsRest s t ∧
      MemSameOutside s t (scratchSpans i s.latch.args) ∧
      (i = .encodeDelta ∨ s.cfg.losesScratch = false → MemSame s t)

/-- R154: an input that the 4-byte prefix cannot describe is refused before any access. -/
def Obligations.CompressRefusesWhatThePrefixCannotHold : Prop :=
  ∀ s : State, Quiet .compress s → RegionsFit .compress s.latch.args → RegionsApart .compress s.latch.args →
    2 ^ 32 ≤ s.latch.args.src0.size →
    ∃ t, exec .compress s = .next t ∧ Ends t .tooLarge 0 0 s.latch.args.src0.size ∧ MemSame s t ∧ KeepsRest s t

/-! ### The delta stream -/

/-- R76 to R80: the encoder's loop gives, group by group, the header byte and then the payloads of the flagged pairs,
and counts the dirty pairs. -/
def Obligations.EncodedStreamIsItsGroups : Prop :=
  ∀ (P C : Bytes) (n : Nat), P.length = 8 * n → C.length = 8 * n →
    encodeDelta P C =
      ((List.range (ceilDiv n 8)).flatMap fun g => groupBytes P C n g, (dirtyPairs P C n).length)

/-- R81: the length of an encoded stream of `n` pairs, `d` of them dirty, is `ceil_div(n, 8) + 6·d`, with `d ≤ n`. -/
def Obligations.EncodedStreamLength : Prop :=
  ∀ (P C : Bytes) (n : Nat), P.length = 8 * n → C.length = 8 * n →
    (encodeDelta P C).1.length = ceilDiv n 8 + 6 * (encodeDelta P C).2 ∧ (encodeDelta P C).2 ≤ n ∧
      (encodeDelta P C).1.length ≤ ceilDiv n 8 + 6 * n

/-- R125: frames with equal RGB bytes give one zero header for each group and no payload. -/
def Obligations.UnchangedFramesGiveTheMinimalStream : Prop :=
  ∀ (P C : Bytes) (n : Nat), P.length = 8 * n → C.length = 8 * n →
    (∀ k j, k < n → j ∈ [0, 1, 2, 4, 5, 6] → byteAt P (8 * k + j) = byteAt C (8 * k + j)) →
    encodeDelta P C = (List.replicate (ceilDiv n 8) 0#8, 0)

/-- R59 and R120: the alpha bytes of the two frames never affect the stream. -/
def Obligations.AlphaNeverAffectsTheStream : Prop :=
  ∀ (P C P' C' : Bytes), P.length = P'.length →
    (∀ x, x % 4 ≠ 3 → byteAt P x = byteAt P' x ∧ byteAt C x = byteAt C' x) →
    encodeDelta P C = encodeDelta P' C'

/-- R122: a stream is accepted exactly where every entry of it has its payload and names a pair in the buffer, its records
being the entries; otherwise the error is that of the first entry that fails. The records name ascending pairs that fit
the buffer, each with six payload bytes, and the stream is at least its records' payload long. -/
def Obligations.ParsedRecordsFitAndAscend : Prop :=
  (∀ (D : Bytes) (cap : Nat) (r : Raise), parseDelta D cap = .error r ↔
    ∃ pre e post, streamEntries D = pre ++ e :: post ∧ (∀ q ∈ pre, q.failure D cap = none) ∧
      e.failure D cap = some r) ∧
  (∀ (D : Bytes) (cap : Nat) (recs : List Record), parseDelta D cap = .ok recs ↔
    (∀ e ∈ streamEntries D, e.failure D cap = none) ∧ recs = (streamEntries D).map fun e => e.record D) ∧
  ∀ (D : Bytes) (cap : Nat) (recs : List Record), parseDelta D cap = .ok recs →
    (∀ r ∈ recs, 8 * r.1 + 8 ≤ cap ∧ r.2.length = 6) ∧ recs.Pairwise (fun r q => r.1 < q.1) ∧
      6 * recs.length ≤ D.length

/-- R129: zero headers are accepted whatever the buffer's length, and name no pair. -/
def Obligations.ZeroHeadersAreAccepted : Prop :=
  ∀ z cap : Nat, parseDelta (List.replicate z 0#8) cap = .ok []

/-! ### Commands that complete -/

/-- R124: ENCODE_DELTA writes the stream of its frames to DST and nothing else. -/
def Obligations.EncodeDeltaWritesTheStream : Prop :=
  ∀ s : State, memWf s.mem = true → Quiet .encodeDelta s → RegionsFit .encodeDelta s.latch.args →
    RegionsApart .encodeDelta s.latch.args → FramesMatch s.latch.args →
    let a := s.latch.args
    let D := encodeDelta (regionBytes s a.src0) (regionBytes s a.src1)
    Admitted s.cfg .read a.src0.base a.src0.size → Admitted s.cfg .read a.src1.base a.src1.size →
    Admitted s.cfg .write a.dst.base D.1.length → D.1.length ≤ a.dst.size →
    ∃ t, exec .encodeDelta s = .next t ∧ Ends t .none D.1.length D.2 0 ∧ KeepsRest s t ∧
      Holds t.mem a.dst.base D.1 ∧
      ∀ x, (x < a.dst.base ∨ a.dst.base + D.1.length ≤ x) → memRead t.mem x = memRead s.mem x

/-- R128: APPLY_DELTA writes each record's RGB bytes into the frame buffer and nothing else. -/
def Obligations.ApplyDeltaWritesTheRecords : Prop :=
  ∀ (s : State) (recs : List Record), memWf s.mem = true → Quiet .applyDelta s →
    RegionsFit .applyDelta s.latch.args → RegionsApart .applyDelta s.latch.args →
    let a := s.latch.args
    Admitted s.cfg .read a.src0.base a.src0.size →
    parseDelta (regionBytes s a.src0) a.dst.size = .ok recs →
    (∀ x, InRecords a.dst.base recs x → admits s.cfg .write x = true) →
    ∃ t, exec .applyDelta s = .next t ∧ Ends t .none a.src0.size recs.length 0 ∧ KeepsRest s t ∧
      (∀ r ∈ recs, PairHolds t.mem a.dst.base r.1 r.2) ∧
      ∀ x, ¬ InRecords a.dst.base recs x → memRead t.mem x = memRead s.mem x

/-- R154: COMPRESS writes the length prefix and the encoder's bytes to DST and nothing else. -/
def Obligations.CompressWritesPrefixAndBody : Prop :=
  ∀ s : State, memWf s.mem = true → Quiet .compress s → RegionsFit .compress s.latch.args →
    RegionsApart .compress s.latch.args →
    let a := s.latch.args
    let Y := leBytes 4 a.src0.size ++ entropyEncode s.cfg (regionBytes s a.src0)
    a.src0.size < 2 ^ 32 → Admitted s.cfg .read a.src0.base a.src0.size →
    Admitted s.cfg .write a.dst.base Y.length → Y.length ≤ a.dst.size →
    ∃ t, exec .compress s = .next t ∧ Ends t .none Y.length a.src0.size 0 ∧ KeepsRest s t ∧
      Holds t.mem a.dst.base Y ∧
      ∀ x, (x < a.dst.base ∨ a.dst.base + Y.length ≤ x) → memRead t.mem x = memRead s.mem x

/-- R155: DECOMPRESS writes what the stream decodes to into DST and nothing else. -/
def Obligations.DecompressWritesTheDecodedBytes : Prop :=
  ∀ (s : State) (X : Bytes), memWf s.mem = true → Quiet .decompress s →
    RegionsFit .decompress s.latch.args → RegionsApart .decompress s.latch.args →
    let a := s.latch.args
    Admitted s.cfg .read a.src0.base a.src0.size →
    decompressBytes s.cfg (regionBytes s a.src0) a.dst.size .dstOverflow = .ok X →
    Admitted s.cfg .write a.dst.base X.length →
    ∃ t, exec .decompress s = .next t ∧ Ends t .none X.length 0 0 ∧ KeepsRest s t ∧
      Holds t.mem a.dst.base X ∧
      ∀ x, (x < a.dst.base ∨ a.dst.base + X.length ≤ x) → memRead t.mem x = memRead s.mem x

/-- R180: MIXED_COMPRESS writes the compressed delta stream to DST; besides it only bytes of SCR may change. -/
def Obligations.MixedCompressWritesTheCompressedStream : Prop :=
  ∀ s : State, memWf s.mem = true → Quiet .mixedCompress s → RegionsFit .mixedCompress s.latch.args →
    RegionsApart .mixedCompress s.latch.args → FramesMatch s.latch.args →
    let a := s.latch.args
    let D := encodeDelta (regionBytes s a.src0) (regionBytes s a.src1)
    let Y := leBytes 4 D.1.length ++ entropyEncode s.cfg D.1
    Admitted s.cfg .read a.src0.base a.src0.size → Admitted s.cfg .read a.src1.base a.src1.size →
    Admitted s.cfg .write a.scr.base D.1.length → Admitted s.cfg .read a.scr.base D.1.length →
    D.1.length ≤ a.scr.size → D.1.length < 2 ^ 32 →
    Admitted s.cfg .write a.dst.base Y.length → Y.length ≤ a.dst.size →
    ∃ t, exec .mixedCompress s = .next t ∧ Ends t .none Y.length D.2 0 ∧ KeepsRest s t ∧
      Holds t.mem a.dst.base Y ∧
      ∀ x, (x < a.dst.base ∨ a.dst.base + Y.length ≤ x) → a.scr.holds x = false →
        memRead t.mem x = memRead s.mem x

/-- R181: MIXED_DECOMPRESS writes the RGB bytes of the decoded stream's records into the frame buffer; besides them
only bytes of SCR may change. -/
def Obligations.MixedDecompressWritesTheRecords : Prop :=
  ∀ (s : State) (D : Bytes) (recs : List Record), memWf s.mem = true → Quiet .mixedDecompress s →
    RegionsFit .mixedDecompress s.latch.args → RegionsApart .mixedDecompress s.latch.args →
    let a := s.latch.args
    Admitted s.cfg .read a.src0.base a.src0.size →
    decompressBytes s.cfg (regionBytes s a.src0) a.scr.size .scrOverflow = .ok D →
    Admitted s.cfg .write a.scr.base D.length → Admitted s.cfg .read a.scr.base D.length →
    parseDelta D a.dst.size = .ok recs →
    (∀ x, InRecords a.dst.base recs x → admits s.cfg .write x = true) →
    ∃ t, exec .mixedDecompress s = .next t ∧ Ends t .none D.length recs.length 0 ∧ KeepsRest s t ∧
      (∀ r ∈ recs, PairHolds t.mem a.dst.base r.1 r.2) ∧
      ∀ x, ¬ InRecords a.dst.base recs x → a.scr.holds x = false → memRead t.mem x = memRead s.mem x

/-! ### Commands that fail -/

/-- R124, R154 and R180: an output that does not fit its buffer is reported with the length it needs; MIXED_COMPRESS
checks SCR, then the prefix, then DST. No byte outside DST and SCR changes. -/
def Obligations.OverflowReportsTheNeededLength : Prop :=
  (∀ s : State, Quiet .encodeDelta s → RegionsFit .encodeDelta s.latch.args →
    RegionsApart .encodeDelta s.latch.args → FramesMatch s.latch.args →
    let a := s.latch.args
    let D := encodeDelta (regionBytes s a.src0) (regionBytes s a.src1)
    Admitted s.cfg .read a.src0.base a.src0.size → Admitted s.cfg .read a.src1.base a.src1.size →
    a.dst.size < D.1.length →
    ∃ t, exec .encodeDelta s = .next t ∧ Ends t .dstOverflow 0 0 D.1.length ∧ KeepsRest s t ∧
      ∀ x, a.dst.holds x = false → memRead t.mem x = memRead s.mem x) ∧
  (∀ s : State, Quiet .compress s → RegionsFit .compress s.latch.args → RegionsApart .compress s.latch.args →
    let a := s.latch.args
    let Y := leBytes 4 a.src0.size ++ entropyEncode s.cfg (regionBytes s a.src0)
    a.src0.size < 2 ^ 32 → Admitted s.cfg .read a.src0.base a.src0.size → a.dst.size < Y.length →
    ∃ t, exec .compress s = .next t ∧ Ends t .dstOverflow 0 0 Y.length ∧ KeepsRest s t ∧
      ∀ x, a.dst.holds x = false → memRead t.mem x = memRead s.mem x) ∧
  (∀ s : State, memWf s.mem = true → Quiet .mixedCompress s → RegionsFit .mixedCompress s.latch.args →
    RegionsApart .mixedCompress s.latch.args → FramesMatch s.latch.args →
    let a := s.latch.args
    let D := encodeDelta (regionBytes s a.src0) (regionBytes s a.src1)
    let Y := leBytes 4 D.1.length ++ entropyEncode s.cfg D.1
    Admitted s.cfg .read a.src0.base a.src0.size → Admitted s.cfg .read a.src1.base a.src1.size →
    (D.1.length ≤ a.scr.size →
      Admitted s.cfg .write a.scr.base D.1.length ∧ Admitted s.cfg .read a.scr.base D.1.length) →
    ∀ e : ErrCode, ∀ info : Nat,
      (if a.scr.size < D.1.length then e = .scrOverflow ∧ info = D.1.length
       else if 2 ^ 32 ≤ D.1.length then e = .tooLarge ∧ info = D.1.length
       else a.dst.size < Y.length ∧ e = .dstOverflow ∧ info = Y.length) →
      ∃ t, exec .mixedCompress s = .next t ∧ Ends t e 0 0 info ∧ KeepsRest s t ∧
        ∀ x, a.dst.holds x = false → a.scr.holds x = false → memRead t.mem x = memRead s.mem x)

/-- R151, R155 and R181: the checks of a compressed stream, in order; DECOMPRESS and MIXED_DECOMPRESS report the first
that fails, against DST and against SCR. No byte changes outside DST of the first, outside SCR of the second. -/
def Obligations.DecompressReportsTheFirstFailedCheck : Prop :=
  ∀ (i : Instr) (s : State), (i = .decompress ∨ i = .mixedDecompress) → Quiet i s →
    RegionsFit i s.latch.args → RegionsApart i s.latch.args →
    let a := s.latch.args
    let Y := regionBytes s a.src0
    let L := fromLe (Y.take 4)
    let out := entropyDecode s.cfg (Y.drop 4) L
    let buf := if i = .decompress then a.dst else a.scr
    Admitted s.cfg .read a.src0.base a.src0.size →
    ∀ (e : ErrCode) (info : Nat),
      (if Y.length < 4 then e = .entropy ∧ info = 1
       else if buf.size < L then e = (if i = .decompress then .dstOverflow else .scrOverflow) ∧ info = L
       else if out = none then e = .entropy ∧ info = 2
       else out.map List.length ≠ some L ∧ e = .entropy ∧ info = 3) →
      ∃ t, exec i s = .next t ∧ Ends t e 0 0 info ∧ KeepsRest s t ∧
        ∀ x, buf.holds x = false → memRead t.mem x = memRead s.mem x

/-- R128, R181 and R204: a stream that the checking pass turns away ends an apply in that error (`ParsedRecordsFitAndAscend`
says which), nothing written but SCR; and after every error other than BUS the whole frame buffer is unchanged, but for a
byte it shares with SCR, which is an OVERLAP error, where the configuration lets that lose SCR (log entry 30). -/
def Obligations.FrameBufferSurvivesEveryErrorButBus : Prop :=
  (∀ (s : State) (r : Raise), Quiet .applyDelta s → RegionsFit .applyDelta s.latch.args →
    RegionsApart .applyDelta s.latch.args →
    let a := s.latch.args
    Admitted s.cfg .read a.src0.base a.src0.size → parseDelta (regionBytes s a.src0) a.dst.size = .error r →
    ∃ t, exec .applyDelta s = .next t ∧ Ends t r.code 0 0 r.info ∧ KeepsRest s t ∧ MemSame s t) ∧
  (∀ (s : State) (D : Bytes) (r : Raise), memWf s.mem = true → Quiet .mixedDecompress s →
    RegionsFit .mixedDecompress s.latch.args → RegionsApart .mixedDecompress s.latch.args →
    let a := s.latch.args
    Admitted s.cfg .read a.src0.base a.src0.size →
    decompressBytes s.cfg (regionBytes s a.src0) a.scr.size .scrOverflow = .ok D →
    Admitted s.cfg .write a.scr.base D.length → Admitted s.cfg .read a.scr.base D.length →
    parseDelta D a.dst.size = .error r →
    ∃ t, exec .mixedDecompress s = .next t ∧ Ends t r.code 0 0 r.info ∧ KeepsRest s t ∧
      ∀ x, a.scr.holds x = false → memRead t.mem x = memRead s.mem x) ∧
  ∀ (i : Instr) (s t : State), (i = .applyDelta ∨ i = .mixedDecompress) → Quiet i s → exec i s = .next t →
    t.err ≠ .none → t.err ≠ .bus →
    ∀ x, s.latch.args.dst.holds x = true →
      (i = .mixedDecompress → s.cfg.losesScratch = true → s.latch.args.scr.holds x = false) →
      memRead t.mem x = memRead s.mem x

/-- R205, with its set A as log entry 12 (DESIGN CHOICE) takes it, that of the run in which every refused read answers the
byte that memory holds: where the platform refuses an access that the command must make, a read of its read set, a write of its success
write set or a scratch access, it never ends in success, and a BUS error names an address that the command accesses in a
way that is refused: one of those, or an alpha byte of a frame it compares (R59). Which addresses BUS may name is so the
model's choice. -/
def Obligations.RefusedReadNeverSucceeds : Prop :=
  ∀ (i : Instr) (s t : State) (k : AccessKind) (x : Nat), memWf s.mem = true → Quiet i s →
    phaseA i (earlyCheckOf i) s.latch.args = none → Needs i s k x → admits s.cfg k x = false →
    exec i s = .next t →
    t.err ≠ .none ∧
      (t.err = .bus → ∃ k', admits s.cfg k' t.errInfo.toNat = false ∧
        (Needs i s k' t.errInfo.toNat ∨ k' = .read ∧ FetchesAlpha i s t.errInfo.toNat))

/-! ### Hazards -/

/-- R240 and R241: a write by another agent to a region of the running command breaks a hazard rule, and the command
then still ends, in success or one of its errors, changing no byte outside its may-write set. The write changes no other
byte but those an ended command may write that uses it and whose end is not yet observed (log entry 15). A command of another
instance whose regions clash with those of the running one (H5, R68) breaks the rule in the same way. -/
def Obligations.BrokenHazardRuleStillEndsTheCommand : Prop :=
  (∀ (s : State) (i : Instr) (addr : Word) (b : Byte) (es : List Event),
    s.events = .memWrite addr b :: es → s.eng = .busy → decode s.fetchBytes = .ok i →
    usesByte i s.latch.args addr.toNat = true → memWf s.mem = true →
    ∃ t, step s = .next t ∧ t.hazard = true ∧ t.eng = .busy ∧ t.latch = s.latch ∧ t.args = s.args ∧
      ∀ x, (∀ e ∈ s.ended, e.seen = false → latchedUses e.latch addr.toNat = true →
          inSpans (latchedSpans e.latch) x = false) →
        memRead t.mem x = if x = addr.toNat then b else memRead s.mem x) ∧
  (∀ (s : State) (i : Instr) (reads writes : List Window) (es : List Event),
    s.events = .otherCommand reads writes :: es → s.eng = .busy → decode s.fetchBytes = .ok i →
    (∃ r ∈ usedRegions i, ∃ x, (s.latch.args.region r).holds x = true ∧
      ((∃ w ∈ writes, windowHolds w x = true) ∨ (r = .dst ∨ r = .scr) ∧ ∃ w ∈ reads, windowHolds w x = true)) →
    ∃ t, step s = .next t ∧ t.hazard = true ∧ t.eng = .busy ∧ t.latch = s.latch ∧ t.args = s.args ∧
      ∀ x, (∀ e ∈ s.ended, e.seen = false → latchedClash e.latch reads writes = true →
          inSpans (latchedSpans e.latch) x = false) → memRead t.mem x = memRead s.mem x) ∧
  (∀ (i : Instr) (s : State), s.hazard = true →
    ∃ t, exec i s = .next t ∧ t.eng = .idle ∧ t.done = true ∧ (t.err = .none ∨ t.err ∈ errorsOf i) ∧
      MemSameOutside s t (maySpans i s.latch.args) ∧ KeepsRest s t)

/-- R240, R241 and R63: a byte written by an agent while the block is idle changes no other byte than those that an ended
command may write which uses it and whose end is unobserved, and no register but ERR and the results of such a command
whose word CMD holds; where there is no such command, it changes that byte alone. Only a read of STATUS or a taken
interrupt ends the span of a command: its successor's start does not. That the span is kept so is log entry 15. -/
def Obligations.LateWriteStaysWithinTheHazardSpan : Prop :=
  (∀ (s : State) (addr : Word) (b : Byte) (es : List Event), s.events = .memWrite addr b :: es → s.eng = .idle →
    (∃ t, step s = .next t ∧ t.eng = .idle ∧ t.done = s.done ∧ t.cmdDropped = s.cmdDropped ∧ t.lastOp = s.lastOp ∧
      t.cmd = s.cmd ∧ t.irqEn = s.irqEn ∧ t.args = s.args ∧ t.latch = s.latch ∧ t.work = s.work ∧ t.cfg = s.cfg ∧
      t.ended = s.ended ∧ t.hazard = s.hazard ∧ t.events = es ∧ t.replies = s.replies ∧
      (t.err = s.err ∧ t.resultLen = s.resultLen ∧ t.resultAux = s.resultAux ∧ t.errInfo = s.errInfo ∨
        ∃ e ∈ s.ended, e.seen = false ∧ latchedUses e.latch addr.toNat = true ∧ s.cmd = e.latch.op.zeroExtend 64 ∧
          ∃ i, decodeOpcode e.latch.op = .ok i ∧ (t.err = .none ∨ t.err ∈ errorsOf i)) ∧
      ∀ x, (∀ e ∈ s.ended, e.seen = false → latchedUses e.latch addr.toNat = true →
          inSpans (latchedSpans e.latch) x = false) → x ≠ addr.toNat →
        memRead t.mem x = memRead s.mem x) ∧
    ((∀ e ∈ s.ended, e.seen = false → latchedUses e.latch addr.toNat = false) →
      step s = .next { s with events := es, mem := memWrite s.mem addr.toNat b })) ∧
  ∀ (s t : State), step s = .next t → ∀ e ∈ s.ended,
    e ∈ t.ended ∨ (∃ es, s.events = .irqSample :: es) ∨
      ∃ a es, s.events = .mmio a :: es ∧ a.op = .read ∧ windowOffset s.cfg a.addr = 0x20

/-- R242: while a command runs, a host read of a byte that neither it nor an unobserved earlier one may write answers
that byte, and no host read changes what the command computes. -/
def Obligations.HostReadWhileBusyIsHarmless : Prop :=
  ∀ (s : State) (i : Instr) (addr : Word) (es : List Event),
    s.events = .memRead addr :: es → s.eng = .busy → decode s.fetchBytes = .ok i →
    ∃ (t : State) (b : Byte) (d : Nat), step s = .next t ∧
      t = ((s.withEvents es).withDraws d).reply (.byte b) ∧
      (inSpans (maySpans i s.latch.args) addr.toNat = false →
        (∀ e ∈ s.ended, e.seen = false → inSpans (latchedSpans e.latch) addr.toNat = false) →
        (s.cfg.nonIdempotent.any fun w => windowHolds w addr.toNat) = false →
        b = memRead s.mem addr.toNat ∧ d = s.draws)

/-! ### The entropy stage and the round trips -/

/-- R152(a): whatever encoder is fitted, decoding its output with the input's length gives the input back. -/
def Obligations.CodecRoundTrip : Prop :=
  ∀ (c : Config) (X : Bytes), entropyDecode c (entropyEncode c X) X.length = some X

/-- R153: the decoder never returns more bytes than the declared length. R160 to R166: the default decoder gives a result
exactly where the input is a block of sequences that gives it; it fails on no token, less than two offset bytes, an
offset of 0 or past the output, and an end after a match. That the default codec is this one is general knowledge by the
spec's own word (log entry 10). -/
def Obligations.DecoderStaysWithinTheDeclaredLength : Prop :=
  ∀ (c : Config) (E : Bytes) (L : Nat),
    (∀ r : Bytes, entropyDecode c E L = some r → r.length ≤ L) ∧
    (c.codecId = 1 → ∀ r : Bytes, entropyDecode c E L = some r ↔ Lz4Block L E [] r) ∧
    (c.codecId = 1 → entropyDecode c [] L = none ∧
      ∀ (t : Byte) (ext lits : Bytes), LengthRun (t.toNat / 16) ext lits.length →
        (∀ b : Byte, entropyDecode c (t :: (ext ++ lits ++ [b])) L = none) ∧
        (∀ (o0 o1 : Byte) (rest : Bytes),
          (o0.toNat + 256 * o1.toNat = 0 ∨ lits.length < o0.toNat + 256 * o1.toNat) →
          entropyDecode c (t :: (ext ++ lits ++ o0 :: o1 :: rest)) L = none) ∧
        (∀ (o0 o1 : Byte) (ext' : Bytes) (ml : Nat), LengthRun (t.toNat % 16) ext' ml →
          entropyDecode c (t :: (ext ++ lits ++ o0 :: o1 :: ext')) L = none))

/-- R156, over the streams: what COMPRESS writes for `X`, DECOMPRESS turns back into `X`. -/
def Obligations.WrapperRoundTrip : Prop :=
  ∀ (c : Config) (X : Bytes), X.length < 2 ^ 32 →
    ∃ Y, compressBytes c X = .ok Y ∧ ∀ cap ovf, X.length ≤ cap → decompressBytes c Y cap ovf = .ok X

/-- R130: APPLY_DELTA of the stream that ENCODE_DELTA wrote, onto a buffer that holds the previous frame, gives the
current frame's RGB bytes, the buffer's alpha bytes, and changes nothing past the frame. -/
def Obligations.DeltaRoundTrip : Prop :=
  ∀ s t u : State, memWf s.mem = true → memWf u.mem = true →
    Quiet .encodeDelta s → exec .encodeDelta s = .next t → t.err = .none →
    Quiet .applyDelta u → RegionsFit .applyDelta u.latch.args → RegionsApart .applyDelta u.latch.args →
    AllAdmitted .applyDelta u →
    let a := s.latch.args
    let b := u.latch.args
    regionBytes u b.src0 = memBytes t.mem a.dst.base t.resultLen.toNat →
    a.src0.size ≤ b.dst.size → memBytes u.mem b.dst.base a.src0.size = regionBytes s a.src0 →
    ∃ v, exec .applyDelta u = .next v ∧ v.err = .none ∧ v.resultAux = t.resultAux ∧
      (∀ x, x < a.src0.size → x % 4 ≠ 3 → memRead v.mem (b.dst.base + x) = memRead s.mem (a.src1.base + x)) ∧
      (∀ x, x < a.src0.size → x % 4 = 3 → memRead v.mem (b.dst.base + x) = memRead s.mem (a.src0.base + x)) ∧
      ∀ y, (y < b.dst.base ∨ b.dst.base + a.src0.size ≤ y) → memRead v.mem y = memRead u.mem y

/-- R182: MIXED_DECOMPRESS of the stream that MIXED_COMPRESS wrote does the same, whatever encoder is fitted. -/
def Obligations.MixedRoundTrip : Prop :=
  ∀ s t u : State, memWf s.mem = true → memWf u.mem = true → u.cfg.codecId = s.cfg.codecId →
    Quiet .mixedCompress s → exec .mixedCompress s = .next t → t.err = .none →
    Quiet .mixedDecompress u → RegionsFit .mixedDecompress u.latch.args →
    RegionsApart .mixedDecompress u.latch.args → AllAdmitted .mixedDecompress u →
    let a := s.latch.args
    let b := u.latch.args
    regionBytes u b.src0 = memBytes t.mem a.dst.base t.resultLen.toNat →
    a.src0.size ≤ b.dst.size → memBytes u.mem b.dst.base a.src0.size = regionBytes s a.src0 →
    (encodeDelta (regionBytes s a.src0) (regionBytes s a.src1)).1.length ≤ b.scr.size →
    ∃ v, exec .mixedDecompress u = .next v ∧ v.err = .none ∧ v.resultAux = t.resultAux ∧
      (∀ x, x < a.src0.size → x % 4 ≠ 3 → memRead v.mem (b.dst.base + x) = memRead s.mem (a.src1.base + x)) ∧
      (∀ x, x < a.src0.size → x % 4 = 3 → memRead v.mem (b.dst.base + x) = memRead s.mem (a.src0.base + x)) ∧
      ∀ y, (y < b.dst.base ∨ b.dst.base + a.src0.size ≤ y) → b.scr.holds y = false →
        memRead v.mem y = memRead u.mem y
end

