-- ==== Sys2Proof/Laws/Memory.lean ====
section
/-! SUPPORT. Memory: a read after a write, and every operation keeps the canonical form. -/

namespace Sys2Proof.Machine

/-! ### One byte -/

theorem memRead_cons_ne {k a : Nat} (b : Byte) (m : List Host.Cell) (h : k ≠ a) :
    memRead ((k, b) :: m) a = memRead m a := by
  simp [memRead, h]

theorem memRead_cons_self (a : Nat) (b : Byte) (m : List Host.Cell) : memRead ((a, b) :: m) a = b := by
  simp [memRead]

theorem memRead_consCell_ne {a x : Nat} (b : Byte) (m : List Host.Cell) (h : a ≠ x) :
    memRead (consCell a b m) x = memRead m x := by
  unfold consCell
  split
  · rfl
  · exact memRead_cons_ne b m h

/-- A write leaves every other address alone, in any list of cells. -/
theorem memRead_memWrite_ne {a x : Nat} (m : List Host.Cell) (b : Byte) (h : x ≠ a) :
    memRead (memWrite m a b) x = memRead m x := by
  induction m with
  | nil => exact memRead_consCell_ne b [] h.symm
  | cons kc m ih =>
    obtain ⟨k, c⟩ := kc
    unfold memWrite
    split
    · exact memRead_consCell_ne b _ h.symm
    · split
      · subst_vars
        rw [memRead_consCell_ne b m h.symm, memRead_cons_ne c m h.symm]
      · by_cases hk : k = x
        · subst hk
          simp [memRead_cons_self]
        · rw [memRead_cons_ne c _ hk, memRead_cons_ne c m hk, ih]

theorem memWfFrom_cons {lo k : Nat} {b : Byte} {m : List Host.Cell} :
    memWfFrom lo ((k, b) :: m) = true ↔
      lo ≤ k ∧ k < addrSpace ∧ b ≠ background ∧ memWfFrom (k + 1) m = true := by
  simp [memWfFrom, and_assoc]

theorem memWfFrom_mono {lo lo' : Nat} {m : List Host.Cell} (h : lo' ≤ lo) (w : memWfFrom lo m = true) :
    memWfFrom lo' m = true := by
  cases m with
  | nil => rfl
  | cons kb m =>
    obtain ⟨k, b⟩ := kb
    rw [memWfFrom_cons] at w ⊢
    exact ⟨h.trans w.1, w.2⟩

/-- Nothing is listed below the bound of a canonical list. -/
theorem memRead_below {lo a : Nat} {m : List Host.Cell} (w : memWfFrom lo m = true) (h : a < lo) :
    memRead m a = background := by
  induction m generalizing lo with
  | nil => rfl
  | cons kb m ih =>
    obtain ⟨k, b⟩ := kb
    rw [memWfFrom_cons] at w
    rw [memRead_cons_ne b m (by omega)]
    exact ih w.2.2.2 (by omega)

theorem memRead_consCell_self {a : Nat} {b : Byte} {m : List Host.Cell} (w : memWfFrom (a + 1) m = true) :
    memRead (consCell a b m) a = b := by
  unfold consCell
  split
  · next h => rw [memRead_below w (by omega), h]
  · exact memRead_cons_self a b m

theorem memRead_memWrite_self_from {lo : Nat} {m : List Host.Cell} (w : memWfFrom lo m = true) (a : Nat)
    (b : Byte) : memRead (memWrite m a b) a = b := by
  induction m generalizing lo with
  | nil => exact memRead_consCell_self rfl
  | cons kc m ih =>
    obtain ⟨k, c⟩ := kc
    have h := memWfFrom_cons.mp w
    unfold memWrite
    split
    · next ha => exact memRead_consCell_self (memWfFrom_cons.mpr ⟨ha, h.2⟩)
    · split
      · next ha => subst ha; exact memRead_consCell_self h.2.2.2
      · next hne => rw [memRead_cons_ne c _ (Ne.symm hne)]; exact ih h.2.2.2

/-- A read after a write to the same address gives the value written. -/
theorem memRead_memWrite_self {m : List Host.Cell} (w : memWf m = true) (a : Nat) (b : Byte) :
    memRead (memWrite m a b) a = b :=
  memRead_memWrite_self_from w a b

theorem memRead_memWrite {m : List Host.Cell} (w : memWf m = true) (a x : Nat) (b : Byte) :
    memRead (memWrite m a b) x = if x = a then b else memRead m x := by
  split
  · next h => rw [h, memRead_memWrite_self w]
  · next h => exact memRead_memWrite_ne m b h

theorem consCell_wf {lo a : Nat} {b : Byte} {m : List Host.Cell} (hlo : lo ≤ a) (ha : a < addrSpace)
    (w : memWfFrom (a + 1) m = true) : memWfFrom lo (consCell a b m) = true := by
  unfold consCell
  split
  · exact memWfFrom_mono (by omega) w
  · next h => exact memWfFrom_cons.mpr ⟨hlo, ha, h, w⟩

theorem memWrite_wf_from {lo a : Nat} {m : List Host.Cell} (w : memWfFrom lo m = true) (hlo : lo ≤ a)
    (ha : a < addrSpace) (b : Byte) : memWfFrom lo (memWrite m a b) = true := by
  induction m generalizing lo with
  | nil => exact consCell_wf hlo ha rfl
  | cons kc m ih =>
    obtain ⟨k, c⟩ := kc
    have h := memWfFrom_cons.mp w
    unfold memWrite
    split
    · next hk => exact consCell_wf hlo ha (memWfFrom_cons.mpr ⟨hk, h.2⟩)
    · split
      · next hk => subst hk; exact consCell_wf hlo ha h.2.2.2
      · exact memWfFrom_cons.mpr ⟨h.1, h.2.1, h.2.2.1, ih h.2.2.2 (by omega)⟩

/-- A write inside memory space keeps the canonical form. -/
theorem memWrite_wf {a : Nat} {m : List Host.Cell} (w : memWf m = true) (ha : a < addrSpace) (b : Byte) :
    memWf (memWrite m a b) = true :=
  memWrite_wf_from w (Nat.zero_le a) ha b

/-! ### Sequences of bytes -/

@[simp] theorem memBytes_length (m : List Host.Cell) (a n : Nat) : (memBytes m a n).length = n := by
  induction n generalizing a with
  | zero => rfl
  | succ n ih => simp [memBytes, ih]

theorem memBytes_getD {m : List Host.Cell} {a n j : Nat} (h : j < n) (d : Byte) :
    (memBytes m a n).getD j d = memRead m (a + j) := by
  induction n generalizing a j with
  | zero => omega
  | succ n ih =>
    cases j with
    | zero => simp [memBytes]
    | succ j =>
      have h' := ih (a := a + 1) (j := j) (by omega)
      simp only [memBytes, List.getD_cons_succ, h']
      congr 1
      omega

/-- Two memories that agree on a range hold the same bytes there. -/
theorem memBytes_congr {m m' : List Host.Cell} {a n : Nat}
    (h : ∀ x, a ≤ x → x < a + n → memRead m' x = memRead m x) : memBytes m' a n = memBytes m a n := by
  induction n generalizing a with
  | zero => rfl
  | succ n ih =>
    simp only [memBytes]
    rw [h a (by omega) (by omega), ih fun x h1 h2 => h x (by omega) (by omega)]

theorem memRead_memWriteBytes_ne {a x : Nat} (m : List Host.Cell) (bs : Bytes)
    (h : x < a ∨ a + bs.length ≤ x) : memRead (memWriteBytes m a bs) x = memRead m x := by
  induction bs generalizing m a with
  | nil => rfl
  | cons b bs ih =>
    simp only [List.length_cons] at h
    simp only [memWriteBytes]
    rw [ih _ (by omega), memRead_memWrite_ne m b (by omega)]

theorem memWriteBytes_wf {a : Nat} {m : List Host.Cell} (w : memWf m = true) (bs : Bytes)
    (ha : a + bs.length ≤ addrSpace) : memWf (memWriteBytes m a bs) = true := by
  induction bs generalizing m a with
  | nil => exact w
  | cons b bs ih =>
    simp only [List.length_cons] at ha
    exact ih (memWrite_wf w (by omega) b) (by omega)

theorem memRead_memWriteBytes_at {a j : Nat} {m : List Host.Cell} (w : memWf m = true) {bs : Bytes}
    (ha : a + bs.length ≤ addrSpace) (h : j < bs.length) (d : Byte) :
    memRead (memWriteBytes m a bs) (a + j) = bs.getD j d := by
  induction bs generalizing m a j with
  | nil => simp at h
  | cons b bs ih =>
    simp only [List.length_cons] at ha h
    simp only [memWriteBytes]
    cases j with
    | zero =>
      rw [memRead_memWriteBytes_ne _ _ (by omega)]
      simp [memRead_memWrite_self w]
    | succ j =>
      have hw : memWf (memWrite m a b) = true := memWrite_wf w (by omega) b
      have h' := ih (a := a + 1) (j := j) hw (by omega) (by omega)
      rw [List.getD_cons_succ, ← h', show a + (j + 1) = a + 1 + j by omega]

/-- A range that reads as a sequence holds that sequence. -/
theorem memBytes_eq_of_reads {m : List Host.Cell} {a : Nat} {bs : Bytes}
    (h : ∀ j, j < bs.length → memRead m (a + j) = bs.getD j 0) : memBytes m a bs.length = bs := by
  induction bs generalizing a with
  | nil => rfl
  | cons b bs ih =>
    have h0 := h 0 (by simp)
    simp only [Nat.add_zero, List.getD_cons_zero] at h0
    simp only [List.length_cons, memBytes, h0]
    rw [ih fun j hj => by
      have := h (j + 1) (by simpa using hj)
      rwa [List.getD_cons_succ, show a + (j + 1) = a + 1 + j by omega] at this]

end Sys2Proof.Machine
end

