-- ==== Sys2Proof/Laws/State.lean ====
section
/-! SUPPORT. What each update of the state leaves in each field: one lemma per field per update, true by definition. -/

namespace Sys2Proof.Machine

variable (s : State)

/-! ### The number of draws -/

@[simp] theorem State.withDraws_cfg (d : Nat) : (s.withDraws d).cfg = s.cfg := rfl
@[simp] theorem State.withDraws_irqEn (d : Nat) : (s.withDraws d).irqEn = s.irqEn := rfl
@[simp] theorem State.withDraws_cmd (d : Nat) : (s.withDraws d).cmd = s.cmd := rfl
@[simp] theorem State.withDraws_eng (d : Nat) : (s.withDraws d).eng = s.eng := rfl
@[simp] theorem State.withDraws_done (d : Nat) : (s.withDraws d).done = s.done := rfl
@[simp] theorem State.withDraws_cmdDropped (d : Nat) : (s.withDraws d).cmdDropped = s.cmdDropped := rfl
@[simp] theorem State.withDraws_err (d : Nat) : (s.withDraws d).err = s.err := rfl
@[simp] theorem State.withDraws_lastOp (d : Nat) : (s.withDraws d).lastOp = s.lastOp := rfl
@[simp] theorem State.withDraws_args (d : Nat) : (s.withDraws d).args = s.args := rfl
@[simp] theorem State.withDraws_resultLen (d : Nat) : (s.withDraws d).resultLen = s.resultLen := rfl
@[simp] theorem State.withDraws_resultAux (d : Nat) : (s.withDraws d).resultAux = s.resultAux := rfl
@[simp] theorem State.withDraws_errInfo (d : Nat) : (s.withDraws d).errInfo = s.errInfo := rfl
@[simp] theorem State.withDraws_latch (d : Nat) : (s.withDraws d).latch = s.latch := rfl
@[simp] theorem State.withDraws_work (d : Nat) : (s.withDraws d).work = s.work := rfl
@[simp] theorem State.withDraws_mem (d : Nat) : (s.withDraws d).mem = s.mem := rfl
@[simp] theorem State.withDraws_hazard (d : Nat) : (s.withDraws d).hazard = s.hazard := rfl
@[simp] theorem State.withDraws_ended (d : Nat) : (s.withDraws d).ended = s.ended := rfl
@[simp] theorem State.withDraws_draws (d : Nat) : (s.withDraws d).draws = d := rfl
@[simp] theorem State.withDraws_events (d : Nat) : (s.withDraws d).events = s.events := rfl
@[simp] theorem State.withDraws_replies (d : Nat) : (s.withDraws d).replies = s.replies := rfl

/-! ### What the other agents do next -/

@[simp] theorem State.withEvents_cfg (es : List Event) : (s.withEvents es).cfg = s.cfg := rfl
@[simp] theorem State.withEvents_irqEn (es : List Event) : (s.withEvents es).irqEn = s.irqEn := rfl
@[simp] theorem State.withEvents_cmd (es : List Event) : (s.withEvents es).cmd = s.cmd := rfl
@[simp] theorem State.withEvents_eng (es : List Event) : (s.withEvents es).eng = s.eng := rfl
@[simp] theorem State.withEvents_done (es : List Event) : (s.withEvents es).done = s.done := rfl
@[simp] theorem State.withEvents_cmdDropped (es : List Event) : (s.withEvents es).cmdDropped = s.cmdDropped := rfl
@[simp] theorem State.withEvents_err (es : List Event) : (s.withEvents es).err = s.err := rfl
@[simp] theorem State.withEvents_lastOp (es : List Event) : (s.withEvents es).lastOp = s.lastOp := rfl
@[simp] theorem State.withEvents_args (es : List Event) : (s.withEvents es).args = s.args := rfl
@[simp] theorem State.withEvents_resultLen (es : List Event) : (s.withEvents es).resultLen = s.resultLen := rfl
@[simp] theorem State.withEvents_resultAux (es : List Event) : (s.withEvents es).resultAux = s.resultAux := rfl
@[simp] theorem State.withEvents_errInfo (es : List Event) : (s.withEvents es).errInfo = s.errInfo := rfl
@[simp] theorem State.withEvents_latch (es : List Event) : (s.withEvents es).latch = s.latch := rfl
@[simp] theorem State.withEvents_work (es : List Event) : (s.withEvents es).work = s.work := rfl
@[simp] theorem State.withEvents_mem (es : List Event) : (s.withEvents es).mem = s.mem := rfl
@[simp] theorem State.withEvents_hazard (es : List Event) : (s.withEvents es).hazard = s.hazard := rfl
@[simp] theorem State.withEvents_ended (es : List Event) : (s.withEvents es).ended = s.ended := rfl
@[simp] theorem State.withEvents_draws (es : List Event) : (s.withEvents es).draws = s.draws := rfl
@[simp] theorem State.withEvents_events (es : List Event) : (s.withEvents es).events = es := rfl
@[simp] theorem State.withEvents_replies (es : List Event) : (s.withEvents es).replies = s.replies := rfl

/-! ### What an evaluation left at the port -/

@[simp] theorem State.afterPort_cfg (p : Port) : (s.afterPort p).cfg = s.cfg := rfl
@[simp] theorem State.afterPort_irqEn (p : Port) : (s.afterPort p).irqEn = s.irqEn := rfl
@[simp] theorem State.afterPort_cmd (p : Port) : (s.afterPort p).cmd = s.cmd := rfl
@[simp] theorem State.afterPort_eng (p : Port) : (s.afterPort p).eng = s.eng := rfl
@[simp] theorem State.afterPort_done (p : Port) : (s.afterPort p).done = s.done := rfl
@[simp] theorem State.afterPort_cmdDropped (p : Port) : (s.afterPort p).cmdDropped = s.cmdDropped := rfl
@[simp] theorem State.afterPort_err (p : Port) : (s.afterPort p).err = s.err := rfl
@[simp] theorem State.afterPort_lastOp (p : Port) : (s.afterPort p).lastOp = s.lastOp := rfl
@[simp] theorem State.afterPort_args (p : Port) : (s.afterPort p).args = s.args := rfl
@[simp] theorem State.afterPort_resultLen (p : Port) : (s.afterPort p).resultLen = s.resultLen := rfl
@[simp] theorem State.afterPort_resultAux (p : Port) : (s.afterPort p).resultAux = s.resultAux := rfl
@[simp] theorem State.afterPort_errInfo (p : Port) : (s.afterPort p).errInfo = s.errInfo := rfl
@[simp] theorem State.afterPort_latch (p : Port) : (s.afterPort p).latch = s.latch := rfl
@[simp] theorem State.afterPort_work (p : Port) : (s.afterPort p).work = s.work := rfl
@[simp] theorem State.afterPort_mem (p : Port) : (s.afterPort p).mem = p.mem := rfl
@[simp] theorem State.afterPort_hazard (p : Port) : (s.afterPort p).hazard = s.hazard := rfl
@[simp] theorem State.afterPort_ended (p : Port) : (s.afterPort p).ended = s.ended := rfl
@[simp] theorem State.afterPort_draws (p : Port) : (s.afterPort p).draws = p.draws := rfl
@[simp] theorem State.afterPort_events (p : Port) : (s.afterPort p).events = s.events := rfl
@[simp] theorem State.afterPort_replies (p : Port) : (s.afterPort p).replies = s.replies := rfl

/-! ### Any value in some bytes of memory -/

@[simp] theorem State.scramble_cfg (ps : List Span) : (s.scramble ps).cfg = s.cfg := rfl
@[simp] theorem State.scramble_irqEn (ps : List Span) : (s.scramble ps).irqEn = s.irqEn := rfl
@[simp] theorem State.scramble_cmd (ps : List Span) : (s.scramble ps).cmd = s.cmd := rfl
@[simp] theorem State.scramble_eng (ps : List Span) : (s.scramble ps).eng = s.eng := rfl
@[simp] theorem State.scramble_done (ps : List Span) : (s.scramble ps).done = s.done := rfl
@[simp] theorem State.scramble_cmdDropped (ps : List Span) : (s.scramble ps).cmdDropped = s.cmdDropped := rfl
@[simp] theorem State.scramble_err (ps : List Span) : (s.scramble ps).err = s.err := rfl
@[simp] theorem State.scramble_lastOp (ps : List Span) : (s.scramble ps).lastOp = s.lastOp := rfl
@[simp] theorem State.scramble_args (ps : List Span) : (s.scramble ps).args = s.args := rfl
@[simp] theorem State.scramble_resultLen (ps : List Span) : (s.scramble ps).resultLen = s.resultLen := rfl
@[simp] theorem State.scramble_resultAux (ps : List Span) : (s.scramble ps).resultAux = s.resultAux := rfl
@[simp] theorem State.scramble_errInfo (ps : List Span) : (s.scramble ps).errInfo = s.errInfo := rfl
@[simp] theorem State.scramble_latch (ps : List Span) : (s.scramble ps).latch = s.latch := rfl
@[simp] theorem State.scramble_work (ps : List Span) : (s.scramble ps).work = s.work := rfl
@[simp] theorem State.scramble_mem (ps : List Span) : (s.scramble ps).mem = (drawSpans ps s.mem s.draws).1 := rfl
@[simp] theorem State.scramble_hazard (ps : List Span) : (s.scramble ps).hazard = s.hazard := rfl
@[simp] theorem State.scramble_ended (ps : List Span) : (s.scramble ps).ended = s.ended := rfl
@[simp] theorem State.scramble_draws (ps : List Span) : (s.scramble ps).draws = (drawSpans ps s.mem s.draws).2 := rfl
@[simp] theorem State.scramble_events (ps : List Span) : (s.scramble ps).events = s.events := rfl
@[simp] theorem State.scramble_replies (ps : List Span) : (s.scramble ps).replies = s.replies := rfl

/-! ### The working state between commands -/

@[simp] theorem State.forgetWork_cfg : s.forgetWork.cfg = s.cfg := rfl
@[simp] theorem State.forgetWork_irqEn : s.forgetWork.irqEn = s.irqEn := rfl
@[simp] theorem State.forgetWork_cmd : s.forgetWork.cmd = s.cmd := rfl
@[simp] theorem State.forgetWork_eng : s.forgetWork.eng = s.eng := rfl
@[simp] theorem State.forgetWork_done : s.forgetWork.done = s.done := rfl
@[simp] theorem State.forgetWork_cmdDropped : s.forgetWork.cmdDropped = s.cmdDropped := rfl
@[simp] theorem State.forgetWork_err : s.forgetWork.err = s.err := rfl
@[simp] theorem State.forgetWork_lastOp : s.forgetWork.lastOp = s.lastOp := rfl
@[simp] theorem State.forgetWork_args : s.forgetWork.args = s.args := rfl
@[simp] theorem State.forgetWork_resultLen : s.forgetWork.resultLen = s.resultLen := rfl
@[simp] theorem State.forgetWork_resultAux : s.forgetWork.resultAux = s.resultAux := rfl
@[simp] theorem State.forgetWork_errInfo : s.forgetWork.errInfo = s.errInfo := rfl
@[simp] theorem State.forgetWork_latch : s.forgetWork.latch = s.latch := rfl
@[simp] theorem State.forgetWork_work : s.forgetWork.work = freeWork s.draws := rfl
@[simp] theorem State.forgetWork_mem : s.forgetWork.mem = s.mem := rfl
@[simp] theorem State.forgetWork_hazard : s.forgetWork.hazard = s.hazard := rfl
@[simp] theorem State.forgetWork_ended : s.forgetWork.ended = s.ended := rfl
@[simp] theorem State.forgetWork_draws : s.forgetWork.draws = s.draws + workDraws := rfl
@[simp] theorem State.forgetWork_events : s.forgetWork.events = s.events := rfl
@[simp] theorem State.forgetWork_replies : s.forgetWork.replies = s.replies := rfl

/-! ### The update that ends a command (40_command_interface.md R105) -/

@[simp] theorem State.endCommand_cfg (e : ErrCode) (len aux info : Word) : (s.endCommand e len aux info).cfg = s.cfg := rfl
@[simp] theorem State.endCommand_irqEn (e : ErrCode) (len aux info : Word) : (s.endCommand e len aux info).irqEn = s.irqEn := rfl
@[simp] theorem State.endCommand_cmd (e : ErrCode) (len aux info : Word) : (s.endCommand e len aux info).cmd = s.cmd := rfl
@[simp] theorem State.endCommand_eng (e : ErrCode) (len aux info : Word) : (s.endCommand e len aux info).eng = .idle := rfl
@[simp] theorem State.endCommand_done (e : ErrCode) (len aux info : Word) : (s.endCommand e len aux info).done = true := rfl
@[simp] theorem State.endCommand_cmdDropped (e : ErrCode) (len aux info : Word) : (s.endCommand e len aux info).cmdDropped = s.cmdDropped := rfl
@[simp] theorem State.endCommand_err (e : ErrCode) (len aux info : Word) : (s.endCommand e len aux info).err = e := rfl
@[simp] theorem State.endCommand_lastOp (e : ErrCode) (len aux info : Word) : (s.endCommand e len aux info).lastOp = s.lastOp := rfl
@[simp] theorem State.endCommand_args (e : ErrCode) (len aux info : Word) : (s.endCommand e len aux info).args = s.args := rfl
@[simp] theorem State.endCommand_resultLen (e : ErrCode) (len aux info : Word) : (s.endCommand e len aux info).resultLen = len := rfl
@[simp] theorem State.endCommand_resultAux (e : ErrCode) (len aux info : Word) : (s.endCommand e len aux info).resultAux = aux := rfl
@[simp] theorem State.endCommand_errInfo (e : ErrCode) (len aux info : Word) : (s.endCommand e len aux info).errInfo = info := rfl
@[simp] theorem State.endCommand_latch (e : ErrCode) (len aux info : Word) : (s.endCommand e len aux info).latch = s.latch := rfl
@[simp] theorem State.endCommand_work (e : ErrCode) (len aux info : Word) : (s.endCommand e len aux info).work = freeWork s.draws := rfl
@[simp] theorem State.endCommand_mem (e : ErrCode) (len aux info : Word) : (s.endCommand e len aux info).mem = s.mem := rfl
@[simp] theorem State.endCommand_hazard (e : ErrCode) (len aux info : Word) : (s.endCommand e len aux info).hazard = false := rfl
@[simp] theorem State.endCommand_ended (e : ErrCode) (len aux info : Word) : (s.endCommand e len aux info).ended = s.ended ++ [⟨s.latch, false⟩] := rfl
@[simp] theorem State.endCommand_draws (e : ErrCode) (len aux info : Word) : (s.endCommand e len aux info).draws = s.draws + workDraws := rfl
@[simp] theorem State.endCommand_events (e : ErrCode) (len aux info : Word) : (s.endCommand e len aux info).events = s.events := rfl
@[simp] theorem State.endCommand_replies (e : ErrCode) (len aux info : Word) : (s.endCommand e len aux info).replies = s.replies := rfl

/-! ### Success (40_command_interface.md R98) -/

@[simp] theorem State.finish_cfg (len aux : Nat) : (s.finish len aux).cfg = s.cfg := rfl
@[simp] theorem State.finish_irqEn (len aux : Nat) : (s.finish len aux).irqEn = s.irqEn := rfl
@[simp] theorem State.finish_cmd (len aux : Nat) : (s.finish len aux).cmd = s.cmd := rfl
@[simp] theorem State.finish_eng (len aux : Nat) : (s.finish len aux).eng = .idle := rfl
@[simp] theorem State.finish_done (len aux : Nat) : (s.finish len aux).done = true := rfl
@[simp] theorem State.finish_cmdDropped (len aux : Nat) : (s.finish len aux).cmdDropped = s.cmdDropped := rfl
@[simp] theorem State.finish_err (len aux : Nat) : (s.finish len aux).err = .none := rfl
@[simp] theorem State.finish_lastOp (len aux : Nat) : (s.finish len aux).lastOp = s.lastOp := rfl
@[simp] theorem State.finish_args (len aux : Nat) : (s.finish len aux).args = s.args := rfl
@[simp] theorem State.finish_resultLen (len aux : Nat) : (s.finish len aux).resultLen = BitVec.ofNat 64 len := rfl
@[simp] theorem State.finish_resultAux (len aux : Nat) : (s.finish len aux).resultAux = BitVec.ofNat 64 aux := rfl
@[simp] theorem State.finish_errInfo (len aux : Nat) : (s.finish len aux).errInfo = 0 := rfl
@[simp] theorem State.finish_latch (len aux : Nat) : (s.finish len aux).latch = s.latch := rfl
@[simp] theorem State.finish_work (len aux : Nat) : (s.finish len aux).work = freeWork s.draws := rfl
@[simp] theorem State.finish_mem (len aux : Nat) : (s.finish len aux).mem = s.mem := rfl
@[simp] theorem State.finish_hazard (len aux : Nat) : (s.finish len aux).hazard = false := rfl
@[simp] theorem State.finish_ended (len aux : Nat) : (s.finish len aux).ended = s.ended ++ [⟨s.latch, false⟩] := rfl
@[simp] theorem State.finish_draws (len aux : Nat) : (s.finish len aux).draws = s.draws + workDraws := rfl
@[simp] theorem State.finish_events (len aux : Nat) : (s.finish len aux).events = s.events := rfl
@[simp] theorem State.finish_replies (len aux : Nat) : (s.finish len aux).replies = s.replies := rfl

/-! ### An error (60_exceptions.md R203) -/

@[simp] theorem State.raiseErr_cfg (r : Raise) : (s.raiseErr r).cfg = s.cfg := rfl
@[simp] theorem State.raiseErr_irqEn (r : Raise) : (s.raiseErr r).irqEn = s.irqEn := rfl
@[simp] theorem State.raiseErr_cmd (r : Raise) : (s.raiseErr r).cmd = s.cmd := rfl
@[simp] theorem State.raiseErr_eng (r : Raise) : (s.raiseErr r).eng = .idle := rfl
@[simp] theorem State.raiseErr_done (r : Raise) : (s.raiseErr r).done = true := rfl
@[simp] theorem State.raiseErr_cmdDropped (r : Raise) : (s.raiseErr r).cmdDropped = s.cmdDropped := rfl
@[simp] theorem State.raiseErr_err (r : Raise) : (s.raiseErr r).err = r.code := rfl
@[simp] theorem State.raiseErr_lastOp (r : Raise) : (s.raiseErr r).lastOp = s.lastOp := rfl
@[simp] theorem State.raiseErr_args (r : Raise) : (s.raiseErr r).args = s.args := rfl
@[simp] theorem State.raiseErr_resultLen (r : Raise) : (s.raiseErr r).resultLen = 0 := rfl
@[simp] theorem State.raiseErr_resultAux (r : Raise) : (s.raiseErr r).resultAux = 0 := rfl
@[simp] theorem State.raiseErr_errInfo (r : Raise) : (s.raiseErr r).errInfo = infoWord r.info s.draws := rfl
@[simp] theorem State.raiseErr_latch (r : Raise) : (s.raiseErr r).latch = s.latch := rfl
@[simp] theorem State.raiseErr_work (r : Raise) : (s.raiseErr r).work = freeWork (s.draws + 1) := rfl
@[simp] theorem State.raiseErr_mem (r : Raise) : (s.raiseErr r).mem = s.mem := rfl
@[simp] theorem State.raiseErr_hazard (r : Raise) : (s.raiseErr r).hazard = false := rfl
@[simp] theorem State.raiseErr_ended (r : Raise) : (s.raiseErr r).ended = s.ended ++ [⟨s.latch, false⟩] := rfl
@[simp] theorem State.raiseErr_draws (r : Raise) : (s.raiseErr r).draws = s.draws + 1 + workDraws := rfl
@[simp] theorem State.raiseErr_events (r : Raise) : (s.raiseErr r).events = s.events := rfl
@[simp] theorem State.raiseErr_replies (r : Raise) : (s.raiseErr r).replies = s.replies := rfl

/-! ### A write to STATUS (10_state.md R27) -/

@[simp] theorem State.statusWrite_cfg (w : Word) : (s.statusWrite w).cfg = s.cfg := rfl
@[simp] theorem State.statusWrite_irqEn (w : Word) : (s.statusWrite w).irqEn = s.irqEn := rfl
@[simp] theorem State.statusWrite_cmd (w : Word) : (s.statusWrite w).cmd = s.cmd := rfl
@[simp] theorem State.statusWrite_eng (w : Word) : (s.statusWrite w).eng = s.eng := rfl
@[simp] theorem State.statusWrite_done (w : Word) : (s.statusWrite w).done = (s.done && !w.getLsbD 1) := rfl
@[simp] theorem State.statusWrite_cmdDropped (w : Word) : (s.statusWrite w).cmdDropped = (s.cmdDropped && !w.getLsbD 2) := rfl
@[simp] theorem State.statusWrite_err (w : Word) : (s.statusWrite w).err = s.err := rfl
@[simp] theorem State.statusWrite_lastOp (w : Word) : (s.statusWrite w).lastOp = s.lastOp := rfl
@[simp] theorem State.statusWrite_args (w : Word) : (s.statusWrite w).args = s.args := rfl
@[simp] theorem State.statusWrite_resultLen (w : Word) : (s.statusWrite w).resultLen = s.resultLen := rfl
@[simp] theorem State.statusWrite_resultAux (w : Word) : (s.statusWrite w).resultAux = s.resultAux := rfl
@[simp] theorem State.statusWrite_errInfo (w : Word) : (s.statusWrite w).errInfo = s.errInfo := rfl
@[simp] theorem State.statusWrite_latch (w : Word) : (s.statusWrite w).latch = s.latch := rfl
@[simp] theorem State.statusWrite_work (w : Word) : (s.statusWrite w).work = s.work := rfl
@[simp] theorem State.statusWrite_mem (w : Word) : (s.statusWrite w).mem = s.mem := rfl
@[simp] theorem State.statusWrite_hazard (w : Word) : (s.statusWrite w).hazard = s.hazard := rfl
@[simp] theorem State.statusWrite_ended (w : Word) : (s.statusWrite w).ended = s.ended := rfl
@[simp] theorem State.statusWrite_draws (w : Word) : (s.statusWrite w).draws = s.draws := rfl
@[simp] theorem State.statusWrite_events (w : Word) : (s.statusWrite w).events = s.events := rfl
@[simp] theorem State.statusWrite_replies (w : Word) : (s.statusWrite w).replies = s.replies := rfl

/-! ### A dropped command write (40_command_interface.md R92) -/

@[simp] theorem State.dropCommand_cfg : s.dropCommand.cfg = s.cfg := rfl
@[simp] theorem State.dropCommand_irqEn : s.dropCommand.irqEn = s.irqEn := rfl
@[simp] theorem State.dropCommand_cmd : s.dropCommand.cmd = s.cmd := rfl
@[simp] theorem State.dropCommand_eng : s.dropCommand.eng = s.eng := rfl
@[simp] theorem State.dropCommand_done : s.dropCommand.done = s.done := rfl
@[simp] theorem State.dropCommand_cmdDropped : s.dropCommand.cmdDropped = true := rfl
@[simp] theorem State.dropCommand_err : s.dropCommand.err = s.err := rfl
@[simp] theorem State.dropCommand_lastOp : s.dropCommand.lastOp = s.lastOp := rfl
@[simp] theorem State.dropCommand_args : s.dropCommand.args = s.args := rfl
@[simp] theorem State.dropCommand_resultLen : s.dropCommand.resultLen = s.resultLen := rfl
@[simp] theorem State.dropCommand_resultAux : s.dropCommand.resultAux = s.resultAux := rfl
@[simp] theorem State.dropCommand_errInfo : s.dropCommand.errInfo = s.errInfo := rfl
@[simp] theorem State.dropCommand_latch : s.dropCommand.latch = s.latch := rfl
@[simp] theorem State.dropCommand_work : s.dropCommand.work = s.work := rfl
@[simp] theorem State.dropCommand_mem : s.dropCommand.mem = s.mem := rfl
@[simp] theorem State.dropCommand_hazard : s.dropCommand.hazard = s.hazard := rfl
@[simp] theorem State.dropCommand_ended : s.dropCommand.ended = s.ended := rfl
@[simp] theorem State.dropCommand_draws : s.dropCommand.draws = s.draws := rfl
@[simp] theorem State.dropCommand_events : s.dropCommand.events = s.events := rfl
@[simp] theorem State.dropCommand_replies : s.dropCommand.replies = s.replies := rfl

/-! ### A rejected command write (40_command_interface.md R93) -/

@[simp] theorem State.rejectCommand_cfg (w : Word) : (s.rejectCommand w).cfg = s.cfg := rfl
@[simp] theorem State.rejectCommand_irqEn (w : Word) : (s.rejectCommand w).irqEn = s.irqEn := rfl
@[simp] theorem State.rejectCommand_cmd (w : Word) : (s.rejectCommand w).cmd = w := rfl
@[simp] theorem State.rejectCommand_eng (w : Word) : (s.rejectCommand w).eng = s.eng := rfl
@[simp] theorem State.rejectCommand_done (w : Word) : (s.rejectCommand w).done = true := rfl
@[simp] theorem State.rejectCommand_cmdDropped (w : Word) : (s.rejectCommand w).cmdDropped = s.cmdDropped := rfl
@[simp] theorem State.rejectCommand_err (w : Word) : (s.rejectCommand w).err = .badCmd := rfl
@[simp] theorem State.rejectCommand_lastOp (w : Word) : (s.rejectCommand w).lastOp = w.extractLsb' 0 8 := rfl
@[simp] theorem State.rejectCommand_args (w : Word) : (s.rejectCommand w).args = s.args := rfl
@[simp] theorem State.rejectCommand_resultLen (w : Word) : (s.rejectCommand w).resultLen = 0 := rfl
@[simp] theorem State.rejectCommand_resultAux (w : Word) : (s.rejectCommand w).resultAux = 0 := rfl
@[simp] theorem State.rejectCommand_errInfo (w : Word) : (s.rejectCommand w).errInfo = w := rfl
@[simp] theorem State.rejectCommand_latch (w : Word) : (s.rejectCommand w).latch = s.latch := rfl
@[simp] theorem State.rejectCommand_work (w : Word) : (s.rejectCommand w).work = s.work := rfl
@[simp] theorem State.rejectCommand_mem (w : Word) : (s.rejectCommand w).mem = s.mem := rfl
@[simp] theorem State.rejectCommand_hazard (w : Word) : (s.rejectCommand w).hazard = s.hazard := rfl
@[simp] theorem State.rejectCommand_ended (w : Word) : (s.rejectCommand w).ended = s.ended := rfl
@[simp] theorem State.rejectCommand_draws (w : Word) : (s.rejectCommand w).draws = s.draws := rfl
@[simp] theorem State.rejectCommand_events (w : Word) : (s.rejectCommand w).events = s.events := rfl
@[simp] theorem State.rejectCommand_replies (w : Word) : (s.rejectCommand w).replies = s.replies := rfl

/-! ### An accepted command write (40_command_interface.md R94) -/

@[simp] theorem State.startCommand_cfg (w : Word) : (s.startCommand w).cfg = s.cfg := rfl
@[simp] theorem State.startCommand_irqEn (w : Word) : (s.startCommand w).irqEn = s.irqEn := rfl
@[simp] theorem State.startCommand_cmd (w : Word) : (s.startCommand w).cmd = w := rfl
@[simp] theorem State.startCommand_eng (w : Word) : (s.startCommand w).eng = .busy := rfl
@[simp] theorem State.startCommand_done (w : Word) : (s.startCommand w).done = false := rfl
@[simp] theorem State.startCommand_cmdDropped (w : Word) : (s.startCommand w).cmdDropped = s.cmdDropped := rfl
@[simp] theorem State.startCommand_err (w : Word) : (s.startCommand w).err = .none := rfl
@[simp] theorem State.startCommand_lastOp (w : Word) : (s.startCommand w).lastOp = w.extractLsb' 0 8 := rfl
@[simp] theorem State.startCommand_args (w : Word) : (s.startCommand w).args = s.args := rfl
@[simp] theorem State.startCommand_resultLen (w : Word) : (s.startCommand w).resultLen = 0 := rfl
@[simp] theorem State.startCommand_resultAux (w : Word) : (s.startCommand w).resultAux = 0 := rfl
@[simp] theorem State.startCommand_errInfo (w : Word) : (s.startCommand w).errInfo = 0 := rfl
@[simp] theorem State.startCommand_latch (w : Word) : (s.startCommand w).latch = latchOf (w.extractLsb' 0 8) s.args := rfl
@[simp] theorem State.startCommand_work (w : Word) : (s.startCommand w).work = s.work := rfl
@[simp] theorem State.startCommand_mem (w : Word) : (s.startCommand w).mem = s.mem := rfl
@[simp] theorem State.startCommand_hazard (w : Word) : (s.startCommand w).hazard = false := rfl
@[simp] theorem State.startCommand_ended (w : Word) : (s.startCommand w).ended = s.ended := rfl
@[simp] theorem State.startCommand_draws (w : Word) : (s.startCommand w).draws = s.draws := rfl
@[simp] theorem State.startCommand_events (w : Word) : (s.startCommand w).events = s.events := rfl
@[simp] theorem State.startCommand_replies (w : Word) : (s.startCommand w).replies = s.replies := rfl

/-! ### Any outcome in ERR and the results (70_reset_and_hazards.md R241) -/

@[simp] theorem State.redrawResults_cfg (i : Instr) : (s.redrawResults i).cfg = s.cfg := rfl
@[simp] theorem State.redrawResults_irqEn (i : Instr) : (s.redrawResults i).irqEn = s.irqEn := rfl
@[simp] theorem State.redrawResults_cmd (i : Instr) : (s.redrawResults i).cmd = s.cmd := rfl
@[simp] theorem State.redrawResults_eng (i : Instr) : (s.redrawResults i).eng = s.eng := rfl
@[simp] theorem State.redrawResults_done (i : Instr) : (s.redrawResults i).done = s.done := rfl
@[simp] theorem State.redrawResults_cmdDropped (i : Instr) : (s.redrawResults i).cmdDropped = s.cmdDropped := rfl
@[simp] theorem State.redrawResults_err (i : Instr) : (s.redrawResults i).err = anyOutcome i s.draws := rfl
@[simp] theorem State.redrawResults_lastOp (i : Instr) : (s.redrawResults i).lastOp = s.lastOp := rfl
@[simp] theorem State.redrawResults_args (i : Instr) : (s.redrawResults i).args = s.args := rfl
@[simp] theorem State.redrawResults_resultLen (i : Instr) : (s.redrawResults i).resultLen = Config.freeWord (s.draws + 1) := rfl
@[simp] theorem State.redrawResults_resultAux (i : Instr) : (s.redrawResults i).resultAux = Config.freeWord (s.draws + 2) := rfl
@[simp] theorem State.redrawResults_errInfo (i : Instr) : (s.redrawResults i).errInfo = Config.freeWord (s.draws + 3) := rfl
@[simp] theorem State.redrawResults_latch (i : Instr) : (s.redrawResults i).latch = s.latch := rfl
@[simp] theorem State.redrawResults_work (i : Instr) : (s.redrawResults i).work = s.work := rfl
@[simp] theorem State.redrawResults_mem (i : Instr) : (s.redrawResults i).mem = s.mem := rfl
@[simp] theorem State.redrawResults_hazard (i : Instr) : (s.redrawResults i).hazard = s.hazard := rfl
@[simp] theorem State.redrawResults_ended (i : Instr) : (s.redrawResults i).ended = s.ended := rfl
@[simp] theorem State.redrawResults_draws (i : Instr) : (s.redrawResults i).draws = s.draws + 4 := rfl
@[simp] theorem State.redrawResults_events (i : Instr) : (s.redrawResults i).events = s.events := rfl
@[simp] theorem State.redrawResults_replies (i : Instr) : (s.redrawResults i).replies = s.replies := rfl

/-! ### An answer to the host -/

@[simp] theorem State.reply_cfg (r : Reply) : (s.reply r).cfg = s.cfg := rfl
@[simp] theorem State.reply_irqEn (r : Reply) : (s.reply r).irqEn = s.irqEn := rfl
@[simp] theorem State.reply_cmd (r : Reply) : (s.reply r).cmd = s.cmd := rfl
@[simp] theorem State.reply_eng (r : Reply) : (s.reply r).eng = s.eng := rfl
@[simp] theorem State.reply_done (r : Reply) : (s.reply r).done = s.done := rfl
@[simp] theorem State.reply_cmdDropped (r : Reply) : (s.reply r).cmdDropped = s.cmdDropped := rfl
@[simp] theorem State.reply_err (r : Reply) : (s.reply r).err = s.err := rfl
@[simp] theorem State.reply_lastOp (r : Reply) : (s.reply r).lastOp = s.lastOp := rfl
@[simp] theorem State.reply_args (r : Reply) : (s.reply r).args = s.args := rfl
@[simp] theorem State.reply_resultLen (r : Reply) : (s.reply r).resultLen = s.resultLen := rfl
@[simp] theorem State.reply_resultAux (r : Reply) : (s.reply r).resultAux = s.resultAux := rfl
@[simp] theorem State.reply_errInfo (r : Reply) : (s.reply r).errInfo = s.errInfo := rfl
@[simp] theorem State.reply_latch (r : Reply) : (s.reply r).latch = s.latch := rfl
@[simp] theorem State.reply_work (r : Reply) : (s.reply r).work = s.work := rfl
@[simp] theorem State.reply_mem (r : Reply) : (s.reply r).mem = s.mem := rfl
@[simp] theorem State.reply_hazard (r : Reply) : (s.reply r).hazard = s.hazard := rfl
@[simp] theorem State.reply_ended (r : Reply) : (s.reply r).ended = s.ended := rfl
@[simp] theorem State.reply_draws (r : Reply) : (s.reply r).draws = s.draws := rfl
@[simp] theorem State.reply_events (r : Reply) : (s.reply r).events = s.events := rfl
@[simp] theorem State.reply_replies (r : Reply) : (s.reply r).replies = s.replies ++ [r] := rfl

/-! ### The registers after reset (70_reset_and_hazards.md R230) -/

@[simp] theorem State.resetRegisters_cfg : s.resetRegisters.cfg = s.cfg := rfl
@[simp] theorem State.resetRegisters_irqEn : s.resetRegisters.irqEn = false := rfl
@[simp] theorem State.resetRegisters_cmd : s.resetRegisters.cmd = 0 := rfl
@[simp] theorem State.resetRegisters_eng : s.resetRegisters.eng = .idle := rfl
@[simp] theorem State.resetRegisters_done : s.resetRegisters.done = false := rfl
@[simp] theorem State.resetRegisters_cmdDropped : s.resetRegisters.cmdDropped = false := rfl
@[simp] theorem State.resetRegisters_err : s.resetRegisters.err = .none := rfl
@[simp] theorem State.resetRegisters_lastOp : s.resetRegisters.lastOp = 0 := rfl
@[simp] theorem State.resetRegisters_args : s.resetRegisters.args = .zero := rfl
@[simp] theorem State.resetRegisters_resultLen : s.resetRegisters.resultLen = 0 := rfl
@[simp] theorem State.resetRegisters_resultAux : s.resetRegisters.resultAux = 0 := rfl
@[simp] theorem State.resetRegisters_errInfo : s.resetRegisters.errInfo = 0 := rfl
@[simp] theorem State.resetRegisters_latch : s.resetRegisters.latch = freeLatch s.forgetWork.draws := rfl
@[simp] theorem State.resetRegisters_work : s.resetRegisters.work = freeWork s.draws := rfl
@[simp] theorem State.resetRegisters_mem : s.resetRegisters.mem = s.mem := rfl
@[simp] theorem State.resetRegisters_hazard : s.resetRegisters.hazard = false := rfl
@[simp] theorem State.resetRegisters_ended : s.resetRegisters.ended = s.ended := rfl
@[simp] theorem State.resetRegisters_draws : s.resetRegisters.draws = s.draws + workDraws + 8 := rfl
@[simp] theorem State.resetRegisters_events : s.resetRegisters.events = s.events := rfl
@[simp] theorem State.resetRegisters_replies : s.resetRegisters.replies = s.replies := rfl

end Sys2Proof.Machine
end

