-- ==== Sys2Proof/Laws/Ops.lean ====
section
/-! SUPPORT. What each shared operation can do: free values stay in their spans, the port reads and writes the range
it is given, and the *complete* step ends in one of five ways. -/

namespace Sys2Proof.Machine

/-! ### Free values in memory -/

theorem memRead_drawRange {keep : Nat → Bool} (m : List Host.Cell) {a d n x : Nat}
    (h : x < a ∨ a + n ≤ x ∨ keep x = false) : memRead (drawRange keep m a d n) x = memRead m x := by
  induction n generalizing m a d with
  | zero => rfl
  | succ n ih =>
    simp only [drawRange]
    rw [ih _ (h.elim (fun h => .inl (by omega)) fun h => .inr (h.imp_left fun h => by omega))]
    split
    · next hk =>
      refine memRead_memWrite_ne m _ ?_
      rintro rfl
      rcases h with h | h | h
      · omega
      · omega
      · simp [h] at hk
    · rfl

theorem drawRange_wf {keep : Nat → Bool} {m : List Host.Cell} (w : memWf m = true) {a d n : Nat}
    (h : a + n ≤ addrSpace) : memWf (drawRange keep m a d n) = true := by
  induction n generalizing m a d with
  | zero => exact w
  | succ n ih =>
    refine ih ?_ (by omega)
    split
    · exact memWrite_wf w (by omega) _
    · exact w

/-- A span is inside memory space. -/
def Span.inSpace (p : Span) : Prop := p.base + p.size ≤ addrSpace

theorem Span.memRead_draw (p : Span) (m : List Host.Cell) (d : Nat) {x : Nat} (h : p.holds x = false) :
    memRead (p.draw m d) x = memRead m x :=
  memRead_drawRange m (.inr (.inr h))

theorem Span.draw_wf (p : Span) {m : List Host.Cell} (w : memWf m = true) (d : Nat) (h : p.inSpace) :
    memWf (p.draw m d) = true :=
  drawRange_wf w h

theorem inSpans_cons {p : Span} {ps : List Span} {x : Nat} :
    inSpans (p :: ps) x = false ↔ p.holds x = false ∧ inSpans ps x = false := by
  simp [inSpans]

theorem memRead_drawSpans {ps : List Span} (m : List Host.Cell) (d : Nat) {x : Nat}
    (h : inSpans ps x = false) : memRead (drawSpans ps m d).1 x = memRead m x := by
  induction ps generalizing m d with
  | nil => rfl
  | cons p ps ih =>
    rw [inSpans_cons] at h
    simp only [drawSpans]
    rw [ih _ _ h.2, p.memRead_draw m d h.1]

theorem drawSpans_wf {ps : List Span} {m : List Host.Cell} (w : memWf m = true) (d : Nat)
    (h : ∀ p ∈ ps, p.inSpace) : memWf (drawSpans ps m d).1 = true := by
  induction ps generalizing m d with
  | nil => exact w
  | cons p ps ih =>
    exact ih (p.draw_wf w d (h p (by simp))) _ fun q hq => h q (by simp [hq])

/-- Any value in some bytes: every byte outside the spans reads as before. -/
theorem State.memRead_scramble (s : State) (ps : List Span) {x : Nat} (h : inSpans ps x = false) :
    memRead (s.scramble ps).mem x = memRead s.mem x :=
  memRead_drawSpans s.mem s.draws h

theorem State.scramble_wf {s : State} (w : memWf s.mem = true) {ps : List Span}
    (h : ∀ p ∈ ps, p.inSpace) : memWf (s.scramble ps).mem = true :=
  drawSpans_wf w s.draws h

/-- A draw of the working state stays within its capacities (10_state.md R40). -/
theorem freeWork_fits (d : Nat) :
    (freeWork d).payBuf.length ≤ 48 ∧ (freeWork d).slot ≤ 8 ∧ (freeWork d).pend.length ≤ 8 := by
  simp only [freeWork, List.length_map, List.length_range, groupBufBytes, groupPairs]
  refine ⟨?_, ?_, ?_⟩ <;> exact Nat.le_of_lt_succ (Nat.mod_lt _ (by omega))

/-! ### Spans of a command -/

theorem Region.holds_iff {r : Region} {x : Nat} : r.holds x = true ↔ r.base ≤ x ∧ x < r.base + r.size := by
  simp [Region.holds]

theorem Region.base_lt (r : Region) : r.base < addrSpace := r.addr.isLt

theorem Region.span_inSpace (r : Region) : r.span.inSpace := by
  have := r.base_lt
  simp only [Span.inSpace, Region.span]
  omega

theorem Region.rgbSpan_inSpace (r : Region) : r.rgbSpan.inSpace := r.span_inSpace

theorem errorSpans_inSpace (i : Instr) (a : Args) : ∀ p ∈ errorSpans i a, p.inSpace := by
  cases i <;> simp [errorSpans, Region.span_inSpace]

theorem maySpans_inSpace (i : Instr) (a : Args) : ∀ p ∈ maySpans i a, p.inSpace := by
  cases i <;> simp [maySpans, Region.span_inSpace, Region.rgbSpan_inSpace]

theorem scratchSpans_inSpace (i : Instr) (a : Args) : ∀ p ∈ scratchSpans i a, p.inSpace := by
  cases i <;> simp [scratchSpans, Region.span_inSpace]

/-- The MWS of an error other than BUS is in that of a BUS error (20_memory.md R60). -/
theorem errorSpans_in_maySpans {i : Instr} {a : Args} {x : Nat} (h : inSpans (maySpans i a) x = false) :
    inSpans (errorSpans i a) x = false := by
  cases i <;> simp_all [errorSpans, maySpans, inSpans]

theorem scratchSpans_in_maySpans {i : Instr} {a : Args} {x : Nat} (h : inSpans (maySpans i a) x = false) :
    inSpans (scratchSpans i a) x = false := by
  cases i <;> simp_all [scratchSpans, maySpans, inSpans]

theorem earlySpans_inSpace (c : Config) (i : Instr) (a : Args) : ∀ p ∈ earlySpans c i a, p.inSpace := by
  unfold earlySpans
  split
  · exact scratchSpans_inSpace i a
  · simp

theorem earlySpans_in_scratchSpans {c : Config} {i : Instr} {a : Args} {x : Nat}
    (h : c.losesScratch = true → inSpans (scratchSpans i a) x = false) : inSpans (earlySpans c i a) x = false := by
  unfold earlySpans
  split
  · next hc => exact h hc
  · rfl

/-- Where a region stays inside memory space, its span is the region. -/
theorem Region.span_holds {r : Region} (h : r.base + r.size ≤ addrSpace) (x : Nat) :
    r.span.holds x = r.holds x := by
  have : min r.size (addrSpace - r.base) = r.size := by omega
  simp only [Span.holds, Region.span, Region.holds, Region.limit, this, Bool.false_and, Bool.not_false,
    Bool.and_true]

/-- Where a region stays inside memory space, its RGB span is the region less the alpha bytes. -/
theorem Region.rgbSpan_holds {r : Region} (h : r.base + r.size ≤ addrSpace) (x : Nat) :
    r.rgbSpan.holds x = (r.holds x && !alphaOffset (x - r.base)) := by
  have : min r.size (addrSpace - r.base) = r.size := by omega
  simp only [Span.holds, Region.rgbSpan, Region.span, Region.holds, Region.limit, this, Bool.true_and]

/-! ### The port: reads -/

@[simp] theorem Port.readByte_mem (p : Port) (a : Nat) : (p.readByte a).2.mem = p.mem := by
  unfold Port.readByte; split
  · rfl
  · split <;> rfl

@[simp] theorem Port.readByte_cfg (p : Port) (a : Nat) : (p.readByte a).2.cfg = p.cfg := by
  unfold Port.readByte; split
  · rfl
  · split <;> rfl

@[simp] theorem Port.readByte_lossy (p : Port) (a : Nat) : (p.readByte a).2.lossy = p.lossy := by
  unfold Port.readByte; split
  · rfl
  · split <;> rfl

theorem Port.readByte_admitted {p : Port} {a : Nat} (h : admits p.cfg .read a = true) :
    p.readByte a = (memRead p.mem a, p) := by
  simp [Port.readByte, h]

theorem Port.readFrameByte_admitted {p : Port} {a off : Nat} (h : admits p.cfg .read a = true) :
    p.readFrameByte a off = (memRead p.mem a, p) := by
  simp [Port.readFrameByte, Port.readByte, h]

theorem Port.readFrameByte_kept (p : Port) (a off : Nat) :
    (p.readFrameByte a off).2.mem = p.mem ∧ (p.readFrameByte a off).2.cfg = p.cfg ∧
      (p.readFrameByte a off).2.lossy = p.lossy := by
  unfold Port.readFrameByte
  split
  · split <;> simp
  · simp

/-- A read changes nothing but the refusals met and the draws. -/
theorem Port.read_kept (p : Port) (a n : Nat) :
    (p.read a n).2.mem = p.mem ∧ (p.read a n).2.cfg = p.cfg ∧ (p.read a n).2.lossy = p.lossy := by
  induction n generalizing p a with
  | zero => exact ⟨rfl, rfl, rfl⟩
  | succ n ih =>
    have h := ih (p.readByte a).2 (a + 1)
    simpa [Port.read] using h

theorem Port.readFrame_kept (p : Port) (a off n : Nat) :
    (p.readFrame a off n).2.mem = p.mem ∧ (p.readFrame a off n).2.cfg = p.cfg ∧
      (p.readFrame a off n).2.lossy = p.lossy := by
  induction n generalizing p a off with
  | zero => exact ⟨rfl, rfl, rfl⟩
  | succ n ih =>
    have h := ih (p.readFrameByte a off).2 (a + 1) (off + 1)
    have k := p.readFrameByte_kept a off
    simp only [Port.readFrame]
    exact ⟨h.1.trans k.1, h.2.1.trans k.2.1, h.2.2.trans k.2.2⟩

@[simp] theorem Port.read_length (p : Port) (a n : Nat) : (p.read a n).1.length = n := by
  induction n generalizing p a with
  | zero => rfl
  | succ n ih => simp [Port.read, ih]

@[simp] theorem Port.readFrame_length (p : Port) (a off n : Nat) : (p.readFrame a off n).1.length = n := by
  induction n generalizing p a off with
  | zero => rfl
  | succ n ih => simp [Port.readFrame, ih]

/-- A read that the platform accepts answers memory and leaves the port as it was. -/
theorem Port.read_admitted {p : Port} {a n : Nat}
    (h : ∀ x, a ≤ x → x < a + n → admits p.cfg .read x = true) :
    p.read a n = (memBytes p.mem a n, p) := by
  induction n generalizing a with
  | zero => rfl
  | succ n ih =>
    simp only [Port.read, Port.readByte_admitted (h a (by omega) (by omega)), memBytes]
    rw [ih fun x h1 h2 => h x (by omega) (by omega)]

theorem Port.readFrame_admitted {p : Port} {a off n : Nat}
    (h : ∀ x, a ≤ x → x < a + n → admits p.cfg .read x = true) :
    p.readFrame a off n = (memBytes p.mem a n, p) := by
  induction n generalizing a off with
  | zero => rfl
  | succ n ih =>
    simp only [Port.readFrame, Port.readFrameByte_admitted (h a (by omega) (by omega)), memBytes]
    rw [ih fun x h1 h2 => h x (by omega) (by omega)]

/-! ### The port: writes -/

@[simp] theorem Port.writeByte_cfg (p : Port) (a : Nat) (b : Byte) : (p.writeByte a b).cfg = p.cfg := by
  unfold Port.writeByte; split
  · rfl
  · split <;> rfl

theorem Port.writeByte_admitted {p : Port} {a : Nat} (h : admits p.cfg .write a = true) (b : Byte) :
    p.writeByte a b = { p with mem := memWrite p.mem a b } := by
  simp [Port.writeByte, h]

theorem Port.memRead_writeByte (p : Port) {a x : Nat} (b : Byte) (h : x ≠ a) :
    memRead (p.writeByte a b).mem x = memRead p.mem x := by
  unfold Port.writeByte
  split
  · exact memRead_memWrite_ne p.mem b h
  · split
    · rfl
    · exact memRead_memWrite_ne p.mem b h

theorem Port.writeByte_wf {p : Port} (w : memWf p.mem = true) {a : Nat} (h : a < addrSpace) (b : Byte) :
    memWf (p.writeByte a b).mem = true := by
  unfold Port.writeByte
  split
  · exact memWrite_wf w h b
  · split
    · exact w
    · exact memWrite_wf w h b

@[simp] theorem Port.write_cfg (p : Port) (a : Nat) (bs : Bytes) : (p.write a bs).cfg = p.cfg := by
  induction bs generalizing p a with
  | nil => rfl
  | cons b bs ih => simp [Port.write, ih]

/-- A write leaves every byte outside its range alone, whatever the platform refuses. -/
theorem Port.memRead_write (p : Port) {a x : Nat} (bs : Bytes) (h : x < a ∨ a + bs.length ≤ x) :
    memRead (p.write a bs).mem x = memRead p.mem x := by
  induction bs generalizing p a with
  | nil => rfl
  | cons b bs ih =>
    simp only [List.length_cons] at h
    simp only [Port.write]
    rw [ih _ (by omega), p.memRead_writeByte b (by omega)]

theorem Port.write_wf {p : Port} (w : memWf p.mem = true) {a : Nat} (bs : Bytes)
    (h : a + bs.length ≤ addrSpace) : memWf (p.write a bs).mem = true := by
  induction bs generalizing p a with
  | nil => exact w
  | cons b bs ih =>
    simp only [List.length_cons] at h
    exact ih (Port.writeByte_wf w (by omega) b) (by omega)

/-- A write that the platform accepts stores its bytes. -/
theorem Port.write_admitted {p : Port} {a : Nat} {bs : Bytes}
    (h : ∀ x, a ≤ x → x < a + bs.length → admits p.cfg .write x = true) :
    p.write a bs = { p with mem := memWriteBytes p.mem a bs } := by
  induction bs generalizing p a with
  | nil => rfl
  | cons b bs ih =>
    simp only [List.length_cons] at h
    simp only [Port.write, Port.writeByte_admitted (h a (by omega) (by omega)), memWriteBytes]
    exact ih fun x h1 h2 => h x (by omega) (by omega)

/-! ### The *complete* step -/

/-- Everything the *complete* step can do (40_command_interface.md R97): the end of a command whose hazard rules were
broken; an error of phase A; the end of phase B with nothing refused; or, with an access refused, an error of
phase B or BUS at a refused address. -/
theorem State.complete_cases (s : State) (i : Instr) (early : Args → Option Raise)
    (body : Args → Port → Verdict × Port) :
    ((s.hazard = true ∨ breaksH6 s.cfg i s.latch.args = true) ∧ s.complete i early body = s.hazardEnd i) ∨
    (s.hazard = false ∧ breaksH6 s.cfg i s.latch.args = false ∧
      ((∃ r, phaseA i early s.latch.args = some r ∧ s.complete i early body = s.failA i r) ∨
       (phaseA i early s.latch.args = none ∧
          ((body s.latch.args (s.port false s.draws)).2.refused = [] ∧
            s.complete i early body =
              s.settle i (body s.latch.args (s.port false s.draws)).1
                (body s.latch.args (s.port false s.draws)).2 ∨
           (body s.latch.args (s.port false s.draws)).2.refused ≠ [] ∧
            s.complete i early body =
              s.settleRefused i (body s.latch.args (s.port false s.draws)).2.refused
                (body s.latch.args (s.port true (body s.latch.args (s.port false s.draws)).2.draws)))))) := by
  unfold State.complete
  by_cases hz : (s.hazard || breaksH6 s.cfg i s.latch.args) = true
  · left
    simp only [hz, if_true, and_true]
    simpa using hz
  · right
    simp only [hz]
    rw [Bool.or_eq_true, not_or, Bool.not_eq_true, Bool.not_eq_true] at hz
    refine ⟨hz.1, hz.2, ?_⟩
    cases hp : phaseA i early s.latch.args with
    | some r => left; exact ⟨r, rfl, by simp⟩
    | none =>
      right
      refine ⟨rfl, ?_⟩
      simp only [State.phaseB]
      by_cases hr : (body s.latch.args (s.port false s.draws)).2.refused = []
      · left; exact ⟨hr, by simp [hr]⟩
      · right; exact ⟨hr, by simp [hr]⟩

/-- What an error of phase A can do to memory: nothing, unless the configuration lets a mixed command lose SCR, and then
nothing outside SCR. -/
theorem State.memRead_failA (s : State) {i : Instr} {r : Raise} {x : Nat}
    (h : s.cfg.losesScratch = true → inSpans (scratchSpans i s.latch.args) x = false) :
    memRead (s.failA i r).mem x = memRead s.mem x :=
  State.memRead_scramble s _ (earlySpans_in_scratchSpans h)

/-- What phase B with a refusal can do (60_exceptions.md R205): an error that the lossy evaluation reached, or BUS at a
refused address. -/
theorem State.settleRefused_cases (s : State) (i : Instr) {refused : List Nat} (h : refused ≠ [])
    (lossy : Verdict × Port) :
    (∃ r d, lossy.1 = .raise r ∧ s.settleRefused i refused lossy = (s.withDraws d).failB i r) ∨
    (∃ x d, x ∈ refused ∧ s.settleRefused i refused lossy = (s.withDraws d).failBus i x) := by
  have hx : refused.getD (Config.freeNat lossy.2.draws % refused.length) 0 ∈ refused := by
    have hl : Config.freeNat lossy.2.draws % refused.length < refused.length :=
      Nat.mod_lt _ (List.length_pos_iff.mpr h)
    rw [List.getD_eq_getElem _ _ hl]
    exact List.getElem_mem hl
  unfold State.settleRefused
  split
  · next r hr =>
    by_cases hb : Config.freeBool (lossy.2.draws + 1) = true
    · left; exact ⟨r, _, hr, if_pos hb⟩
    · right; exact ⟨_, _, hx, if_neg hb⟩
  · right; exact ⟨_, _, hx, rfl⟩

end Sys2Proof.Machine
end

