-- ==== Sys2Proof/Laws/Delta.lean ====
section
/-! SUPPORT. The delta stage: what the checking parser lets through, and what the scatterer writes. -/

namespace Sys2Proof.Machine

/-! ### The parser -/

/-- Every record of an accepted group names a pair that fits the buffer (41_delta_stage.md R122). -/
theorem groupRecords_fit {D : Bytes} {cap hpos c c' : Nat} {ks : List Nat} {rs : List Record}
    (h : groupRecords D cap hpos ks c = .ok (rs, c')) : ∀ r ∈ rs, 8 * r.1 + 8 ≤ cap := by
  induction ks generalizing c rs with
  | nil =>
    simp only [groupRecords, Except.ok.injEq, Prod.mk.injEq] at h
    simp [← h.1]
  | cons k ks ih =>
    simp only [groupRecords] at h
    split at h
    · cases h
    · split at h
      · cases h
      · split at h
        · cases h
        · next hr =>
          cases h
          intro r hm
          rcases List.mem_cons.mp hm with rfl | hm
          · simp only [pairBytes] at *
            omega
          · exact ih hr r hm

theorem groupRecords_error {D : Bytes} {cap hpos c : Nat} {ks : List Nat} {e : Raise}
    (h : groupRecords D cap hpos ks c = .error e) : e.code = .deltaTruncated ∨ e.code = .bufTooSmall := by
  induction ks generalizing c with
  | nil => simp [groupRecords] at h
  | cons k ks ih =>
    simp only [groupRecords] at h
    split at h
    · cases h; exact .inl rfl
    · split at h
      · cases h; exact .inr rfl
      · split at h
        · next hr => cases h; exact ih hr
        · cases h

theorem parseGroups_fit {D : Bytes} {cap fuel c base : Nat} {recs : List Record}
    (h : parseGroups D cap fuel c base = .ok recs) : ∀ r ∈ recs, 8 * r.1 + 8 ≤ cap := by
  induction fuel generalizing c base recs with
  | zero => simp only [parseGroups, Except.ok.injEq] at h; simp [← h]
  | succ fuel ih =>
    simp only [parseGroups] at h
    split at h
    · split at h
      · cases h
      · next hg =>
        split at h
        · cases h
        · next hm =>
          cases h
          intro r hr
          rcases List.mem_append.mp hr with hr | hr
          · exact groupRecords_fit hg r hr
          · exact ih hm r hr
    · simp only [Except.ok.injEq] at h; simp [← h]

theorem parseGroups_error {D : Bytes} {cap fuel c base : Nat} {e : Raise}
    (h : parseGroups D cap fuel c base = .error e) : e.code = .deltaTruncated ∨ e.code = .bufTooSmall := by
  induction fuel generalizing c base with
  | zero => simp [parseGroups] at h
  | succ fuel ih =>
    simp only [parseGroups] at h
    split at h
    · split at h
      · next hg => cases h; exact groupRecords_error hg
      · split at h
        · next hm => cases h; exact ih hm
        · cases h
    · cases h

/-- The records of an accepted stream fit the buffer (41_delta_stage.md R122). -/
theorem parseDelta_fit {D : Bytes} {cap : Nat} {recs : List Record} (h : parseDelta D cap = .ok recs) :
    ∀ r ∈ recs, 8 * r.1 + 8 ≤ cap :=
  parseGroups_fit h

/-- The parser raises no other error than its two (41_delta_stage.md R122). -/
theorem parseDelta_error {D : Bytes} {cap : Nat} {e : Raise} (h : parseDelta D cap = .error e) :
    e.code = .deltaTruncated ∨ e.code = .bufTooSmall :=
  parseGroups_error h

/-! ### The encoder -/

/-- After `n` pairs the encoder's loop has at least one byte for each whole group, and at most seven for each pair
(41_delta_stage.md R121). -/
theorem encLoop_length (P C : Bytes) (ks : List Nat) (e : EncLoop) (n : Nat)
    (h : n ≤ 8 * e.out.length + e.slot ∧ e.out.length + e.payBuf.length + e.slot ≤ 7 * n ∧ e.slot < 8) :
    let f := ks.foldl (encPair P C) e
    n + ks.length ≤ 8 * f.out.length + f.slot ∧
      f.out.length + f.payBuf.length + f.slot ≤ 7 * (n + ks.length) ∧ f.slot < 8 := by
  induction ks generalizing e n with
  | nil => exact h
  | cons k ks ih =>
    have hm : (encMark P C k e).out = e.out ∧ (encMark P C k e).slot = e.slot ∧
        (encMark P C k e).payBuf.length ≤ e.payBuf.length + 6 := by
      unfold encMark
      split <;> simp [payload, rgbOffsets]
    have := ih (encPair P C e k) (n + 1) (by
      unfold encPair
      simp only [groupPairs, hm.2.1]
      split <;> simp only [encFlush, hm.1, List.length_append, List.length_cons, List.length_nil] <;> omega)
    simpa only [List.foldl_cons, List.length_cons, Nat.add_assoc, Nat.add_comm 1] using this

/-- Bounds on the length of an encoded stream by its number of pairs. -/
theorem encodeDelta_length_bounds (P C : Bytes) :
    P.length / 8 ≤ 8 * (encodeDelta P C).1.length ∧ (encodeDelta P C).1.length ≤ 7 * (P.length / 8) := by
  have h := encLoop_length P C (List.range (P.length / pairBytes)) encStart 0 (by simp [encStart])
  simp only [List.length_range, Nat.zero_add, pairBytes] at h
  simp only [encodeDelta, encLast, pairBytes]
  split
  · simp only [encFlush, List.length_append, List.length_cons]; omega
  · omega

/-! ### The scatterer -/

/-- The masked write of a pair is six byte writes (41_delta_stage.md R123). -/
theorem Port.writePair (p : Port) (a : Nat) (q : Bytes) :
    p.writeMasked a rgbMask (pairLanes q) =
      (((((p.writeByte a (byteAt q 0)).writeByte (a + 1) (byteAt q 1)).writeByte (a + 2) (byteAt q 2)).writeByte
        (a + 4) (byteAt q 3)).writeByte (a + 5) (byteAt q 4)).writeByte (a + 6) (byteAt q 5) := by
  simp [Port.writeMasked, pairLanes, rgbMask, Nat.add_assoc]

/-- An address is one of the six RGB bytes of the pair at `a`. -/
def InPair (a x : Nat) : Prop := ∃ j ∈ [0, 1, 2, 4, 5, 6], x = a + j

theorem inPair_iff (a x : Nat) :
    InPair a x ↔ x = a ∨ x = a + 1 ∨ x = a + 2 ∨ x = a + 4 ∨ x = a + 5 ∨ x = a + 6 := by
  simp [InPair]

theorem Port.memRead_writePair (p : Port) {a x : Nat} (q : Bytes) (h : ¬ InPair a x) :
    memRead (p.writeMasked a rgbMask (pairLanes q)).mem x = memRead p.mem x := by
  rw [inPair_iff] at h
  rw [p.writePair]
  repeat rw [Port.memRead_writeByte _ _ (by omega)]

@[simp] theorem Port.writePair_cfg (p : Port) (a : Nat) (q : Bytes) :
    (p.writeMasked a rgbMask (pairLanes q)).cfg = p.cfg := by
  rw [p.writePair]
  simp

theorem Port.writePair_wf {p : Port} (w : memWf p.mem = true) {a : Nat} (q : Bytes) (h : a + 8 ≤ addrSpace) :
    memWf (p.writeMasked a rgbMask (pairLanes q)).mem = true := by
  rw [p.writePair]
  repeat refine Port.writeByte_wf ?_ (by omega) _
  exact w

theorem Port.writePair_admitted {p : Port} {a : Nat} (q : Bytes)
    (h : ∀ x, InPair a x → admits p.cfg .write x = true) :
    (p.writeMasked a rgbMask (pairLanes q)).refused = p.refused ∧
      (memWf p.mem = true → a + 8 ≤ addrSpace →
        memRead (p.writeMasked a rgbMask (pairLanes q)).mem a = byteAt q 0 ∧
        memRead (p.writeMasked a rgbMask (pairLanes q)).mem (a + 1) = byteAt q 1 ∧
        memRead (p.writeMasked a rgbMask (pairLanes q)).mem (a + 2) = byteAt q 2 ∧
        memRead (p.writeMasked a rgbMask (pairLanes q)).mem (a + 4) = byteAt q 3 ∧
        memRead (p.writeMasked a rgbMask (pairLanes q)).mem (a + 5) = byteAt q 4 ∧
        memRead (p.writeMasked a rgbMask (pairLanes q)).mem (a + 6) = byteAt q 5) := by
  simp only [inPair_iff] at h
  rw [p.writePair]
  simp only [Port.writeByte, h a (by simp), h (a + 1) (by simp), h (a + 2) (by simp), h (a + 4) (by simp),
    h (a + 5) (by simp), h (a + 6) (by simp), if_true, true_and]
  intro w ha
  have w1 := memWrite_wf w (a := a) (by omega) (byteAt q 0)
  have w2 := memWrite_wf w1 (a := a + 1) (by omega) (byteAt q 1)
  have w3 := memWrite_wf w2 (a := a + 2) (by omega) (byteAt q 2)
  have w4 := memWrite_wf w3 (a := a + 4) (by omega) (byteAt q 3)
  have w5 := memWrite_wf w4 (a := a + 5) (by omega) (byteAt q 4)
  simp [memRead_memWrite w5, memRead_memWrite w4, memRead_memWrite w3, memRead_memWrite w2,
    memRead_memWrite w1, memRead_memWrite w]

@[simp] theorem Port.scatter_cfg (p : Port) (a : Nat) (recs : List Record) : (p.scatter a recs).cfg = p.cfg := by
  induction recs generalizing p with
  | nil => rfl
  | cons r rs ih => obtain ⟨k, q⟩ := r; simp [Port.scatter, ih]

theorem inRecords_cons {a k x : Nat} {q : Bytes} {rs : List Record} :
    InRecords a ((k, q) :: rs) x ↔ InPair (a + 8 * k) x ∨ InRecords a rs x := by
  simp [InRecords, InPair]

/-- The scatterer leaves every byte but its records' RGB bytes alone, whatever the platform refuses. -/
theorem Port.memRead_scatter (p : Port) {a x : Nat} {recs : List Record} (h : ¬ InRecords a recs x) :
    memRead (p.scatter a recs).mem x = memRead p.mem x := by
  induction recs generalizing p with
  | nil => rfl
  | cons r rs ih =>
    obtain ⟨k, q⟩ := r
    rw [inRecords_cons, not_or] at h
    simp only [Port.scatter, pairBytes]
    rw [ih _ h.2, p.memRead_writePair q h.1]

theorem Port.scatter_wf {p : Port} (w : memWf p.mem = true) {a cap : Nat} {recs : List Record}
    (hf : ∀ r ∈ recs, 8 * r.1 + 8 ≤ cap) (ha : a + cap ≤ addrSpace) : memWf (p.scatter a recs).mem = true := by
  induction recs generalizing p with
  | nil => exact w
  | cons r rs ih =>
    obtain ⟨k, q⟩ := r
    have hk := hf (k, q) (by simp)
    simp only at hk
    exact ih (Port.writePair_wf w q (by simp only [pairBytes]; omega)) fun r hr => hf r (by simp [hr])

theorem Port.scatter_refused {p : Port} {a : Nat} {recs : List Record}
    (h : ∀ x, InRecords a recs x → admits p.cfg .write x = true) : (p.scatter a recs).refused = p.refused := by
  induction recs generalizing p with
  | nil => rfl
  | cons r rs ih =>
    obtain ⟨k, q⟩ := r
    simp only [inRecords_cons] at h
    simp only [Port.scatter, pairBytes]
    rw [ih fun x hx => by simpa using h x (.inr hx)]
    exact (Port.writePair_admitted q fun x hx => h x (.inl hx)).1

/-- Records of ascending pairs are all in the buffer after the scatterer (41_delta_stage.md R123). -/
theorem Port.scatter_holds {p : Port} (w : memWf p.mem = true) {a cap : Nat} {recs : List Record}
    (hf : ∀ r ∈ recs, 8 * r.1 + 8 ≤ cap) (ha : a + cap ≤ addrSpace)
    (hs : recs.Pairwise fun r q => r.1 < q.1)
    (h : ∀ x, InRecords a recs x → admits p.cfg .write x = true) :
    ∀ r ∈ recs, PairHolds (p.scatter a recs).mem a r.1 r.2 := by
  induction recs generalizing p with
  | nil => simp
  | cons r rs ih =>
    obtain ⟨k, q⟩ := r
    have hk := hf (k, q) (by simp)
    simp only at hk
    rw [List.pairwise_cons] at hs
    simp only [inRecords_cons] at h
    simp only [Port.scatter, pairBytes]
    have w1 := Port.writePair_wf w q (a := a + 8 * k) (by omega)
    intro r hr
    rcases List.mem_cons.mp hr with rfl | hr
    · have hp := (Port.writePair_admitted (p := p) q fun x hx => h x (.inl hx)).2 w (by omega)
      have keep : ∀ j, j < 8 → memRead ((p.writeMasked (a + 8 * k) rgbMask (pairLanes q)).scatter a rs).mem
          (a + 8 * k + j) = memRead (p.writeMasked (a + 8 * k) rgbMask (pairLanes q)).mem (a + 8 * k + j) := by
        intro j hj
        refine Port.memRead_scatter _ ?_
        rintro ⟨r, hr, i, hi, he⟩
        have := hs.1 r hr
        simp only [List.mem_cons, List.not_mem_nil, or_false] at hi
        simp only at this
        omega
      refine ⟨?_, ?_, ?_, ?_, ?_, ?_⟩
      · exact (keep 0 (by omega)).trans hp.1
      · exact (keep 1 (by omega)).trans hp.2.1
      · exact (keep 2 (by omega)).trans hp.2.2.1
      · exact (keep 4 (by omega)).trans hp.2.2.2.1
      · exact (keep 5 (by omega)).trans hp.2.2.2.2.1
      · exact (keep 6 (by omega)).trans hp.2.2.2.2.2
    · exact ih w1 (fun r hr => hf r (by simp [hr])) hs.2 (fun x hx => by simpa using h x (.inr hx)) r hr

end Sys2Proof.Machine
end

