-- ==== Sys2Proof/Laws/Commands.lean ====
section
/-! SUPPORT. What each command's phase B can do (40_command_interface.md R97): which bytes it may change, which errors it
raises, and that memory keeps its canonical form. -/

namespace Sys2Proof.Machine

/-- Every command is the *complete* step of its own checks and its own phase B (40_command_interface.md R97). -/
theorem exec_eq (i : Instr) (s : State) : exec i s = .next (s.complete i (earlyCheckOf i) (bodyOf i)) := by
  cases i <;> rfl

/-! ### Regions that fit -/

theorem Region.outside_span {r : Region} (h : r.base + r.size ≤ addrSpace) {x : Nat}
    (hx : r.span.holds x = false) : x < r.base ∨ r.base + r.size ≤ x := by
  rw [Region.span_holds h] at hx
  simp only [Region.holds, Region.limit, Bool.and_eq_false_iff, decide_eq_false_iff_not] at hx
  omega

/-- An RGB byte of a record that fits the buffer is in the buffer's RGB span. -/
theorem not_inRecords_of_rgbSpan {r : Region} (h : r.base + r.size ≤ addrSpace) {recs : List Record}
    (hf : ∀ q ∈ recs, 8 * q.1 + 8 ≤ r.size) {x : Nat} (hx : r.rgbSpan.holds x = false) :
    ¬ InRecords r.base recs x := by
  rintro ⟨q, hq, j, hj, rfl⟩
  have := hf q hq
  have hj' : j < 8 ∧ j % 4 ≠ 3 := by
    simp only [List.mem_cons, List.not_mem_nil, or_false] at hj
    omega
  have h4 : ((8 * q.1 + j) % 4 == 3) = false := by
    rw [beq_eq_false_iff_ne]; omega
  rw [Region.rgbSpan_holds h] at hx
  simp only [Region.holds, Region.limit, alphaOffset, pixelBytes] at hx
  rw [show r.base + 8 * q.1 + j - r.base = 8 * q.1 + j by omega, h4] at hx
  simp only [Bool.not_false, Bool.and_true, Bool.and_eq_false_iff, decide_eq_false_iff_not] at hx
  omega

/-- Every used region of a command stays inside memory space, in the order of `Args`. -/
def Fits (i : Instr) (a : Args) : Prop :=
  ∀ r ∈ usedRegions i, (a.region r).base + (a.region r).size ≤ addrSpace

/-! ### The pieces of the bodies -/

theorem gatherDelta_kept (a : Args) (p : Port) :
    (gatherDelta a p).2.mem = p.mem ∧ (gatherDelta a p).2.cfg = p.cfg ∧ (gatherDelta a p).2.lossy = p.lossy := by
  have h0 := p.readFrame_kept a.src0.base 0 a.src0.size
  have h1 := (p.readFrame a.src0.base 0 a.src0.size).2.readFrame_kept a.src1.base 0 a.src1.size
  exact ⟨h1.1.trans h0.1, h1.2.1.trans h0.2.1, h1.2.2.trans h0.2.2⟩

theorem throughScratch_kept (D : Bytes) (a : Args) (p : Port) :
    (throughScratch D a p).2.mem = (p.write a.scr.base D).mem ∧ (throughScratch D a p).2.cfg = p.cfg := by
  have h := (p.write a.scr.base D).read_kept a.scr.base D.length
  exact ⟨h.1, by rw [throughScratch, h.2.1, Port.write_cfg]⟩

@[simp] theorem throughScratch_length (D : Bytes) (a : Args) (p : Port) :
    (throughScratch D a p).1.length = D.length := by
  simp [throughScratch]

/-- What the compressed stream's last stage does: an error that changes nothing, or a write that fits DST. -/
theorem emitCompressed_cases (X : Bytes) (aux : Nat) (a : Args) (p : Port) :
    (∃ r, emitCompressed X aux a p = (.raise r, p) ∧ (r.code = .tooLarge ∨ r.code = .dstOverflow)) ∨
    (∃ Y, compressBytes p.cfg X = .ok Y ∧ Y.length ≤ a.dst.size ∧
      emitCompressed X aux a p = (.finish Y.length aux, p.write a.dst.base Y)) := by
  unfold emitCompressed
  cases hc : compressBytes p.cfg X with
  | error r =>
    left
    refine ⟨r, rfl, .inl ?_⟩
    unfold compressBytes at hc
    split at hc
    · cases hc; rfl
    · cases hc
  | ok Y =>
    simp only
    split
    · left; exact ⟨_, rfl, .inr rfl⟩
    · right; exact ⟨Y, rfl, by omega, rfl⟩

/-- What the last stage of an apply does: an error that changes nothing, or records that fit, scattered. -/
theorem applyStream_cases (D : Bytes) (a : Args) (p : Port) :
    (∃ r, applyStream D a p = (.raise r, p) ∧ (r.code = .deltaTruncated ∨ r.code = .bufTooSmall)) ∨
    (∃ recs, parseDelta D a.dst.size = .ok recs ∧
      applyStream D a p = (.finish D.length recs.length, p.scatter a.dst.base recs)) := by
  unfold applyStream
  cases h : parseDelta D a.dst.size with
  | error r => left; exact ⟨r, rfl, parseDelta_error h⟩
  | ok recs => right; exact ⟨recs, rfl, rfl⟩

/-- What the unwrapping of a compressed stream gives: one of its errors, or the declared number of bytes, which the
buffer holds (42_entropy_stage.md R151). -/
theorem decompressBytes_cases (c : Config) (Y : Bytes) (cap : Nat) (ovf : ErrCode) :
    (∃ r, decompressBytes c Y cap ovf = .error r ∧ (r.code = .entropy ∨ r.code = ovf)) ∨
    (∃ X, decompressBytes c Y cap ovf = .ok X ∧ X.length ≤ cap) := by
  unfold decompressBytes
  split
  · left; exact ⟨_, rfl, .inl rfl⟩
  · simp only
    split
    · left; exact ⟨_, rfl, .inr rfl⟩
    · split
      · left; exact ⟨_, rfl, .inl rfl⟩
      · split
        · left; exact ⟨_, rfl, .inl rfl⟩
        · next h => right; exact ⟨_, rfl, by omega⟩

/-! ### Phase B of each command -/

/-- What phase B of a command may do to the port: it keeps the configuration and every byte outside the command's
may-write set, keeps memory canonical, and raises only errors of the command other than BUS. -/
structure BodyOk (i : Instr) (a : Args) (p : Port) (out : Verdict × Port) : Prop where
  cfg   : out.2.cfg = p.cfg
  frame : ∀ x, inSpans (maySpans i a) x = false → memRead out.2.mem x = memRead p.mem x
  wf    : memWf p.mem = true → memWf out.2.mem = true
  codes : ∀ r, out.1 = .raise r → r.code ∈ errorsOf i ∧ r.code ≠ .bus ∧ r.code ≠ .none

theorem encodeDeltaBody_ok {a : Args} (h : Fits .encodeDelta a) (p : Port) :
    BodyOk .encodeDelta a p (encodeDeltaBody a p) := by
  have hd : a.dst.base + a.dst.size ≤ addrSpace := h .dst (by simp [usedRegions])
  have k := gatherDelta_kept a p
  simp only [encodeDeltaBody]
  split
  · exact ⟨k.2.1, fun x _ => by rw [k.1], fun w => by rw [k.1]; exact w,
      fun r hr => by cases hr; simp [errorsOf]⟩
  · next hl =>
    refine ⟨by simp [k.2.1], fun x hx => ?_, fun w => Port.write_wf (by rw [k.1]; exact w) _ (by omega),
      fun r hr => by cases hr⟩
    have hx' := Region.outside_span hd (by simpa [maySpans, inSpans] using hx)
    rw [Port.memRead_write _ _ (by omega), k.1]

theorem applyStream_ok {i : Instr} {a : Args} (hd : a.dst.base + a.dst.size ≤ addrSpace)
    (hs : ∀ x, inSpans (maySpans i a) x = false → a.dst.rgbSpan.holds x = false)
    (he : ErrCode.deltaTruncated ∈ errorsOf i ∧ ErrCode.bufTooSmall ∈ errorsOf i) (D : Bytes) (p : Port) :
    BodyOk i a p (applyStream D a p) := by
  rcases applyStream_cases D a p with ⟨r, hr, hc⟩ | ⟨recs, hp, hr⟩ <;> rw [hr]
  · refine ⟨rfl, fun _ _ => rfl, id, fun q hq => ?_⟩
    cases hq
    rcases hc with hc | hc <;> rw [hc] <;> simp [he]
  · exact ⟨by simp, fun x hx => Port.memRead_scatter _
      (not_inRecords_of_rgbSpan hd (parseDelta_fit hp) (hs x hx)),
      fun w => Port.scatter_wf w (parseDelta_fit hp) hd, fun q hq => by cases hq⟩

theorem emitCompressed_ok {i : Instr} {a : Args} (hd : a.dst.base + a.dst.size ≤ addrSpace)
    (hs : ∀ x, inSpans (maySpans i a) x = false → a.dst.span.holds x = false)
    (he : ErrCode.tooLarge ∈ errorsOf i ∧ ErrCode.dstOverflow ∈ errorsOf i) (X : Bytes) (aux : Nat) (p : Port) :
    BodyOk i a p (emitCompressed X aux a p) := by
  rcases emitCompressed_cases X aux a p with ⟨r, hr, hc⟩ | ⟨Y, _, hl, hr⟩ <;> rw [hr]
  · refine ⟨rfl, fun _ _ => rfl, id, fun q hq => ?_⟩
    cases hq
    rcases hc with hc | hc <;> rw [hc] <;> simp [he]
  · refine ⟨by simp, fun x hx => ?_, fun w => Port.write_wf w _ (by omega), fun q hq => by cases hq⟩
    have hx' := Region.outside_span hd (hs x hx)
    exact Port.memRead_write _ _ (by omega)

/-- A stage that begins at a port which kept the configuration, the bytes outside the may-write set and the
canonical form. -/
theorem BodyOk.after {i : Instr} {a : Args} {p q : Port} {out : Verdict × Port} (h : BodyOk i a q out)
    (hc : q.cfg = p.cfg) (hf : ∀ x, inSpans (maySpans i a) x = false → memRead q.mem x = memRead p.mem x)
    (hw : memWf p.mem = true → memWf q.mem = true) : BodyOk i a p out :=
  ⟨h.cfg.trans hc, fun x hx => (h.frame x hx).trans (hf x hx), fun w => h.wf (hw w), h.codes⟩

theorem BodyOk.afterRead {i : Instr} {a : Args} {p q : Port} {out : Verdict × Port} (h : BodyOk i a q out)
    (hk : q.mem = p.mem ∧ q.cfg = p.cfg ∧ q.lossy = p.lossy) : BodyOk i a p out :=
  h.after hk.2.1 (fun x _ => by rw [hk.1]) fun w => by rw [hk.1]; exact w

theorem BodyOk.afterScratch {i : Instr} {a : Args} {p : Port} {out : Verdict × Port} {D : Bytes}
    (h : BodyOk i a (throughScratch D a p).2 out) (hd : a.scr.base + a.scr.size ≤ addrSpace)
    (hl : D.length ≤ a.scr.size)
    (hs : ∀ x, inSpans (maySpans i a) x = false → a.scr.span.holds x = false) : BodyOk i a p out := by
  have k := throughScratch_kept D a p
  refine h.after k.2 (fun x hx => ?_) fun w => ?_
  · have hx' := Region.outside_span hd (hs x hx)
    rw [k.1, Port.memRead_write _ _ (by omega)]
  · rw [k.1]
    exact Port.write_wf w _ (by omega)

theorem BodyOk.raiseHere {i : Instr} {a : Args} {p : Port} {r : Raise}
    (h : r.code ∈ errorsOf i ∧ r.code ≠ .bus ∧ r.code ≠ .none) : BodyOk i a p (.raise r, p) :=
  ⟨rfl, fun _ _ => rfl, id, fun q hq => by cases hq; exact h⟩

/-- Phase B of every command, over any port. -/
theorem body_ok {i : Instr} {a : Args} (h : Fits i a) (p : Port) : BodyOk i a p (bodyOf i a p) := by
  cases i with
  | encodeDelta => exact encodeDeltaBody_ok h p
  | applyDelta =>
    refine (applyStream_ok (h .dst (by simp [usedRegions])) ?_ (by simp [errorsOf]) _ _).afterRead (p.read_kept _ _)
    simp [maySpans, inSpans]
  | compress =>
    refine (emitCompressed_ok (h .dst (by simp [usedRegions])) ?_ (by simp [errorsOf]) _ _ _).afterRead
      (p.read_kept _ _)
    simp [maySpans, inSpans]
  | decompress =>
    have hd : a.dst.base + a.dst.size ≤ addrSpace := h .dst (by simp [usedRegions])
    refine BodyOk.afterRead ?_ (p.read_kept a.src0.base a.src0.size)
    simp only [bodyOf, decompressBody, Port.bytesOf]
    rcases decompressBytes_cases p.cfg (p.read a.src0.base a.src0.size).1 a.dst.size .dstOverflow with
      ⟨r, hr, hc⟩ | ⟨X, hr, hl⟩ <;> rw [hr]
    · refine .raiseHere ?_
      rcases hc with hc | hc <;> rw [hc] <;> simp [errorsOf]
    · refine ⟨by simp, fun x hx => ?_, fun w => Port.write_wf w _ (by omega), fun q hq => by cases hq⟩
      have hx' := Region.outside_span hd (by simpa [maySpans, inSpans] using hx)
      exact Port.memRead_write _ _ (by omega)
  | mixedCompress =>
    refine BodyOk.afterRead ?_ (gatherDelta_kept a p)
    simp only [bodyOf, mixedCompressBody]
    split
    · exact .raiseHere (by simp [errorsOf])
    · next hl =>
      refine (emitCompressed_ok (h .dst (by simp [usedRegions])) ?_ (by simp [errorsOf]) _ _ _).afterScratch
        (h .scr (by simp [usedRegions])) (Nat.le_of_not_lt hl) ?_ <;> simp +contextual [maySpans, inSpans]
  | mixedDecompress =>
    refine BodyOk.afterRead ?_ (p.read_kept a.src0.base a.src0.size)
    simp only [bodyOf, mixedDecompressBody, Port.bytesOf]
    rcases decompressBytes_cases p.cfg (p.read a.src0.base a.src0.size).1 a.scr.size .scrOverflow with
      ⟨r, hr, hc⟩ | ⟨D, hr, hl⟩ <;> rw [hr]
    · refine .raiseHere ?_
      rcases hc with hc | hc <;> rw [hc] <;> simp [errorsOf]
    · refine (applyStream_ok (h .dst (by simp [usedRegions])) ?_ (by simp [errorsOf]) _ _).afterScratch
        (h .scr (by simp [usedRegions])) hl ?_ <;> simp +contextual [maySpans, inSpans]

/-! ### Phase A -/

theorem checkRegions_none {used : List RegionName} {a : Args} :
    checkRegions used a = none ↔ ∀ r ∈ used, (a.region r).base + (a.region r).size ≤ addrSpace := by
  simp only [checkRegions, Option.map_eq_none_iff, List.find?_eq_none, regionOrder]
  constructor
  · intro h r hr
    have := h r (by cases r <;> simp)
    simpa [hr, Region.limit] using this
  · intro h r _ hc
    simp only [Bool.and_eq_true, List.contains_iff_mem, decide_eq_true_eq, Region.limit] at hc
    have := h r hc.1
    omega

theorem checkRegions_code {used : List RegionName} {a : Args} {r : Raise} (h : checkRegions used a = some r) :
    r.code = .region := by
  simp only [checkRegions, Option.map_eq_some_iff] at h
  obtain ⟨_, _, rfl⟩ := h
  rfl

theorem checkOverlap_code {used : List RegionName} {a : Args} {r : Raise} (h : checkOverlap used a = some r) :
    r.code = .overlap := by
  simp only [checkOverlap, Option.map_eq_some_iff] at h
  obtain ⟨_, _, rfl⟩ := h
  rfl

theorem earlyCheckOf_code {i : Instr} {a : Args} {r : Raise} (h : earlyCheckOf i a = some r) :
    r.code ∈ errorsOf i ∧ r.code ≠ .bus ∧ r.code ≠ .none := by
  cases i <;> simp only [earlyCheckOf, geometryCheck, noEarlyCheck, sizeCheck] at h
  case applyDelta | decompress | mixedDecompress => cases h
  all_goals
    repeat' split at h
    all_goals first | (cases h; done) | (cases h; simp [errorsOf])

/-- An error of phase A is one of the command's, and not BUS. -/
theorem phaseA_code {i : Instr} {a : Args} {r : Raise} (h : phaseA i (earlyCheckOf i) a = some r) :
    r.code ∈ errorsOf i ∧ r.code ≠ .bus ∧ r.code ≠ .none := by
  unfold phaseA at h
  cases h1 : checkRegions (usedRegions i) a with
  | some q =>
    simp only [h1, Option.some_or, Option.some.injEq] at h
    rw [← h, checkRegions_code h1]
    cases i <;> simp [errorsOf]
  | none =>
    cases h2 : checkOverlap (usedRegions i) a with
    | some q =>
      simp only [h1, h2, Option.none_or, Option.some_or, Option.some.injEq] at h
      rw [← h, checkOverlap_code h2]
      cases i <;> simp [errorsOf]
    | none =>
      simp only [h1, h2, Option.none_or] at h
      exact earlyCheckOf_code h

/-- Where phase A passes, every used region stays inside memory space. -/
theorem fits_of_phaseA {i : Instr} {a : Args} (h : phaseA i (earlyCheckOf i) a = none) : Fits i a := by
  unfold phaseA at h
  rw [Option.or_eq_none_iff] at h
  exact checkRegions_none.mp h.1

end Sys2Proof.Machine
end

