-- ==== Sys2Proof/Laws/Decode.lean ====
section
/-! SUPPORT. Byte order, the opcode map, and what the engine's command word decodes to. -/

namespace Sys2Proof

namespace Machine

@[simp] theorem leBytes_length (n v : Nat) : (leBytes n v).length = n := by
  induction n generalizing v with
  | zero => rfl
  | succ n ih => simp [leBytes, ih]

theorem leBytes_fromLe (bs : Bytes) : leBytes bs.length (fromLe bs) = bs := by
  induction bs with
  | nil => rfl
  | cons b bs ih =>
    have := b.isLt
    simp only [List.length_cons, leBytes, fromLe]
    congr 1
    · apply BitVec.eq_of_toNat_eq
      simp only [BitVec.toNat_ofNat]
      omega
    · rw [show (b.toNat + 256 * fromLe bs) / 256 = fromLe bs by omega, ih]

theorem fromLe_lt (bs : Bytes) : fromLe bs < 256 ^ bs.length := by
  induction bs with
  | nil => simp [fromLe]
  | cons b bs ih =>
    have := b.isLt
    simp only [fromLe, List.length_cons, pow_succ]
    omega

theorem fromLe_leBytes {n v : Nat} (h : v < 256 ^ n) : fromLe (leBytes n v) = v := by
  induction n generalizing v with
  | zero => simp only [pow_zero] at h; simp only [leBytes, fromLe]; omega
  | succ n ih =>
    simp only [leBytes, fromLe]
    rw [ih (by rw [pow_succ] at h; omega), BitVec.toNat_ofNat]
    omega

end Machine

/-- The opcode map is one to one (30_encoding.md R71). -/
theorem decodeOpcode_iff {op : Byte} {i : Instr} : decodeOpcode op = .ok i ↔ op = i.cmdWord.opcode := by
  constructor
  · intro h
    unfold decodeOpcode at h
    split at h <;> (try cases h) <;>
      next hh => (apply BitVec.eq_of_toNat_eq; simp [hh, Instr.cmdWord])
  · rintro rfl; cases i <;> rfl

/-- A command word is its two fields (30_encoding.md R70). -/
theorem CmdWord.toWord_ofWord (w : Word) : (CmdWord.ofWord w).toWord = w := by
  simp only [CmdWord.toWord, CmdWord.ofWord]
  apply BitVec.eq_of_getLsbD_eq
  intro i hi
  rw [BitVec.getLsbD_append, BitVec.getLsbD_extractLsb', BitVec.getLsbD_extractLsb']
  by_cases h : i < 8
  · simp [h]
  · simp only [h, if_false]
    rw [show 8 + (i - 8) = i by omega]
    simp
    omega

namespace Machine

/-- What the engine runs depends on LATCH.OP alone, by the opcode map (40_command_interface.md R96). -/
theorem decode_fetchBytes (op : Byte) : decode (leBytes 8 op.toNat) = decodeOpcode op := by
  revert op
  decide

theorem State.fetch_eq (s : State) : s.fetch = decodeOpcode s.latch.op := decode_fetchBytes s.latch.op

/-- The engine runs `i` exactly where LATCH.OP is its opcode. -/
theorem State.decode_fetchBytes_iff {s : State} {i : Instr} :
    decode s.fetchBytes = .ok i ↔ s.latch.op = i.cmdWord.opcode :=
  (congrArg (· = Except.ok i) s.fetch_eq).to_iff.trans decodeOpcode_iff

end Machine

end Sys2Proof
end

