-- ==== Sys2Proof/Laws/Agents.lean ====
section
/-! SUPPORT. What the other agents can do to the block: what a broken hazard rule leaves alone, and what an observation,
a write, a read and a reset change. -/

namespace Sys2Proof.Machine

/-- The outcome of a command whose hazard rules were broken is one that the command can have. -/
theorem anyOutcome_mem (i : Instr) (d : Nat) : anyOutcome i d = .none ∨ anyOutcome i d ∈ errorsOf i := by
  have h : anyOutcome i d ∈ ErrCode.none :: errorsOf i := by
    unfold anyOutcome
    simp only
    rw [List.getD_eq_getElem _ _ (Nat.mod_lt _ (by simp))]
    exact List.getElem_mem _
  simpa using h

/-- The bytes the latched command may write are inside memory space. -/
theorem latchedSpans_inSpace (l : Latch) : ∀ p ∈ latchedSpans l, p.inSpace := by
  unfold latchedSpans
  split
  · exact maySpans_inSpace _ _
  · simp

/-! ### Observation -/

/-- Where the observation names every command, none is left to observe (20_memory.md R63 part 2). -/
theorem observeEnded_all {p : Latch → Bool} (h : ∀ l, p l = true) (es : List Ended) : observeEnded p es = [] := by
  simp [observeEnded, Ended.observe, h]

/-- A command that is left was there before, and an observation only adds to what was observed. -/
theorem mem_observeEnded {p : Latch → Bool} {es : List Ended} {e : Ended} (h : e ∈ observeEnded p es) :
    ∃ q ∈ es, e = q.observe p := by
  obtain ⟨q, hq, rfl⟩ := List.mem_map.mp ((List.dropWhile_sublist _).subset h)
  exact ⟨q, hq, rfl⟩

/-- A read of STATUS that returns DONE = 1 is the observation of the end of every command. -/
theorem State.observe_done {s : State} (hi : s.eng = .idle) (hd : s.done = true) : s.observe.ended = [] := by
  simp [State.observe, State.busy, hi, hd, observeEnded_all]

/-! ### Broken hazard rules -/

/-- What two states agree in where only memory outside the spans of some commands is safe from any value, and with it
ERR, the results and the draws: the rest of the state. -/
def SpoiledOnly (s t : State) : Prop :=
  ∃ m e len aux info d, t = { s with mem := m, err := e, resultLen := len, resultAux := aux, errInfo := info, draws := d }

/-- What the spoiling of one ended command leaves alone: all but its may-write set, ERR, the results and the draws; and
ERR only while the registers are its own, to one of its outcomes. -/
theorem State.spoil_kept (s : State) (l : Latch) (last : Bool) :
    SpoiledOnly s (s.spoil l last) ∧
      (∀ x, inSpans (latchedSpans l) x = false → memRead (s.spoil l last).mem x = memRead s.mem x) ∧
      (memWf s.mem = true → memWf (s.spoil l last).mem = true) ∧
      ((s.spoil l last).err = s.err ∧ (s.spoil l last).resultLen = s.resultLen ∧
          (s.spoil l last).resultAux = s.resultAux ∧ (s.spoil l last).errInfo = s.errInfo ∨
        ∃ i, s.eng = .idle ∧ s.cmd = l.op.zeroExtend 64 ∧ decodeOpcode l.op = .ok i ∧
          ((s.spoil l last).err = .none ∨ (s.spoil l last).err ∈ errorsOf i)) := by
  unfold State.spoil latchedSpans
  split
  · next i hi =>
    simp only
    split
    · next hc =>
      simp only [Bool.and_eq_true, Bool.not_eq_true', State.busy, beq_eq_false_iff_ne, beq_iff_eq] at hc
      refine ⟨⟨_, _, _, _, _, _, rfl⟩, fun x hx => State.memRead_scramble s _ hx,
        fun w => State.scramble_wf w (maySpans_inSpace _ _), .inr ⟨i, ?_, hc.2, hi, anyOutcome_mem _ _⟩⟩
      cases h : s.eng <;> simp_all
    · exact ⟨⟨_, _, _, _, _, _, rfl⟩, fun x hx => State.memRead_scramble s _ hx,
        fun w => State.scramble_wf w (maySpans_inSpace _ _), .inl ⟨rfl, rfl, rfl, rfl⟩⟩
  · exact ⟨⟨_, _, _, _, _, _, rfl⟩, fun _ _ => rfl, id, .inl ⟨rfl, rfl, rfl, rfl⟩⟩

theorem SpoiledOnly.trans {s t u : State} (h : SpoiledOnly s t) (k : SpoiledOnly t u) : SpoiledOnly s u := by
  obtain ⟨_, _, _, _, _, _, rfl⟩ := h
  obtain ⟨_, _, _, _, _, _, rfl⟩ := k
  exact ⟨_, _, _, _, _, _, rfl⟩

/-- A rule was broken for an ended command whose end the host has not observed. -/
def Breached (hit : Latch → Bool) (e : Ended) : Prop := e.seen = false ∧ hit e.latch = true

/-- Everything the spoiling of ended commands can do (70_reset_and_hazards.md R241): memory changes in the may-write sets
of the breached ones alone, and ERR and the results only to an outcome of one of them whose word CMD still holds. -/
theorem State.spoilEnded_kept (hit : Latch → Bool) (es : List Ended) (s : State) :
    SpoiledOnly s (State.spoilEnded hit es s) ∧
      (∀ x, (∀ e ∈ es, Breached hit e → inSpans (latchedSpans e.latch) x = false) →
        memRead (State.spoilEnded hit es s).mem x = memRead s.mem x) ∧
      (memWf s.mem = true → memWf (State.spoilEnded hit es s).mem = true) ∧
      ((State.spoilEnded hit es s).err = s.err ∧ (State.spoilEnded hit es s).resultLen = s.resultLen ∧
          (State.spoilEnded hit es s).resultAux = s.resultAux ∧ (State.spoilEnded hit es s).errInfo = s.errInfo ∨
        ∃ e ∈ es, Breached hit e ∧ ∃ i, s.eng = .idle ∧ s.cmd = e.latch.op.zeroExtend 64 ∧
          decodeOpcode e.latch.op = .ok i ∧
          ((State.spoilEnded hit es s).err = .none ∨ (State.spoilEnded hit es s).err ∈ errorsOf i)) := by
  induction es generalizing s with
  | nil => exact ⟨⟨_, _, _, _, _, _, rfl⟩, fun _ _ => rfl, id, .inl ⟨rfl, rfl, rfl, rfl⟩⟩
  | cons e es ih =>
    simp only [State.spoilEnded]
    split
    · next hc =>
      have hb : Breached hit e := by simpa [Breached] using hc
      have k := s.spoil_kept e.latch es.isEmpty
      have h := ih (s.spoil e.latch es.isEmpty)
      refine ⟨k.1.trans h.1,
        fun x hx => (h.2.1 x fun q hq => hx q (by simp [hq])).trans (k.2.1 x (hx e (by simp) hb)),
        fun w => h.2.2.1 (k.2.2.1 w), ?_⟩
      obtain ⟨_, _, _, _, _, _, hs⟩ := k.1
      rcases h.2.2.2 with h4 | ⟨q, hq, hq', i, h1, h2, h3⟩
      · rcases k.2.2.2 with k4 | ⟨i, k1, k2, k3, k4⟩
        · exact .inl ⟨h4.1.trans k4.1, h4.2.1.trans k4.2.1, h4.2.2.1.trans k4.2.2.1, h4.2.2.2.trans k4.2.2.2⟩
        · exact .inr ⟨e, by simp, hb, i, k1, k2, k3, by rw [h4.1]; exact k4⟩
      · rw [hs] at h1 h2
        exact .inr ⟨q, by simp [hq], hq', i, h1, h2, h3⟩
    · have h := ih s
      refine ⟨h.1, fun x hx => h.2.1 x fun q hq => hx q (by simp [hq]), h.2.2.1, ?_⟩
      rcases h.2.2.2 with h4 | ⟨q, hq, h4⟩
      · exact .inl h4
      · exact .inr ⟨q, by simp [hq], h4⟩

/-- Where no rule was broken for a command not yet observed, nothing is spoiled. -/
theorem State.spoilEnded_none {hit : Latch → Bool} {es : List Ended} (h : ∀ e ∈ es, ¬ Breached hit e) (s : State) :
    State.spoilEnded hit es s = s := by
  induction es with
  | nil => rfl
  | cons e es ih =>
    have he : (!e.seen && hit e.latch) = false := by
      have := h e (by simp)
      cases hs : e.seen <;> simp_all [Breached]
    simp only [State.spoilEnded, he]
    exact ih fun q hq => h q (by simp [hq])

/-- Everything a broken hazard rule can do (70_reset_and_hazards.md R241): the breach is noted for a running command, and
ended ones are spoiled. -/
theorem State.breach_eq (s : State) (hit : Latch → Bool) :
    ∃ z, s.breach hit = { State.spoilEnded hit s.ended s with hazard := z } ∧
      (z = if s.busy && hit s.latch then true else s.hazard) := by
  obtain ⟨_, _, _, _, _, _, hs⟩ := (State.spoilEnded_kept hit s.ended s).1
  unfold State.breach
  simp only
  split
  · exact ⟨true, rfl, rfl⟩
  · exact ⟨s.hazard, by rw [hs], rfl⟩

/-! ### Reset -/

/-- A reset ends in the registers of 10_state.md R43, over memory as it was or with the abandoned command's may-write set
drawn anew. -/
theorem State.resetInput_cases (s : State) :
    (s.eng = .idle ∧ s.resetInput = s.resetRegisters) ∨
    (s.eng = .busy ∧ s.resetInput = (s.scramble (latchedSpans s.latch)).resetRegisters) := by
  unfold State.resetInput
  cases he : s.eng with
  | idle => exact .inl ⟨rfl, rfl⟩
  | busy => exact .inr ⟨rfl, rfl⟩

end Sys2Proof.Machine
end

