-- ==== Sys2Proof/Laws/PerInstr.lean ====
section
/-! SUPPORT. The statement family "each command's word is well formed and reads back" (30_encoding.md R70 to R73). -/

namespace Sys2Proof.Laws.RoundTrip

/-- The command's word is well formed, its encoding is 8 bytes long, and it decodes to the command. -/
def Statement (i : Instr) : Prop :=
  i.wellFormed = true ∧ (encode i).length = 8 ∧ decode (encode i) = .ok i ∧ decodeWord (encodeWord i) = .ok i

theorem encodeDelta : Statement .encodeDelta := by unfold Statement; decide

theorem applyDelta : Statement .applyDelta := by unfold Statement; decide

theorem compress : Statement .compress := by unfold Statement; decide

theorem decompress : Statement .decompress := by unfold Statement; decide

theorem mixedCompress : Statement .mixedCompress := by unfold Statement; decide

theorem mixedDecompress : Statement .mixedDecompress := by unfold Statement; decide

end Sys2Proof.Laws.RoundTrip
end

