-- ==== Sys2Proof/Laws/Step.lean ====
section
/-! SUPPORT. What one step can do: the engine's turn, or one event of another agent. -/

namespace Sys2Proof.Machine

theorem State.engineTurn_busy {s : State} {i : Instr} (h : s.eng = .busy) (hd : decode s.fetchBytes = .ok i) :
    s.engineTurn = exec i s := by
  have hf : s.fetch = .ok i := hd
  simp [State.engineTurn, h, hf]

/-- The engine's turn: at its own event, or where no other agent moves. -/
theorem step_engine {s : State} {es : List Event} (h : s.events = [] ∧ es = [] ∨ s.events = .engine :: es) :
    step s = (s.withEvents es).engineTurn := by
  rcases h with ⟨h1, rfl⟩ | h1
  · simp only [step, h1]
    congr 1
    cases s
    simp_all [State.withEvents]
  · simp only [step, h1]

/-- The step of another agent. -/
theorem step_agent {s : State} {e : Event} {es : List Event} (h : s.events = e :: es) (he : e ≠ .engine) :
    step s = .next ((s.withEvents es).agentEvent e) := by
  cases e <;> simp_all [step]

/-- Everything a step can do: nothing, where the engine is idle at its turn; the fault of a latched reserved opcode;
the running command's *complete* step; or one event of another agent. -/
theorem step_cases (s : State) :
    (∃ e es, s.events = e :: es ∧ e ≠ .engine ∧ step s = .next ((s.withEvents es).agentEvent e)) ∨
    (∃ es, (s.events = [] ∧ es = [] ∨ s.events = .engine :: es) ∧
      (s.eng = .idle ∧ step s = .next (s.withEvents es) ∨
       s.eng = .busy ∧ (∃ i, s.latch.op = i.cmdWord.opcode ∧
          step s = .next ((s.withEvents es).complete i (earlyCheckOf i) (bodyOf i))) ∨
       s.eng = .busy ∧ (∀ i : Instr, s.latch.op ≠ i.cmdWord.opcode) ∧
          step s = .fault (.latchedReservedOpcode s.latch.op))) := by
  have turn : ∀ es, (s.events = [] ∧ es = [] ∨ s.events = .engine :: es) →
      (s.eng = .idle ∧ step s = .next (s.withEvents es) ∨
       s.eng = .busy ∧ (∃ i, s.latch.op = i.cmdWord.opcode ∧
          step s = .next ((s.withEvents es).complete i (earlyCheckOf i) (bodyOf i))) ∨
       s.eng = .busy ∧ (∀ i : Instr, s.latch.op ≠ i.cmdWord.opcode) ∧
          step s = .fault (.latchedReservedOpcode s.latch.op)) := by
    intro es h
    rw [step_engine h]
    have hl : (s.withEvents es).fetch = decodeOpcode s.latch.op := (s.withEvents es).fetch_eq
    cases he : s.eng with
    | idle => left; simp [State.engineTurn, State.withEvents, he]
    | busy =>
      right
      have hb : (s.withEvents es).eng = .busy := he
      cases hd : decodeOpcode s.latch.op with
      | ok i =>
        refine .inl ⟨rfl, i, decodeOpcode_iff.mp hd, ?_⟩
        rw [State.engineTurn_busy hb (i := i) (hl.trans hd), exec_eq]
      | error e =>
        refine .inr ⟨rfl, fun i hi => ?_, ?_⟩
        · rw [decodeOpcode_iff.mpr hi] at hd; cases hd
        · simp [State.engineTurn, he, hl, hd]
  cases hv : s.events with
  | nil => exact .inr ⟨[], .inl ⟨rfl, rfl⟩, turn [] (.inl ⟨hv, rfl⟩)⟩
  | cons e es =>
    by_cases he : e = .engine
    · subst he; exact .inr ⟨es, .inr rfl, turn es (.inr hv)⟩
    · exact .inl ⟨e, es, rfl, he, step_agent hv he⟩

end Sys2Proof.Machine
end

