-- ==== Sys2Proof/Machine/HostNotation.lean ====
section
/-! DEFINITION. The host notation of 30_encoding.md R75: each form is the list of transactions it expands to. -/

namespace Sys2Proof.Machine

/-- `wr OFF, V` (R75). -/
def hostWr (c : Config) (off : Nat) (v : Word) : List Event :=
  [.mmio ⟨c.mmioBase + BitVec.ofNat 64 off, 8, 1, .write v⟩]

/-- `rd OFF` (R75). -/
def hostRd (c : Config) (off : Nat) : List Event := [.mmio ⟨c.mmioBase + BitVec.ofNat 64 off, 8, 1, .read⟩]

/-- `mem ADDR := [b0, b1, ...]` (R75). -/
def hostMemSet (addr : Nat) : Bytes → List Event
  | [] => []
  | b :: bs => .memWrite (BitVec.ofNat 64 addr) b :: hostMemSet (addr + 1) bs

/-- `mem ADDR ? n` (R75). -/
def hostMemGet (addr n : Nat) : List Event :=
  (List.range n).map fun i => .memRead (BitVec.ofNat 64 (addr + i))

/-- The offset of a region's address register (10_state.md R20). -/
def addrOffset : RegionName → Nat
  | .src0 => 0x28
  | .src1 => 0x38
  | .dst => 0x48
  | .scr => 0x58

/-- `SETUP s, A, N` (R75). -/
def hostSetup (c : Config) (s : RegionName) (addr len : Word) : List Event :=
  hostWr c (addrOffset s) addr ++ hostWr c (addrOffset s + 8) len

/-- The six command names: `wr 0x18` of the command word (R75). -/
def hostCommand (c : Config) (i : Instr) : List Event := hostWr c 0x18 (encodeWord i)

/-- `poll OFF, MASK, VAL` that reads `k` times in vain, then gives the engine its turn and reads once more. The loop
itself is the host's (R75, 40_command_interface.md R103); how often it turns is left open (R245). -/
def hostPoll (c : Config) (off k : Nat) : List Event :=
  (List.replicate k (hostRd c off)).flatten ++ .engine :: hostRd c off

/-- `WAIT` (R75): a poll of STATUS. -/
def hostWait (c : Config) (k : Nat) : List Event := hostPoll c 0x20 k

/-- `ACK` (R75): clear DONE. -/
def hostAck (c : Config) : List Event := hostWr c 0x20 0x2

end Sys2Proof.Machine
end

