-- ==== Sys2Proof/Tests/Slice0.lean ====
section
/-! SUPPORT. Tests. Expected results are those of 95_test_vectors.md, or are written out from the rule a comment names. The
last part has one witness for each statement that has hypotheses. -/

namespace Sys2Proof.Tests

open Sys2Proof.Machine

/-! ### Small states -/

/-- The default configuration, fitted with LIT_ENC (95_test_vectors.md, notation). -/
def litConfig : Config := { Config.standard with encoder := .litEnc }

/-- The argument registers of most test vectors: SRC0, SRC1, DST and SCR at 0x1000, 0x2000, 0x3000 and 0x4000. -/
def argsOf (n0 n1 n2 n3 : Nat) : Args :=
  ⟨⟨0x1000, BitVec.ofNat 64 n0⟩, ⟨0x2000, BitVec.ofNat 64 n1⟩, ⟨0x3000, BitVec.ofNat 64 n2⟩,
    ⟨0x4000, BitVec.ofNat 64 n3⟩⟩

/-- A block that runs a command. -/
def running (i : Instr) (a : Args) (m : List Host.Cell) : State :=
  { State.resetWith litConfig with
    cmd := encodeWord i, eng := .busy, lastOp := i.cmdWord.opcode, latch := ⟨i.cmdWord.opcode, a⟩, mem := m }

/-- Memory with two byte sequences in place. -/
def memOf (a : Nat) (x : Bytes) (b : Nat) (y : Bytes) : List Host.Cell :=
  memWriteBytes (memWriteBytes [] a x) b y

/-- What a test reads of the end of a command: ERR, RESULT_LEN, RESULT_AUX and ERR_INFO. -/
def ending (o : Host.Outcome State Fault Refusal) : Option (ErrCode × Word × Word × Word) :=
  match o with
  | .next t => some (t.err, t.resultLen, t.resultAux, t.errInfo)
  | _ => none

/-- The bytes an outcome leaves at an address. -/
def bytesAfter (o : Host.Outcome State Fault Refusal) (a n : Nat) : Option Bytes :=
  match o with
  | .next t => some (memBytes t.mem a n)
  | _ => none

/-- The engine state and the STATUS word of an outcome. -/
def statusAfter (o : Host.Outcome State Fault Refusal) : Option (Eng × Word) :=
  match o with
  | .next t => some (t.eng, t.statusWord)
  | _ => none

/-- The previous and the current frame of the source's example (vector L1-1), its delta stream (E-1) and that stream
compressed (V-C1). -/
def prevFrame : Bytes := [1, 2, 3, 4, 5, 6, 7, 8]
def curFrame : Bytes := [1, 2, 3, 4, 8, 7, 6, 5]
def exampleDelta : Bytes := [0x80, 1, 2, 3, 8, 7, 6]
def examplePacked : Bytes := [7, 0, 0, 0, 0x70, 0x80, 1, 2, 3, 8, 7, 6]

/-! ### Decoding: the words of 30_encoding.md R71, bit by bit -/

theorem test_decode_encode_delta : decodeWord 0x0000000000000001#64 = .ok .encodeDelta := by decide

theorem test_decode_apply_delta : decodeWord 0x0000000000000002#64 = .ok .applyDelta := by decide

theorem test_decode_compress : decodeWord 0x0000000000000003#64 = .ok .compress := by decide

theorem test_decode_decompress : decodeWord 0x0000000000000004#64 = .ok .decompress := by decide

theorem test_decode_mixed_compress : decodeWord 0x0000000000000005#64 = .ok .mixedCompress := by decide

theorem test_decode_mixed_decompress : decodeWord 0x0000000000000006#64 = .ok .mixedDecompress := by decide

/-- The bytes of a command word, least significant first (20_memory.md R53), and of one that is a byte short. -/
theorem test_decode_bytes :
    decode [3, 0, 0, 0, 0, 0, 0, 0] = .ok .compress ∧ decode [0, 0, 0, 0, 0, 0, 0, 3] = .error .reservedBits ∧
      decode [3, 0, 0, 0, 0, 0, 0] = .error .wrongLength := by decide

/-! ### Well-formedness: one ill-formed term for each check -/

theorem test_wellFormed_refuses_reserved_bits : CmdWord.wellFormed ⟨0x01, 1⟩ = false := by decide

theorem test_wellFormed_refuses_opcode_zero : CmdWord.wellFormed ⟨0x00, 0⟩ = false := by decide

theorem test_wellFormed_refuses_opcode_seven : CmdWord.wellFormed ⟨0x07, 0⟩ = false := by decide

theorem test_wellFormed_refuses_narrow_access : MmioAccess.wellFormed ⟨0x10, 4, 1, .read⟩ 0x10 = false := by decide

theorem test_wellFormed_refuses_burst : MmioAccess.wellFormed ⟨0x10, 8, 2, .read⟩ 0x10 = false := by decide

theorem test_wellFormed_refuses_misaligned : MmioAccess.wellFormed ⟨0x14, 8, 1, .read⟩ 0x14 = false := by decide

theorem test_wellFormed_refuses_past_the_window : MmioAccess.wellFormed ⟨0x100, 8, 1, .read⟩ 0x100 = false := by
  decide

theorem test_wellFormed_admits_every_command (i : Instr) : i.wellFormed = true := by cases i <;> decide

/-! ### ENCODE_DELTA -/

def encState : State := running .encodeDelta (argsOf 8 8 64 0) (memOf 0x1000 prevFrame 0x2000 curFrame)

/-- Vector L1-1. -/
theorem test_encode_example :
    ending (exec .encodeDelta encState) = some (.none, 7, 1, 0) ∧
      bytesAfter (exec .encodeDelta encState) 0x3000 8 = some (exampleDelta ++ [0]) := by decide +kernel

/-- Vector K-3. -/
theorem test_encode_overflow :
    ending (exec .encodeDelta { encState with latch := ⟨0x01, argsOf 8 8 6 0⟩ }) = some (.dstOverflow, 0, 0, 7) := by
  decide +kernel

/-- Vectors E-4, E-7 and E-9. -/
theorem test_encode_streams :
    encodeDelta prevFrame [1, 2, 3, 9, 5, 6, 7, 0] = ([0x00], 0) ∧
    encodeDelta (List.replicate 24 0) (List.replicate 16 0 ++ [10, 11, 12, 13, 14, 15, 16, 17]) =
      ([0x20, 10, 11, 12, 14, 15, 16], 1) ∧
    encodeDelta (List.replicate 8 0) [0xFF, 0, 0, 0, 0, 0, 0, 0] = ([0x80, 0xFF, 0, 0, 0, 0, 0], 1) := by decide

/-! ### APPLY_DELTA -/

def applyState : State := running .applyDelta (argsOf 7 0 8 0) (memOf 0x1000 exampleDelta 0x3000 prevFrame)

/-- Vector V-A1. -/
theorem test_apply_example :
    ending (exec .applyDelta applyState) = some (.none, 7, 1, 0) ∧
      bytesAfter (exec .applyDelta applyState) 0x3000 8 = some [1, 2, 3, 4, 8, 7, 6, 8] := by decide +kernel

/-- Vector A-4. -/
theorem test_apply_truncated :
    ending (exec .applyDelta { applyState with latch := ⟨0x02, argsOf 4 0 8 0⟩ }) =
      some (.deltaTruncated, 0, 0, 0) := by decide +kernel

/-- Vectors A-5, A-6, A-7 and A-12. -/
theorem test_parse_errors :
    parseDelta [0x00, 0x80, 1, 2, 3, 4, 5, 6] 16 = .error ⟨.bufTooSmall, 8⟩ ∧
    parseDelta [0x40, 1, 2, 3, 4, 5, 6] 12 = .error ⟨.bufTooSmall, 1⟩ ∧
    parseDelta [0xC0, 1, 2, 3, 4, 5, 6] 8 = .error ⟨.deltaTruncated, 0⟩ ∧
    parseDelta [0x80, 1, 2, 3, 4, 5, 6, 0x00, 0xFF] 8 = .error ⟨.deltaTruncated, 8⟩ := by decide

/-! ### COMPRESS -/

def compState : State := running .compress (argsOf 7 0 64 0) (memOf 0x1000 exampleDelta 0x3000 [])

/-- Vector V-C1. -/
theorem test_compress_example :
    ending (exec .compress compState) = some (.none, 12, 7, 0) ∧
      bytesAfter (exec .compress compState) 0x3000 12 = some examplePacked := by decide +kernel

/-- Vector K-11. -/
theorem test_compress_overflow :
    ending (exec .compress { compState with latch := ⟨0x03, argsOf 0 0 4 0⟩ }) = some (.dstOverflow, 0, 0, 5) := by
  decide +kernel

/-- Vectors C-3 and C-4. -/
theorem test_litEnc_lengths :
    litEnc (List.replicate 14 9) = 0xE0 :: List.replicate 14 9 ∧
    litEnc (List.replicate 15 9) = 0xF0 :: 0x00 :: List.replicate 15 9 := by decide

/-! ### DECOMPRESS -/

def decompState : State := running .decompress (argsOf 12 0 7 0) (memOf 0x1000 examplePacked 0x3000 [])

/-- Vector V-C2. -/
theorem test_decompress_example :
    ending (exec .decompress decompState) = some (.none, 7, 0, 0) ∧
      bytesAfter (exec .decompress decompState) 0x3000 7 = some exampleDelta := by decide +kernel

/-- Vector D-3. -/
theorem test_decompress_short :
    ending (exec .decompress { decompState with latch := ⟨0x04, argsOf 3 0 100 0⟩ }) = some (.entropy, 0, 0, 1) := by
  decide +kernel

/-- Vectors D-9, D-10, D-12, D-13 and D-16. -/
theorem test_lz4 :
    lz4Decode [0x10, 0x61, 0x01, 0x00, 0x00] 5 = some (List.replicate 5 0x61) ∧
    lz4Decode [0x10, 0x61, 0x00, 0x00, 0x00] 5 = none ∧ lz4Decode [0x10, 0x61, 0x01, 0x00] 5 = none ∧
    lz4Decode [0x20, 0x61, 0x62, 0x02, 0x00, 0x00] 6 = some [0x61, 0x62, 0x61, 0x62, 0x61, 0x62] ∧
    lz4Decode [0x10, 0x61, 0x01, 0x00, 0x00] 3 = none := by decide

/-! ### MIXED_COMPRESS -/

def mixCompState : State := running .mixedCompress (argsOf 8 8 64 16) (memOf 0x1000 prevFrame 0x2000 curFrame)

/-- Vector V-M1. -/
theorem test_mixed_compress_example :
    ending (exec .mixedCompress mixCompState) = some (.none, 12, 1, 0) ∧
      (mixedCompressBody (argsOf 8 8 64 16) (mixCompState.port false 0)).2.mem =
        memWriteBytes (memWriteBytes mixCompState.mem 0x4000 exampleDelta) 0x3000 examplePacked := by decide +kernel

/-- Vector K-12. -/
theorem test_mixed_compress_overflow :
    ending (exec .mixedCompress { mixCompState with latch := ⟨0x05, argsOf 8 8 64 6⟩ }) =
      some (.scrOverflow, 0, 0, 7) := by decide +kernel

/-! ### MIXED_DECOMPRESS -/

def mixDecompState : State := running .mixedDecompress (argsOf 12 0 8 16) (memOf 0x1000 examplePacked 0x3000 prevFrame)

/-- Vector V-M2. -/
theorem test_mixed_decompress_example :
    ending (exec .mixedDecompress mixDecompState) = some (.none, 7, 1, 0) ∧
      memBytes (mixedDecompressBody (argsOf 12 0 8 16) (mixDecompState.port false 0)).2.mem 0x3000 8 =
        [1, 2, 3, 4, 8, 7, 6, 8] := by decide +kernel

/-- Vector K-15. -/
theorem test_mixed_decompress_overflow :
    ending (exec .mixedDecompress { mixDecompState with latch := ⟨0x06, argsOf 12 0 8 6⟩ }) =
      some (.scrOverflow, 0, 0, 7) := by decide +kernel

/-! ### Steps of the machine -/

/-- Vector K-5, phase A: the pair (SRC1, DST) is reported as 0x12. -/
theorem test_overlap_info :
    checkOverlap (usedRegions .encodeDelta) ⟨⟨0x1000, 8⟩, ⟨0x2000, 8⟩, ⟨0x1FFF, 2⟩, .zero⟩ = some ⟨.overlap, 0x12⟩ := by
  decide

/-- Vectors K-7 and K-9: a region may end at the top of memory space and not pass it. -/
theorem test_region_at_the_top :
    checkRegions (usedRegions .encodeDelta) ⟨⟨0xFFFFFFFFFFFFFFF8, 16⟩, ⟨0x2000, 16⟩, ⟨0x3000, 64⟩, .zero⟩ =
        some ⟨.region, 0⟩ ∧
      checkRegions (usedRegions .encodeDelta)
        ⟨⟨0xFFFFFFFFFFFFFFF8, 8⟩, ⟨0xFFFFFFFFFFFFFFF8, 8⟩, ⟨0x3000, 8⟩, .zero⟩ = none := by decide

/-- Each row of the opcode table, placed after reset, runs at the very next step: its regions are all empty, so the
result of 41_delta_stage.md R126 and R129 and of 42_entropy_stage.md R155 follows. -/
theorem test_placed_rows_run :
    statusAfter (step (State.reset.withFetchWord 64 1)) = some (.idle, 0x10002) ∧
    statusAfter (step (State.reset.withFetchWord 64 2)) = some (.idle, 0x20002) ∧
    statusAfter (step (State.reset.withFetchWord 64 4)) = some (.idle, 0x40802) ∧
    statusAfter (step (State.reset.withFetchWord 64 6)) = some (.idle, 0x60802) := by decide +kernel

/-- A word that is no command is rejected by the next step (40_command_interface.md R93). -/
theorem test_placed_illegal_word :
    statusAfter (step (State.reset.withFetchWord 64 0x101)) = some (.idle, 0x10102) := by decide +kernel

/-- The host notation of program PRG-1's first lines: SETUP, a command, WAIT (30_encoding.md R75). -/
def hostProgram : List Event :=
  hostSetup litConfig .src0 0x1000 0 ++ hostSetup litConfig .dst 0x3000 0 ++ hostCommand litConfig .applyDelta ++
    hostWait litConfig 0 ++ hostAck litConfig

/-- Its last reads: STATUS after the command has ended, then the answer to ACK. -/
theorem test_host_program :
    (match core.run 8 { State.resetWith litConfig with events := hostProgram } with
      | .next t => some (t.replies.drop 5, t.statusWord)
      | _ => none) = some ([.data 0x20002, .written], 0x20000) := by decide +kernel

/-- The interrupt follows DONE and IRQ_EN (10_state.md R38). -/
theorem test_irq :
    ({ State.reset with done := true, irqEn := true }).irq = true ∧ ({ State.reset with done := true }).irq = false ∧
      ({ State.reset with irqEn := true }).irq = false := by decide

/-! ### Witnesses: states that meet the hypotheses of the statements -/

/-- The regions of `argsOf` do not pass the top of memory space and share no byte, where none is longer than 4096. -/
theorem argsOf_fit (i : Instr) {n0 n1 n2 n3 : Nat} (h : n0 ≤ 4096 ∧ n1 ≤ 4096 ∧ n2 ≤ 4096 ∧ n3 ≤ 4096) :
    RegionsFit i (argsOf n0 n1 n2 n3) := by
  intro r _
  cases r <;> simp [Args.region, argsOf] <;> omega

theorem argsOf_apart (i : Instr) {n0 n1 n2 n3 : Nat} (h : n0 ≤ 4096 ∧ n1 ≤ 4096 ∧ n2 ≤ 4096 ∧ n3 ≤ 4096) :
    RegionsApart i (argsOf n0 n1 n2 n3) := by
  intro r _ q _ hne hq x hx
  have e (n : Nat) : (BitVec.ofNat 64 n).toNat = n % 2 ^ 64 := BitVec.toNat_ofNat n 64
  rw [Region.holds_iff] at hx
  rw [← Bool.not_eq_true, Region.holds_iff]
  cases r <;> cases q <;> simp [Args.region, argsOf, Region.base, Region.size] at hne hq hx ⊢ <;> omega

/-- A configuration that refuses nothing admits every access. -/
theorem admits_open {c : Config} (h : c.refusedReads = [] ∧ c.refusedWrites = []) (k : AccessKind) (a : Nat) :
    admits c k a = true := by
  cases k <;> simp [admits, h]

theorem admitted_open (k : AccessKind) (b n : Nat) : Admitted litConfig k b n :=
  fun x _ _ => admits_open ⟨rfl, rfl⟩ k x

theorem quiet_running (i : Instr) (a : Args) (m : List Host.Cell) : Quiet i (running i a m) :=
  ⟨rfl, by cases i <;> rfl⟩

/-- The block of the test vectors, about to be written to. -/
def idleWith (es : List Event) : State := { State.resetWith litConfig with events := es }

/-- A block that runs APPLY_DELTA of the source's example, with events to come. -/
def busyWith (es : List Event) : State := { applyState with events := es }

/-- An MMIO write of one register. -/
def wr (off : Word) (w : Word) : Event := .mmio ⟨off, 8, 1, .write w⟩

/-- An MMIO read of one register. -/
def rd (off : Word) : Event := .mmio ⟨off, 8, 1, .read⟩

theorem witness_StepRunsTheDecodedCommand :
    ((busyWith []).events = [] ∧ (busyWith []).eng = .busy ∧ decode (busyWith []).fetchBytes = .ok .applyDelta) ∧
    ((busyWith [.engine, .reset]).events = .engine :: [.reset] ∧ (busyWith [.engine, .reset]).eng = .busy ∧
      decode (busyWith [.engine, .reset]).fetchBytes = .ok .applyDelta) ∧
    Instr.wellFormed .applyDelta = true := by decide

theorem witness_WrittenCommandRunsAtTheEnginesTurn :
    let a : MmioAccess := ⟨0x18, 8, 1, .write (encodeWord .compress)⟩
    (idleWith [.mmio a, .engine]).eng = .idle ∧ (idleWith [.mmio a, .engine]).events = .mmio a :: .engine :: [] ∧
      a.width = 8 ∧ a.beats = 1 ∧ windowOffset litConfig a.addr = 0x18 := by decide

theorem witness_LegalCommandWordStarts :
    State.reset.eng = .idle ∧
      ((0x1#64).extractLsb' 8 56 = 0 ∧ 1 ≤ ((0x1#64).extractLsb' 0 8).toNat ∧ ((0x1#64).extractLsb' 0 8).toNat ≤ 6) ∧
      (0x6#64).extractLsb' 8 56 = 0 ∧ 1 ≤ ((0x6#64).extractLsb' 0 8).toNat ∧ ((0x6#64).extractLsb' 0 8).toNat ≤ 6 := by
  decide

theorem witness_IllegalCommandWordIsRejected :
    State.reset.eng = .idle ∧ (0x100#64).extractLsb' 8 56 ≠ 0 ∧ ((0x0#64).extractLsb' 0 8).toNat = 0 ∧
      6 < ((0x7#64).extractLsb' 0 8).toNat := by decide

theorem witness_CommandWriteWhileBusyIsDropped : (busyWith []).eng = .busy := by decide

theorem witness_OnlyALegalCommandWriteStartsTheEngine :
    (idleWith [wr 0x18 0x1]).eng = .idle ∧
      ∃ t, step (idleWith [wr 0x18 0x1]) = .next t ∧ t.eng = .busy := by
  exact ⟨by decide, _, rfl, by decide⟩

theorem witness_OnlyCompletionOrResetEndsACommand :
    ((busyWith []).eng = .busy ∧ ∃ t, step (busyWith []) = .next t ∧ t.eng = .idle) ∧
    ((busyWith [.reset]).eng = .busy ∧ ∃ t, step (busyWith [.reset]) = .next t ∧ t.eng = .idle) := by
  exact ⟨⟨by decide, _, rfl, by decide +kernel⟩, by decide, _, rfl, by decide +kernel⟩

theorem witness_OnlyAStartOrAResetWritesTheLatch :
    (∃ t, step (idleWith [wr 0x18 0x1]) = .next t) ∧ ∃ t, step (busyWith []) = .next t :=
  ⟨⟨_, rfl⟩, _, rfl⟩

theorem witness_IdentificationRegistersAreConstant : State.reset.cfg.codecId = 1 := by decide

theorem witness_ArgumentRegistersHoldWhatIsWritten :
    (0x28 ∈ [0x28, 0x30, 0x38, 0x40, 0x48, 0x50, 0x58, 0x60] ∧ 0x20 ≠ 0x28) ∧
      0x60 ∈ [0x28, 0x30, 0x38, 0x40, 0x48, 0x50, 0x58, 0x60] ∧ 0x68 ≠ 0x60 := by decide

theorem witness_ReservedAndReadOnlyWritesAreIgnored :
    0x80 ≤ 0x80 ∧ 0x80 ≤ 0xF8 ∧ 0x00 ∈ [0x00, 0x08, 0x68, 0x70, 0x78] ∧ 0x78 ∈ [0x00, 0x08, 0x68, 0x70, 0x78] := by
  decide

/-- A narrow access, a burst, a misaligned one and one just past the window. -/
theorem witness_UndefinedAccessOnlyAnswersAnError :
    ∀ a ∈ [(⟨0x20, 4, 1, .read⟩ : MmioAccess), ⟨0x20, 8, 2, .read⟩, ⟨0x1C, 8, 1, .write 1⟩, ⟨0x100, 8, 1, .read⟩],
      (idleWith [.mmio a]).events = .mmio a :: [] ∧
        (a.width ≠ 8 ∨ a.beats ≠ 1 ∨ windowOffset litConfig a.addr % 8 ≠ 0 ∨ 0xF8 < windowOffset litConfig a.addr) := by
  decide

/-- The first and the last offset, STATUS after a completion, and a busy block. -/
theorem witness_HostAccessesReachTheirRegister :
    (∀ a ∈ [(⟨0x00, 8, 1, .read⟩ : MmioAccess), ⟨0xF8, 8, 1, .read⟩, ⟨0x20, 8, 1, .read⟩],
      a.width = 8 ∧ a.beats = 1 ∧ windowOffset litConfig a.addr % 8 = 0 ∧ windowOffset litConfig a.addr ≤ 0xF8) ∧
      ({ idleWith [rd 0x20] with done := true }).events = rd 0x20 :: [] ∧
      ({ idleWith [rd 0x20] with done := true }).eng = .idle ∧ (busyWith [rd 0xF8]).events = rd 0xF8 :: [] ∧
      (busyWith [rd 0xF8]).eng = .busy ∧ (busyWith [wr 0x00 1]).events = .mmio ⟨0x00, 8, 1, .write 1⟩ :: [] ∧
      (busyWith [wr 0xF8 1]).events = .mmio ⟨0xF8, 8, 1, .write 1⟩ :: [] := by decide

theorem witness_InterruptFollowsDoneAndEnable :
    (∃ t, exec .applyDelta applyState = .next t) ∧ ({ State.reset with done := true }).done = true ∧
      (busyWith [.irqSample]).events = .irqSample :: [] ∧ ((busyWith [.irqSample]).done && State.reset.irqEn) = false :=
  ⟨⟨_, rfl⟩, rfl, rfl, rfl⟩

theorem witness_ResetLeavesTheTable :
    0x10 ≤ 0x10 ∧ (idleWith [.reset]).events = .reset :: [] ∧ (idleWith [.reset]).eng = .idle ∧
      (busyWith [.reset]).events = .reset :: [] ∧ (busyWith [.reset]).eng = .busy := by decide

theorem witness_ResetAbandonsARunningCommand :
    (busyWith [.reset]).events = .reset :: [] ∧ (busyWith [.reset]).eng = .busy ∧
      decode (busyWith [.reset]).fetchBytes = .ok .applyDelta := by decide

theorem inv_reset : State.reset.Inv := by
  refine ⟨rfl, rfl, ⟨by decide, by decide, by decide⟩, ?_, nofun, fun _ => rfl⟩
  exact show State.reset.err = .none ∨ _ from .inl rfl

theorem inv_apply : applyState.Inv := by
  refine ⟨by decide +kernel, by decide, ⟨by decide, by decide, by decide⟩, ?_, fun _ => ?_, nofun⟩
  · exact show applyState.err = .none ∨ _ from .inl rfl
  · exact ⟨by decide, ⟨.applyDelta, by decide⟩, rfl, rfl, rfl, rfl, rfl⟩

theorem inv_busy (es : List Event) : (busyWith es).Inv := by
  have hc : (busyWith es).cmd = (busyWith es).latch.op.zeroExtend 64 :=
    (by decide : applyState.cmd = applyState.latch.op.zeroExtend 64)
  have hd : decodeWord (busyWith es).cmd = .ok .applyDelta := (by decide : decodeWord applyState.cmd = _)
  refine ⟨inv_apply.1, inv_apply.2.1, inv_apply.2.2.1, ?_, fun _ => ?_, nofun⟩
  · simp only [State.errIsPossible, hd]
    exact .inl rfl
  · exact ⟨hc, ⟨_, hd⟩, rfl, rfl, rfl, rfl, rfl⟩

theorem witness_EveryStepKeepsTheInvariant :
    (State.reset.Inv ∧ ∃ t, step State.reset = .next t) ∧
      (busyWith []).Inv ∧ ∃ t, step (busyWith []) = .next t :=
  ⟨⟨inv_reset, _, rfl⟩, inv_busy [], _, rfl⟩

theorem witness_NoStepStops : State.reset.Inv ∧ (busyWith []).Inv := ⟨inv_reset, inv_busy []⟩

theorem witness_RunningCommandEndsInBoundedSteps :
    (busyWith [rd 0x20]).Inv ∧ (busyWith [rd 0x20]).eng = .busy := ⟨inv_busy _, rfl⟩

theorem witness_CanonicalMemoriesThatReadAlikeAreEqual :
    memWf [(3, 1#8)] = true ∧ memWf (memWrite [] 3 1) = true ∧
      ∀ a, memRead [(3, 1#8)] a = memRead (memWrite [] 3 1) a := ⟨by decide, by decide, fun _ => rfl⟩

theorem witness_CommandsWriteOnlyTheirMayWriteSet (i : Instr) :
    (∃ t, exec i (running i (argsOf 8 8 64 16) []) = .next t) ∧
      inSpans (maySpans i (argsOf 8 8 64 16)) 0x1000 = false := by
  refine ⟨⟨_, exec_eq i _⟩, ?_⟩
  cases i <;> decide

theorem witness_CompletionDependsOnlyOnTheLatch :
    let s' := { applyState with irqEn := true, args := argsOf 1 2 3 4, cmdDropped := true }
    applyState.cfg = s'.cfg ∧ applyState.latch = s'.latch ∧ applyState.mem = s'.mem ∧
      applyState.hazard = s'.hazard ∧ applyState.draws = s'.draws ∧ (∃ t, exec .applyDelta applyState = .next t) ∧
      ∃ t', exec .applyDelta s' = .next t' :=
  ⟨rfl, rfl, rfl, rfl, rfl, ⟨_, rfl⟩, _, rfl⟩

theorem witness_RegionCheckReportsTheFirstThatPassesTheTop :
    ((argsOf 0 8 8 8).region .src0).len = 0 ∧
      ((⟨⟨0xFFFFFFFFFFFFFFFF, 0⟩, .zero, .zero, .zero⟩ : Args).region .src0).len = 0 := by decide

/-- Vector K-6: OVERLAP of DST and SCR, memory unchanged. -/
theorem test_k6 :
    let s := running .mixedCompress ⟨⟨0x1000, 8⟩, ⟨0x2000, 8⟩, ⟨0x3000, 16⟩, ⟨0x300F, 16⟩⟩
      (memOf 0x300F [7] 0x1000 prevFrame)
    (match exec .mixedCompress s with
      | .next t => t.mem == s.mem && t.statusWord == 0x50302#64 && t.errInfo == 0x23#64
      | _ => false) = true := by decide +kernel

/-- A region that passes the top of memory space, vector K-6, and vector K-1: one state for each check. -/
theorem witness_PhaseAErrorLeavesMemoryUnchanged :
    (∀ i a m, Quiet i (running i a m)) ∧
    checkRegions (usedRegions .compress) ⟨⟨0xFFFFFFFFFFFFFFFF, 2⟩, .zero, .zero, .zero⟩ = some ⟨.region, 0⟩ ∧
    (let a : Args := ⟨⟨0x1000, 8⟩, ⟨0x2000, 8⟩, ⟨0x3000, 16⟩, ⟨0x300F, 16⟩⟩
     checkRegions (usedRegions .mixedCompress) a = none ∧
      checkOverlap (usedRegions .mixedCompress) a = some ⟨.overlap, 0x23⟩) ∧
    checkRegions (usedRegions .encodeDelta) (argsOf 8 16 64 0) = none ∧
      checkOverlap (usedRegions .encodeDelta) (argsOf 8 16 64 0) = none ∧
      earlyCheckOf .encodeDelta (argsOf 8 16 64 0) = some ⟨.geometry, 0⟩ :=
  ⟨quiet_running, by decide, by decide, by decide, by decide, by decide⟩

/-- Lengths that differ (K-1), and equal ones that are no whole number of pairs (K-2). -/
theorem witness_MismatchedFramesAreRejected :
    ∀ a ∈ [argsOf 8 16 64 16, argsOf 12 12 64 16],
      Quiet .encodeDelta (running .encodeDelta a []) ∧ Quiet .mixedCompress (running .mixedCompress a []) ∧
        RegionsFit .mixedCompress a ∧ RegionsApart .mixedCompress a ∧ RegionsFit .encodeDelta a ∧
        RegionsApart .encodeDelta a ∧ ¬ FramesMatch a := by
  intro a ha
  refine ⟨quiet_running _ _ _, quiet_running _ _ _, ?_⟩
  simp only [List.mem_cons, List.not_mem_nil, or_false] at ha
  rcases ha with rfl | rfl <;>
    exact ⟨argsOf_fit _ (by omega), argsOf_apart _ (by omega), argsOf_fit _ (by omega), argsOf_apart _ (by omega),
      by unfold FramesMatch; decide⟩

/-- Vector K-10, at the first length refused. -/
theorem witness_CompressRefusesWhatThePrefixCannotHold :
    let a : Args := ⟨⟨0, 0x100000000⟩, .zero, ⟨0x1000000000, 16⟩, .zero⟩
    Quiet .compress (running .compress a []) ∧ RegionsFit .compress a ∧ RegionsApart .compress a ∧
      2 ^ 32 ≤ a.src0.size := by
  refine ⟨quiet_running _ _ _, ?_, ?_, by decide⟩
  · intro r hr
    cases r
    all_goals simp [Args.region, Region.zero]
  · intro r hr q hq hne hc x hx
    rw [Region.holds_iff] at hx
    rw [← Bool.not_eq_true, Region.holds_iff]
    cases r <;> cases q <;> simp [usedRegions, Args.region, Region.base, Region.size] at hr hq hne hc hx ⊢
    omega

theorem witness_EncodedStreamIsItsGroups : prevFrame.length = 8 * 1 ∧ curFrame.length = 8 * 1 := by decide

theorem witness_EncodedStreamLength : prevFrame.length = 8 * 1 ∧ curFrame.length = 8 * 1 := by decide

/-- Vector E-4: only the alpha bytes differ. -/
theorem witness_UnchangedFramesGiveTheMinimalStream :
    prevFrame.length = 8 * 1 ∧ ([1, 2, 3, 9, 5, 6, 7, 0] : Bytes).length = 8 * 1 ∧
      ∀ k j, k < 1 → j ∈ [0, 1, 2, 4, 5, 6] →
        byteAt prevFrame (8 * k + j) = byteAt [1, 2, 3, 9, 5, 6, 7, 0] (8 * k + j) := by
  refine ⟨rfl, rfl, fun k j hk hj => ?_⟩
  obtain rfl : k = 0 := by omega
  simp only [List.mem_cons, List.not_mem_nil, or_false] at hj
  rcases hj with rfl | rfl | rfl | rfl | rfl | rfl <;> decide

theorem witness_AlphaNeverAffectsTheStream :
    prevFrame.length = ([1, 2, 3, 0, 5, 6, 7, 0] : Bytes).length ∧
      ∀ x, x % 4 ≠ 3 → byteAt prevFrame x = byteAt [1, 2, 3, 0, 5, 6, 7, 0] x ∧
        byteAt curFrame x = byteAt [1, 2, 3, 7, 8, 7, 6, 7] x := by
  refine ⟨rfl, fun x hx => ?_⟩
  match x with
  | 0 | 1 | 2 | 4 | 5 | 6 => decide
  | 3 | 7 => exact absurd rfl hx
  | _ + 8 => exact ⟨rfl, rfl⟩

/-- The source's example, and vectors A-7 and A-5: a payload that is short, and a pair past the buffer. -/
theorem witness_ParsedRecordsFitAndAscend :
    parseDelta exampleDelta 8 = .ok [(0, [1, 2, 3, 8, 7, 6])] ∧
      parseDelta [0xC0, 1, 2, 3, 4, 5, 6] 8 = .error ⟨.deltaTruncated, 0⟩ ∧
      streamEntries [0xC0, 1, 2, 3, 4, 5, 6] = [⟨0, 0, 1⟩] ++ ⟨0, 1, 7⟩ :: [] ∧
      parseDelta [0x00, 0x80, 1, 2, 3, 4, 5, 6] 16 = .error ⟨.bufTooSmall, 8⟩ ∧
      streamEntries [0x00, 0x80, 1, 2, 3, 4, 5, 6] = [] ++ ⟨1, 8, 2⟩ :: [] := by decide

theorem witness_EncodeDeltaWritesTheStream :
    memWf encState.mem = true ∧ Quiet .encodeDelta encState ∧ RegionsFit .encodeDelta encState.latch.args ∧
      RegionsApart .encodeDelta encState.latch.args ∧ FramesMatch encState.latch.args ∧
      (∀ k b n, Admitted encState.cfg k b n) ∧
      (encodeDelta (regionBytes encState encState.latch.args.src0)
        (regionBytes encState encState.latch.args.src1)).1.length ≤ encState.latch.args.dst.size :=
  ⟨by decide +kernel, quiet_running _ _ _, argsOf_fit _ (by omega), argsOf_apart _ (by omega),
    by unfold FramesMatch; decide, admitted_open, by decide +kernel⟩

theorem witness_ApplyDeltaWritesTheRecords :
    memWf applyState.mem = true ∧ Quiet .applyDelta applyState ∧ RegionsFit .applyDelta applyState.latch.args ∧
      RegionsApart .applyDelta applyState.latch.args ∧ (∀ k b n, Admitted applyState.cfg k b n) ∧
      parseDelta (regionBytes applyState applyState.latch.args.src0) applyState.latch.args.dst.size =
        .ok [(0, [1, 2, 3, 8, 7, 6])] ∧ ∀ x, admits applyState.cfg .write x = true :=
  ⟨by decide +kernel, quiet_running _ _ _, argsOf_fit _ (by omega), argsOf_apart _ (by omega), admitted_open,
    by decide +kernel, admits_open ⟨rfl, rfl⟩ _⟩

theorem witness_CompressWritesPrefixAndBody :
    memWf compState.mem = true ∧ Quiet .compress compState ∧ RegionsFit .compress compState.latch.args ∧
      RegionsApart .compress compState.latch.args ∧ compState.latch.args.src0.size < 2 ^ 32 ∧
      (∀ k b n, Admitted compState.cfg k b n) ∧
      (leBytes 4 compState.latch.args.src0.size ++
        entropyEncode compState.cfg (regionBytes compState compState.latch.args.src0)).length ≤
          compState.latch.args.dst.size :=
  ⟨by decide +kernel, quiet_running _ _ _, argsOf_fit _ (by omega), argsOf_apart _ (by omega), by decide,
    admitted_open, by decide +kernel⟩

theorem witness_DecompressWritesTheDecodedBytes :
    memWf decompState.mem = true ∧ Quiet .decompress decompState ∧ RegionsFit .decompress decompState.latch.args ∧
      RegionsApart .decompress decompState.latch.args ∧ (∀ k b n, Admitted decompState.cfg k b n) ∧
      decompressBytes decompState.cfg (regionBytes decompState decompState.latch.args.src0)
        decompState.latch.args.dst.size .dstOverflow = .ok exampleDelta :=
  ⟨by decide +kernel, quiet_running _ _ _, argsOf_fit _ (by omega), argsOf_apart _ (by omega), admitted_open,
    by decide +kernel⟩

theorem witness_MixedCompressWritesTheCompressedStream :
    memWf mixCompState.mem = true ∧ Quiet .mixedCompress mixCompState ∧
      RegionsFit .mixedCompress mixCompState.latch.args ∧ RegionsApart .mixedCompress mixCompState.latch.args ∧
      FramesMatch mixCompState.latch.args ∧ (∀ k b n, Admitted mixCompState.cfg k b n) ∧
      encodeDelta (regionBytes mixCompState mixCompState.latch.args.src0)
        (regionBytes mixCompState mixCompState.latch.args.src1) = (exampleDelta, 1) ∧
      exampleDelta.length ≤ mixCompState.latch.args.scr.size ∧ exampleDelta.length < 2 ^ 32 ∧
      (leBytes 4 exampleDelta.length ++ entropyEncode mixCompState.cfg exampleDelta).length ≤
        mixCompState.latch.args.dst.size :=
  ⟨by decide +kernel, quiet_running _ _ _, argsOf_fit _ (by omega), argsOf_apart _ (by omega),
    by unfold FramesMatch; decide, admitted_open, by decide +kernel, by decide, by decide, by decide +kernel⟩

theorem witness_MixedDecompressWritesTheRecords :
    memWf mixDecompState.mem = true ∧ Quiet .mixedDecompress mixDecompState ∧
      RegionsFit .mixedDecompress mixDecompState.latch.args ∧
      RegionsApart .mixedDecompress mixDecompState.latch.args ∧ (∀ k b n, Admitted mixDecompState.cfg k b n) ∧
      decompressBytes mixDecompState.cfg (regionBytes mixDecompState mixDecompState.latch.args.src0)
        mixDecompState.latch.args.scr.size .scrOverflow = .ok exampleDelta ∧
      parseDelta exampleDelta mixDecompState.latch.args.dst.size = .ok [(0, [1, 2, 3, 8, 7, 6])] ∧
      ∀ x, admits mixDecompState.cfg .write x = true :=
  ⟨by decide +kernel, quiet_running _ _ _, argsOf_fit _ (by omega), argsOf_apart _ (by omega), admitted_open,
    by decide +kernel, by decide +kernel, admits_open ⟨rfl, rfl⟩ _⟩

/-- Vectors K-3 and K-11: one byte too few. -/
theorem witness_OverflowReportsTheNeededLength :
    (let s := { encState with latch := ⟨0x01, argsOf 8 8 6 0⟩ }
     Quiet .encodeDelta s ∧ RegionsFit .encodeDelta s.latch.args ∧ RegionsApart .encodeDelta s.latch.args ∧
        FramesMatch s.latch.args ∧ (∀ k b n, Admitted s.cfg k b n) ∧
        s.latch.args.dst.size <
          (encodeDelta (regionBytes s s.latch.args.src0) (regionBytes s s.latch.args.src1)).1.length) ∧
    (let s := { compState with latch := ⟨0x03, argsOf 0 0 4 0⟩ }
     Quiet .compress s ∧ RegionsFit .compress s.latch.args ∧ RegionsApart .compress s.latch.args ∧
        s.latch.args.src0.size < 2 ^ 32 ∧ (∀ k b n, Admitted s.cfg k b n) ∧
        s.latch.args.dst.size <
          (leBytes 4 s.latch.args.src0.size ++ entropyEncode s.cfg (regionBytes s s.latch.args.src0)).length) :=
  ⟨⟨⟨rfl, rfl⟩, argsOf_fit _ (by omega), argsOf_apart _ (by omega),
      by unfold FramesMatch; decide, admitted_open, by decide +kernel⟩,
    ⟨rfl, rfl⟩, argsOf_fit _ (by omega), argsOf_apart _ (by omega), by decide,
    admitted_open, by decide +kernel⟩

/-- A frame of `2^38` bytes against itself: the third statement's TOO_LARGE, a stream of at least `2^32` bytes. -/
def hugeArgs : Args :=
  ⟨⟨0, 0x4000000000⟩, ⟨0, 0x4000000000⟩, ⟨0x100000000000, 16⟩, ⟨0x200000000000, 0x4000000000⟩⟩

theorem witness_OverflowReportsTheNeededLength_huge :
    let s := running .mixedCompress hugeArgs []
    memWf s.mem = true ∧ Quiet .mixedCompress s ∧ RegionsFit .mixedCompress s.latch.args ∧
      RegionsApart .mixedCompress s.latch.args ∧ FramesMatch s.latch.args ∧ (∀ k b n, Admitted s.cfg k b n) ∧
      (let D := encodeDelta (regionBytes s s.latch.args.src0) (regionBytes s s.latch.args.src1)
       D.1.length ≤ s.latch.args.scr.size ∧ 2 ^ 32 ≤ D.1.length) := by
  refine ⟨rfl, quiet_running _ _ _, ?_, ?_, by unfold FramesMatch; decide, admitted_open, ?_⟩
  · intro r _
    cases r <;> simp [running, hugeArgs, Args.region]
  · intro r hr q hq hne hc x hx
    rw [Region.holds_iff] at hx
    rw [← Bool.not_eq_true, Region.holds_iff]
    cases r <;> cases q <;>
      simp [running, hugeArgs, Args.region, Region.base, Region.size] at hne hc hx ⊢ <;> omega
  · have h := encodeDelta_length_bounds (memBytes [] 0 (2 ^ 38)) (memBytes [] 0 (2 ^ 38))
    rw [memBytes_length] at h
    have h2 : 2 ^ 32 ≤ (encodeDelta (memBytes [] 0 (2 ^ 38)) (memBytes [] 0 (2 ^ 38))).1.length := by omega
    exact ⟨h.2.trans (by decide), h2⟩

/-- Vectors K-12 and K-13: the third statement's SCR_OVERFLOW and DST_OVERFLOW. -/
theorem witness_OverflowReportsTheNeededLength_mixed :
    ∀ q ∈ [(64, 6), (11, 7)],
      let s := { mixCompState with latch := ⟨0x05, argsOf 8 8 q.1 q.2⟩ }
      memWf s.mem = true ∧ Quiet .mixedCompress s ∧ RegionsFit .mixedCompress s.latch.args ∧
        RegionsApart .mixedCompress s.latch.args ∧ FramesMatch s.latch.args ∧ (∀ k b n, Admitted s.cfg k b n) ∧
        encodeDelta (regionBytes s s.latch.args.src0) (regionBytes s s.latch.args.src1) = (exampleDelta, 1) ∧
        (s.latch.args.scr.size < 7 ∨
          s.latch.args.dst.size < (leBytes 4 7 ++ entropyEncode s.cfg exampleDelta).length) := by
  intro q hq
  simp only [List.mem_cons, List.not_mem_nil, or_false] at hq
  rcases hq with rfl | rfl <;>
    exact ⟨by decide +kernel, ⟨rfl, rfl⟩, argsOf_fit _ (by omega), argsOf_apart _ (by omega),
      by unfold FramesMatch; decide, admitted_open, by decide +kernel, by decide +kernel⟩

/-- A state that runs DECOMPRESS or MIXED_DECOMPRESS of a stream, with `cap` bytes for what it decodes to. -/
def decompOf (i : Instr) (Y : Bytes) (cap : Nat) : State :=
  running i (if i = .decompress then argsOf Y.length 0 cap 0 else argsOf Y.length 0 8 cap) (memOf 0x1000 Y 0x3000 [])

/-- Vectors D-3, D-8, D-4 and D-6, one for each clause, for both commands. -/
theorem witness_DecompressReportsTheFirstFailedCheck :
    ∀ i : Instr, i = .decompress ∨ i = .mixedDecompress →
    (∀ Y cap, Quiet i (decompOf i Y cap) ∧ ∀ k b n, Admitted (decompOf i Y cap).cfg k b n) ∧
    (∀ Y cap, Y.length ≤ 4096 → cap ≤ 4096 → RegionsFit i (decompOf i Y cap).latch.args ∧
      RegionsApart i (decompOf i Y cap).latch.args) ∧
    (regionBytes (decompOf i [7, 0, 0] 100) (decompOf i [7, 0, 0] 100).latch.args.src0).length < 4 ∧
    (if i = .decompress then (decompOf i [0x64, 0, 0, 0, 0] 50).latch.args.dst
      else (decompOf i [0x64, 0, 0, 0, 0] 50).latch.args.scr).size <
      fromLe ((regionBytes (decompOf i [0x64, 0, 0, 0, 0] 50)
        (decompOf i [0x64, 0, 0, 0, 0] 50).latch.args.src0).take 4) ∧
    entropyDecode litConfig
      ((regionBytes (decompOf i [0, 0, 0, 0] 100) (decompOf i [0, 0, 0, 0] 100).latch.args.src0).drop 4) 0 = none ∧
    (entropyDecode litConfig ((8 :: examplePacked.tail).drop 4) (fromLe ((8 :: examplePacked.tail).take 4))).map
      List.length = some 7 := by
  rintro i (rfl | rfl) <;>
    exact ⟨fun _ _ => ⟨quiet_running _ _ _, admitted_open⟩,
      fun _ _ h1 h2 => ⟨argsOf_fit _ (by omega), argsOf_apart _ (by omega)⟩, by decide +kernel, by decide +kernel,
      by decide +kernel, by decide +kernel⟩

/-- The compressed stream whose delta stream sets pair 1, of vector K-17. -/
def packedPairOne : Bytes := [7, 0, 0, 0, 0x70, 0x40, 1, 2, 3, 4, 5, 6]

/-- The state of vector K-17. -/
def applyPairOne : State := running .mixedDecompress (argsOf 12 0 8 16) (memOf 0x1000 packedPairOne 0x3000 prevFrame)

/-- Vectors A-4 and K-17, one for each command and error; a byte of the frame buffer outside SCR. -/
theorem witness_FrameBufferSurvivesEveryErrorButBus :
    (let s := { applyState with latch := ⟨0x02, argsOf 4 0 8 0⟩ }
     Quiet .applyDelta s ∧ RegionsFit .applyDelta s.latch.args ∧ RegionsApart .applyDelta s.latch.args ∧
        (∀ k b n, Admitted s.cfg k b n) ∧
        parseDelta (regionBytes s s.latch.args.src0) s.latch.args.dst.size = .error ⟨.deltaTruncated, 0⟩ ∧
        s.latch.args.dst.holds 0x3000 = true ∧ ∃ t, exec .applyDelta s = .next t ∧ t.err ≠ .none ∧ t.err ≠ .bus) ∧
    (let s := applyPairOne
     memWf s.mem = true ∧ Quiet .mixedDecompress s ∧ RegionsFit .mixedDecompress s.latch.args ∧
        RegionsApart .mixedDecompress s.latch.args ∧ (∀ k b n, Admitted s.cfg k b n) ∧
        decompressBytes s.cfg (regionBytes s s.latch.args.src0) s.latch.args.scr.size .scrOverflow =
          .ok [0x40, 1, 2, 3, 4, 5, 6] ∧
        parseDelta [0x40, 1, 2, 3, 4, 5, 6] s.latch.args.dst.size = .error ⟨.bufTooSmall, 1⟩ ∧
        s.latch.args.dst.holds 0x3007 = true ∧ s.latch.args.scr.holds 0x3007 = false ∧
        ∃ t, exec .mixedDecompress s = .next t ∧ t.err ≠ .none ∧ t.err ≠ .bus) :=
  ⟨⟨⟨rfl, rfl⟩, argsOf_fit _ (by omega), argsOf_apart _ (by omega), admitted_open, by decide +kernel, by decide, _, rfl,
      by decide +kernel⟩,
    by decide +kernel, ⟨rfl, rfl⟩, argsOf_fit _ (by omega), argsOf_apart _ (by omega), admitted_open, by decide +kernel,
    by decide +kernel, by decide, by decide, _, rfl, by decide +kernel⟩

/-- A platform that refuses to read the bytes of a window, and to write those of another. -/
def refusing (s : State) (r w : Window) : State :=
  { s with cfg := { litConfig with refusedReads := [r], refusedWrites := [w] } }

/-- The first byte of SRC0 of every command, the last RGB byte of SRC1, a scratch byte, and the last byte of the output,
where it is a range and where it is records. -/
theorem witness_RefusedReadNeverSucceeds :
    (∀ i : Instr,
      let s := refusing (running i (argsOf 8 8 64 16) []) ⟨0x1000, 1⟩ ⟨0, 0⟩
      memWf s.mem = true ∧ Quiet i s ∧ phaseA i (earlyCheckOf i) s.latch.args = none ∧ Needs i s .read 0x1000 ∧
        admits s.cfg .read 0x1000 = false ∧ ∃ t, exec i s = .next t) ∧
    (let s := refusing encState ⟨0x2006, 1⟩ ⟨0x3006, 1⟩
     memWf s.mem = true ∧ Quiet .encodeDelta s ∧ phaseA .encodeDelta (earlyCheckOf .encodeDelta) s.latch.args = none ∧
      Needs .encodeDelta s .read 0x2006 ∧ admits s.cfg .read 0x2006 = false ∧
      Needs .encodeDelta s .write 0x3006 ∧ admits s.cfg .write 0x3006 = false) ∧
    (let s := refusing mixDecompState ⟨0x4006, 1⟩ ⟨0x3006, 1⟩
     memWf s.mem = true ∧ Quiet .mixedDecompress s ∧
      phaseA .mixedDecompress (earlyCheckOf .mixedDecompress) s.latch.args = none ∧
      Needs .mixedDecompress s .read 0x4006 ∧ admits s.cfg .read 0x4006 = false ∧
      Needs .mixedDecompress s .write 0x3006 ∧ admits s.cfg .write 0x3006 = false) := by
  refine ⟨fun i => ⟨rfl, ⟨rfl, by cases i <;> decide⟩, by cases i <;> decide, .inl ⟨rfl, by cases i <;> decide, fun _ => by
      cases i <;> decide⟩, by cases i <;> decide, _, exec_eq i _⟩, ⟨by decide +kernel, ⟨rfl, by decide⟩, by decide,
      .inr (.inl ⟨rfl, rfl, by decide, by decide⟩), by decide,
      .inr (.inr (.inr (.inl ⟨rfl, exampleDelta, by decide +kernel, by decide, by decide⟩))), by decide⟩,
    by decide +kernel, ⟨rfl, by decide⟩, by decide,
    .inr (.inr (.inl ⟨exampleDelta, by decide +kernel, by decide, by decide⟩)), by decide,
    .inr (.inr (.inr (.inr ⟨rfl, exampleDelta, [(0, [1, 2, 3, 8, 7, 6])], by decide +kernel, by decide, _,
      List.mem_cons_self, 6, by decide, by decide⟩))), by decide⟩

theorem witness_BrokenHazardRuleStillEndsTheCommand :
    ((busyWith [.memWrite 0x3007 9]).events = .memWrite 0x3007 9 :: [] ∧
      (busyWith [.memWrite 0x3007 9]).eng = .busy ∧
      decode (busyWith [.memWrite 0x3007 9]).fetchBytes = .ok .applyDelta ∧
      usesByte .applyDelta (busyWith [.memWrite 0x3007 9]).latch.args 0x3007 = true ∧
      memWf (busyWith [.memWrite 0x3007 9]).mem = true) ∧
    (let s := busyWith [.otherCommand [⟨0x3007, 1⟩] []]
     s.events = .otherCommand [⟨0x3007, 1⟩] [] :: [] ∧ s.eng = .busy ∧ decode s.fetchBytes = .ok .applyDelta ∧
      .dst ∈ usedRegions .applyDelta ∧ (s.latch.args.region .dst).holds 0x3007 = true ∧
      windowHolds ⟨0x3007, 1⟩ 0x3007 = true) ∧
    (let s := busyWith [.otherCommand [] [⟨0x1000, 1⟩]]
     s.events = .otherCommand [] [⟨0x1000, 1⟩] :: [] ∧ s.eng = .busy ∧ decode s.fetchBytes = .ok .applyDelta ∧
      .src0 ∈ usedRegions .applyDelta ∧ (s.latch.args.region .src0).holds 0x1000 = true ∧
      windowHolds ⟨0x1000, 1⟩ 0x1000 = true) ∧
    ({ busyWith [] with hazard := true }).hazard = true := by decide +kernel

/-- The state after APPLY_DELTA, its end observed or not, with events to come. -/
def endedWith (es : List Event) (seen : Bool) : State :=
  { applyState with eng := .idle, done := true, ended := [⟨applyState.latch, seen⟩], events := es }

/-- A byte of the frame buffer before the observation, the same byte after it, and a byte of no region; and a step that
keeps the command and one that forgets it. -/
theorem witness_LateWriteStaysWithinTheHazardSpan :
    ((endedWith [.memWrite 0x3007 9] false).events = .memWrite 0x3007 9 :: [] ∧
      (endedWith [.memWrite 0x3007 9] false).eng = .idle ∧ latchedUses applyState.latch 0x3007 = true) ∧
    (∀ e ∈ (endedWith [.memWrite 0x3007 9] true).ended, e.seen = false → latchedUses e.latch 0x3007 = false) ∧
    (∀ e ∈ (endedWith [.memWrite 0x9000 9] false).ended, e.seen = false → latchedUses e.latch 0x9000 = false) ∧
    (∃ t, step (endedWith [wr 0x18 0x1] false) = .next t ∧ t.ended = [⟨applyState.latch, false⟩]) ∧
    ∃ t, step (endedWith [rd 0x20] false) = .next t ∧ t.ended = [] := by
  exact ⟨by decide, by decide, by decide, ⟨_, rfl, by decide⟩, _, rfl, by decide⟩

/-- A byte of the delta stream, which APPLY_DELTA does not write. -/
theorem witness_HostReadWhileBusyIsHarmless :
    (busyWith [.memRead 0x1000]).events = .memRead 0x1000 :: [] ∧ (busyWith [.memRead 0x1000]).eng = .busy ∧
      decode (busyWith [.memRead 0x1000]).fetchBytes = .ok .applyDelta ∧
      inSpans (maySpans .applyDelta (busyWith [.memRead 0x1000]).latch.args) 0x1000 = false ∧
      (∀ e ∈ (busyWith [.memRead 0x1000]).ended, e.seen = false →
        inSpans (latchedSpans e.latch) 0x1000 = false) ∧
      ((busyWith [.memRead 0x1000]).cfg.nonIdempotent.any fun w => windowHolds w 0x1000) = false := by decide

/-- Vector D-9 as sequences, and the prefix of vectors D-15, D-10, D-11 and D-12. -/
theorem witness_DecoderStaysWithinTheDeclaredLength :
    entropyDecode litConfig [0x70, 0x80, 1, 2, 3, 8, 7, 6] 7 = some exampleDelta ∧ litConfig.codecId = 1 ∧
      Lz4Block 5 [0x10, 0x61, 1, 0, 0] [] [0x61, 0x61, 0x61, 0x61, 0x61] ∧
      LengthRun ((0x10#8).toNat / 16) [] [0x61#8].length ∧ LengthRun ((0x10#8).toNat % 16) [] 0 ∧
      (0#8).toNat + 256 * (0#8).toNat = 0 ∧ [0x61#8].length < (2#8).toNat + 256 * (0#8).toNat := by
  refine ⟨by decide, rfl, ?_, .inl ⟨by decide, rfl, rfl⟩, .inl ⟨by decide, rfl, rfl⟩, rfl, by decide⟩
  refine .more 0x10 [] [0x61] [] 1 0 [] [0] [0x61, 0x61, 0x61, 0x61, 0x61] _ 0 (.inl ⟨by decide, rfl, rfl⟩) (by decide)
    (by decide) (by decide) (.inl ⟨by decide, rfl, rfl⟩) (by decide) ⟨rfl, rfl, fun j h1 h2 => ?_⟩
    (.last 0 [] [] _ (.inl ⟨by decide, rfl, rfl⟩) (by decide))
  change 1 ≤ j at h1
  change j < 5 at h2
  interval_cases j <;> rfl

theorem witness_WrapperRoundTrip : exampleDelta.length < 2 ^ 32 ∧ exampleDelta.length ≤ 7 := by decide

/-- The APPLY_DELTA of the round trip, on the stream that `encState` left: vector V-A1. -/
theorem witness_DeltaRoundTrip :
    memWf encState.mem = true ∧ memWf applyState.mem = true ∧ Quiet .encodeDelta encState ∧
      Quiet .applyDelta applyState ∧ RegionsFit .applyDelta applyState.latch.args ∧
      RegionsApart .applyDelta applyState.latch.args ∧ AllAdmitted .applyDelta applyState ∧
      encState.latch.args.src0.size ≤ applyState.latch.args.dst.size ∧
      memBytes applyState.mem applyState.latch.args.dst.base encState.latch.args.src0.size =
        regionBytes encState encState.latch.args.src0 ∧
      ∃ t, exec .encodeDelta encState = .next t ∧ t.err = .none ∧
        regionBytes applyState applyState.latch.args.src0 =
          memBytes t.mem encState.latch.args.dst.base t.resultLen.toNat :=
  ⟨by decide +kernel, by decide +kernel, quiet_running _ _ _, quiet_running _ _ _, argsOf_fit _ (by omega),
    argsOf_apart _ (by omega), fun _ _ _ _ => ⟨admits_open ⟨rfl, rfl⟩ _ _, admits_open ⟨rfl, rfl⟩ _ _⟩,
    by decide, by decide +kernel, _, rfl, by decide +kernel⟩

/-- What MIXED_COMPRESS of the example leaves in DST, whatever SCR is drawn to hold. -/
theorem mixed_compress_output :
    memBytes (mixCompState.complete .mixedCompress geometryCheck mixedCompressBody).mem 0x3000 12 = examplePacked := by
  have hz : (mixCompState.hazard || breaksH6 mixCompState.cfg .mixedCompress mixCompState.latch.args) = false := by
    decide +kernel
  have ha : phaseA .mixedCompress geometryCheck mixCompState.latch.args = none := by decide +kernel
  have hr : (mixedCompressBody mixCompState.latch.args (mixCompState.port false mixCompState.draws)).2.refused = [] := by
    decide +kernel
  have hv : (mixedCompressBody mixCompState.latch.args (mixCompState.port false mixCompState.draws)).1 =
      .finish 12 1 := by decide +kernel
  have hm : memBytes (mixedCompressBody mixCompState.latch.args (mixCompState.port false mixCompState.draws)).2.mem
      0x3000 12 = examplePacked := by decide +kernel
  rw [← hm]
  simp only [State.complete, hz, ha, State.phaseB, hr, State.settle, hv, if_true]
  refine memBytes_congr fun x h1 h2 => State.memRead_scramble _ _ ?_
  simp [inSpans, scratchSpans, mixCompState, running, argsOf, Region.span, Region.base, Region.size, Span.holds]
  omega

/-- The MIXED_DECOMPRESS of the round trip, on the stream that `mixCompState` left: vector V-M2. -/
theorem witness_MixedRoundTrip :
    memWf mixCompState.mem = true ∧ memWf mixDecompState.mem = true ∧
      mixDecompState.cfg.codecId = mixCompState.cfg.codecId ∧ Quiet .mixedCompress mixCompState ∧
      Quiet .mixedDecompress mixDecompState ∧ RegionsFit .mixedDecompress mixDecompState.latch.args ∧
      RegionsApart .mixedDecompress mixDecompState.latch.args ∧ AllAdmitted .mixedDecompress mixDecompState ∧
      mixCompState.latch.args.src0.size ≤ mixDecompState.latch.args.dst.size ∧
      memBytes mixDecompState.mem mixDecompState.latch.args.dst.base mixCompState.latch.args.src0.size =
        regionBytes mixCompState mixCompState.latch.args.src0 ∧
      (encodeDelta (regionBytes mixCompState mixCompState.latch.args.src0)
        (regionBytes mixCompState mixCompState.latch.args.src1)).1.length ≤ mixDecompState.latch.args.scr.size ∧
      ∃ t, exec .mixedCompress mixCompState = .next t ∧ t.err = .none ∧
        regionBytes mixDecompState mixDecompState.latch.args.src0 =
          memBytes t.mem mixCompState.latch.args.dst.base t.resultLen.toNat := by
  refine ⟨by decide +kernel, by decide +kernel, rfl, quiet_running _ _ _, quiet_running _ _ _,
    argsOf_fit _ (by omega), argsOf_apart _ (by omega),
    fun _ _ _ _ => ⟨admits_open ⟨rfl, rfl⟩ _ _, admits_open ⟨rfl, rfl⟩ _ _⟩, by decide, by decide +kernel,
    by decide +kernel, _, rfl, by decide +kernel, ?_⟩
  have hl : (mixCompState.complete .mixedCompress geometryCheck mixedCompressBody).resultLen.toNat = 12 := by
    decide +kernel
  have hd : regionBytes mixDecompState mixDecompState.latch.args.src0 = examplePacked := by decide +kernel
  rw [hl, hd]
  exact mixed_compress_output.symm

end Sys2Proof.Tests
end

section
/-! SUPPORT. The register window: which register each offset selects, what a write of a register leaves in each, and
the fields of the STATUS and CTRL words. -/

namespace Sys2Proof.Machine

/-! ### The register map (10_state.md R20, R36) -/

/-- The offset of a register (10_state.md R20). -/
def Reg.offset : Reg → Nat
  | .id => 0x00
  | .cap => 0x08
  | .ctrl => 0x10
  | .cmd => 0x18
  | .status => 0x20
  | .src0Addr => 0x28
  | .src0Len => 0x30
  | .src1Addr => 0x38
  | .src1Len => 0x40
  | .dstAddr => 0x48
  | .dstCap => 0x50
  | .scrAddr => 0x58
  | .scrCap => 0x60
  | .resultLen => 0x68
  | .resultAux => 0x70
  | .errInfo => 0x78

@[simp] theorem regAt_offset (r : Reg) : regAt r.offset = some r := by cases r <;> rfl

theorem offset_of_regAt {off : Nat} {r : Reg} (h : regAt off = some r) : off = r.offset := by
  unfold regAt at h
  split at h <;> cases h <;> rfl

theorem Reg.offset_lt (r : Reg) : r.offset < 0x80 := by cases r <;> decide

/-- From 0x80 on no offset has a register (10_state.md R36). -/
theorem regAt_reserved {off : Nat} (h : 0x80 ≤ off) : regAt off = none := by
  cases hr : regAt off with
  | none => rfl
  | some r => have := offset_of_regAt hr; have := r.offset_lt; omega

@[simp] theorem State.mmioRead_offset (s : State) (r : Reg) : s.mmioRead r.offset = s.readReg r := by
  simp [State.mmioRead]

@[simp] theorem State.mmioWrite_offset (s : State) (r : Reg) (w : Word) :
    s.mmioWrite r.offset w = s.writeReg r w := by
  simp [State.mmioWrite]

theorem State.mmioRead_reserved (s : State) {off : Nat} (h : regAt off = none) : s.mmioRead off = 0 := by
  simp [State.mmioRead, h]

theorem State.mmioWrite_reserved (s : State) {off : Nat} (h : regAt off = none) (w : Word) :
    s.mmioWrite off w = s := by
  simp [State.mmioWrite, h]

/-- An offset reads alike in two states where its register, if it has one, does. -/
theorem State.mmioRead_congr {s t : State} {off : Nat} (h : ∀ r : Reg, off = r.offset → t.readReg r = s.readReg r) :
    t.mmioRead off = s.mmioRead off := by
  cases hr : regAt off with
  | none => rw [t.mmioRead_reserved hr, s.mmioRead_reserved hr]
  | some r => rw [offset_of_regAt hr, t.mmioRead_offset, s.mmioRead_offset, h r (offset_of_regAt hr)]

/-! ### Argument registers (10_state.md R28 to R32) -/

/-- The eight argument registers. -/
def argRegs : List Reg := [.src0Addr, .src0Len, .src1Addr, .src1Len, .dstAddr, .dstCap, .scrAddr, .scrCap]

/-- The argument registers are at the offsets 0x28 to 0x60. -/
theorem argRegs_offset : argRegs.map Reg.offset = [0x28, 0x30, 0x38, 0x40, 0x48, 0x50, 0x58, 0x60] := rfl

/-- Each argument register is a field of its own of `Args`: after a write it reads the word, the others as before. -/
theorem State.writeReg_arg (s : State) (w : Word) {r : Reg} (h : r ∈ argRegs) :
    (∃ a, s.writeReg r w = { s with args := a }) ∧ (s.writeReg r w).readReg r = w ∧
      ∀ q, q ≠ r → (s.writeReg r w).readReg q = s.readReg q := by
  cases r
  case src0Addr | src0Len | src1Addr | src1Len | dstAddr | dstCap | scrAddr | scrCap =>
    refine ⟨⟨_, rfl⟩, rfl, fun q hq => ?_⟩
    cases q <;> first | rfl | exact absurd rfl hq
  all_goals exact absurd h (by decide)

/-! ### The words of CTRL, STATUS and CAP -/

/-- The bits of CTRL (10_state.md R24). -/
theorem State.ctrlWord_getLsbD (s : State) (j : Nat) : s.ctrlWord.getLsbD j = (j == 0 && s.irqEn) := by
  simp only [State.ctrlWord, BitVec.getLsbD_append, BitVec.getLsbD_ofBool, BitVec.getLsbD_zero]
  by_cases hj : j = 0 <;> simp [hj]

/-- The bits of STATUS (10_state.md R26). -/
theorem State.statusWord_getLsbD (s : State) (j : Nat) :
    s.statusWord.getLsbD j =
      if j = 0 then s.busy else if j = 1 then s.done else if j = 2 then s.cmdDropped
      else if j < 8 then false else if j < 16 then s.err.code.getLsbD (j - 8)
      else if j < 24 then s.lastOp.getLsbD (j - 16) else false := by
  simp only [State.statusWord, BitVec.getLsbD_append, BitVec.getLsbD_ofBool, BitVec.getLsbD_zero]
  rcases j with _ | _ | _ | j
  · rfl
  · rfl
  · rfl
  · grind

/-! ### Obligations on registers -/

/-- Settles O13: each field is a slice of a constant, but for CODEC, over whose sixteen values CAP is evaluated. -/
theorem identificationRegistersAreConstant : Obligations.IdentificationRegistersAreConstant := by
  intro s w
  have cap : ∀ x : BitVec 4,
      let v := 0#48 ++ BitVec.ofNat 8 maxOp ++ x ++ BitVec.ofNat 4 lenPrefixBytes
      v.extractLsb' 0 4 = 4#4 ∧ v.extractLsb' 4 4 = x ∧ v.extractLsb' 8 8 = 0x06#8 ∧ v.extractLsb' 16 48 = 0#48 ∧
        (x = 1 → v = 0x0614#64) := by decide
  have hid : idValue.extractLsb' 32 32 = 0x53575757#32 ∧ idValue.extractLsb' 16 16 = 0x0007#16 ∧
      idValue.extractLsb' 0 16 = 0x0001#16 := by decide
  obtain ⟨hmagic, hsrc, hblk⟩ := hid
  exact ⟨hmagic, hsrc, hblk, rfl, rfl, cap s.cfg.codecId⟩

/-- Settles O14, by the bits of the CTRL word. -/
theorem controlHoldsOnlyTheInterruptEnable : Obligations.ControlHoldsOnlyTheInterruptEnable :=
  fun s w => ⟨rfl, fun j => (s.writeReg .ctrl w).ctrlWord_getLsbD j⟩

/-- Settles O15, by the bits of the STATUS word. -/
theorem statusWordHasItsFields : Obligations.StatusWordHasItsFields := by
  intro s
  have bit : ∀ j, (s.mmioRead 0x20).getLsbD j = _ := s.statusWord_getLsbD
  have field : ∀ {n : Nat} (b : Nat) (x : BitVec n),
      (∀ i < n, (s.mmioRead 0x20).getLsbD (b + i) = x.getLsbD i) → (s.mmioRead 0x20).extractLsb' b n = x :=
    fun b x h => BitVec.eq_of_getLsbD_eq fun i hi => by simpa [hi] using h i hi
  refine ⟨bit 0, bit 1, bit 2, field 3 _ fun i hi => ?_, field 16 _ fun i hi => ?_, field 24 _ fun i hi => ?_,
    (s.err, s.err.code), ?_, rfl, field 8 _ fun i hi => ?_⟩
  · grind
  · grind
  · grind
  · cases s.err <;> decide
  · grind

/-- Settles O16, by the bits of the STATUS word before and after. -/
theorem statusWriteClearsOnlyWhatIsWritten : Obligations.StatusWriteClearsOnlyWhatIsWritten := by
  intro s w
  refine ⟨?_, ?_, rfl, fun j => ?_⟩
  · show (s.done && !w.getLsbD 1) = _
    cases w.getLsbD 1 <;> simp
  · show (s.cmdDropped && !w.getLsbD 2) = _
    cases w.getLsbD 2 <;> simp
  · show (s.statusWrite w).statusWord.getLsbD j = (s.statusWord.getLsbD j && _ && _)
    rw [State.statusWord_getLsbD, State.statusWord_getLsbD]
    rcases j with _ | _ | _ | j
    · simp [State.busy]
    · simp
    · simp
    · simp

/-- Settles O17: each of the offsets is that of an argument register, which is a field of its own. -/
theorem argumentRegistersHoldWhatIsWritten : Obligations.ArgumentRegistersHoldWhatIsWritten := by
  intro s off w hoff
  rw [← argRegs_offset, List.mem_map] at hoff
  obtain ⟨r, hr, rfl⟩ := hoff
  obtain ⟨⟨a, ha⟩, hself, hother⟩ := s.writeReg_arg w hr
  simp only [State.mmioWrite_offset]
  refine ⟨by simpa using hself, fun off' hne => State.mmioRead_congr fun q hq => hother q ?_, by rw [ha]⟩
  rintro rfl
  exact hne hq

/-- Settles O18: no register is at 0x80 or above. -/
theorem reservedAndReadOnlyWritesAreIgnored : Obligations.ReservedAndReadOnlyWritesAreIgnored := by
  intro s off w
  refine ⟨fun hlo _ => ?_, fun hro => ?_⟩
  · have hr := regAt_reserved hlo
    have hread := s.mmioRead_reserved hr
    refine ⟨hread, ?_, s.mmioWrite_reserved hr w⟩
    rw [State.hostRead, if_neg (by omega), hread]
  · have hmap : [Reg.id, .cap, .resultLen, .resultAux, .errInfo].map Reg.offset = [0x00, 0x08, 0x68, 0x70, 0x78] := rfl
    rw [← hmap, List.mem_map] at hro
    obtain ⟨r, hr, rfl⟩ := hro
    rw [s.mmioWrite_offset]
    cases r
    case id | cap | resultLen | resultAux | errInfo => rfl
    all_goals exact absurd hr (by decide)

end Sys2Proof.Machine
end

section
/-! SUPPORT. The *complete* step as one update: every command ends in `endCommand` over the memory and the draws that it
left, with success or one of its errors, and reads no register but LATCH. -/

namespace Sys2Proof.Machine

/-! ### How a command ends -/

/-- Every end of the command `i` (40_command_interface.md R105): the one update that ends a command, over some memory `m`
and number of draws `d`, with success or one of the errors of `i`; canonical memory stays canonical. -/
def Completes (i : Instr) (s t : State) : Prop :=
  ∃ (m : List Host.Cell) (d : Nat) (e : ErrCode) (len aux info : Word),
    t = State.endCommand { s with mem := m, draws := d } e len aux info ∧ (e = .none ∨ e ∈ errorsOf i) ∧
      (memWf s.mem = true → memWf m = true)

/-- An error over memory in which some spans inside memory space were drawn anew. -/
theorem completes_raiseErr {i : Instr} (s : State) (d : Nat) {ps : List Span} {r : Raise}
    (hp : ∀ p ∈ ps, p.inSpace) (hr : r.code ∈ errorsOf i) :
    Completes i s (((s.withDraws d).scramble ps).raiseErr r) :=
  ⟨_, _, r.code, 0, 0, _, rfl, .inr hr, fun w => State.scramble_wf (s := s.withDraws d) w hp⟩

theorem completes_failA {i : Instr} (s : State) {r : Raise} (hr : r.code ∈ errorsOf i) :
    Completes i s (s.failA i r) :=
  completes_raiseErr s s.draws (earlySpans_inSpace _ _ _) hr

theorem completes_failB {i : Instr} (s : State) (d : Nat) {r : Raise} (hr : r.code ∈ errorsOf i) :
    Completes i s ((s.withDraws d).failB i r) :=
  completes_raiseErr s d (errorSpans_inSpace _ _) hr

/-- Every command can end in BUS (60_exceptions.md R201). -/
theorem bus_mem_errorsOf (i : Instr) : .bus ∈ errorsOf i := by cases i <;> decide

theorem completes_failBus (i : Instr) (s : State) (d x : Nat) : Completes i s ((s.withDraws d).failBus i x) :=
  completes_raiseErr s d (maySpans_inSpace _ _) (bus_mem_errorsOf i)

theorem completes_hazardEnd (i : Instr) (s : State) : Completes i s (s.hazardEnd i) :=
  ⟨_, _, _, _, _, _, rfl, anyOutcome_mem _ _, fun w => State.scramble_wf w (maySpans_inSpace _ _)⟩

/-- Phase B with nothing refused, whatever the evaluation left at the port. -/
theorem completes_settle {i : Instr} (s : State) {a : Args} {p : Port} {out : Verdict × Port} (h : BodyOk i a p out)
    (hm : p.mem = s.mem) : Completes i s (s.settle i out.1 out.2) := by
  obtain ⟨v, q⟩ := out
  cases v with
  | raise r => exact completes_failB s _ (h.codes r rfl).1
  | finish len aux =>
    exact ⟨_, _, .none, _, _, _, rfl, .inl rfl,
      fun w => State.scramble_wf (s := s.afterPort q) (h.wf (hm ▸ w)) (scratchSpans_inSpace _ _)⟩

/-- Every command completes, in every state (60_exceptions.md R200). -/
theorem completes_complete (i : Instr) (s : State) :
    Completes i s (s.complete i (earlyCheckOf i) (bodyOf i)) := by
  rcases s.complete_cases i (earlyCheckOf i) (bodyOf i) with
    ⟨_, hz⟩ | ⟨_, _, ⟨r, hr, ha⟩ | ⟨hn, ⟨_, hs⟩ | ⟨hx, hs⟩⟩⟩
  · rw [hz]; exact completes_hazardEnd i s
  · rw [ha]; exact completes_failA s (phaseA_code hr).1
  · rw [hs]; exact completes_settle s (body_ok (fits_of_phaseA hn) _) rfl
  · rw [hs]
    rcases s.settleRefused_cases i hx _ with ⟨r, d, hl, hb⟩ | ⟨x, d, _, hb⟩
    · rw [hb]; exact completes_failB s d ((body_ok (fits_of_phaseA hn) _).codes r hl).1
    · rw [hb]; exact completes_failBus i s d x

theorem exec_completes {i : Instr} {s t : State} (h : exec i s = .next t) : Completes i s t := by
  rw [exec_eq] at h
  cases h
  exact completes_complete i s

/-- The registers an end leaves alone (10_state.md R27, 40_command_interface.md R98). -/
theorem Completes.keepsRest {i : Instr} {s t : State} (h : Completes i s t) : KeepsRest s t := by
  obtain ⟨_, _, _, _, _, _, rfl, _⟩ := h
  exact ⟨rfl, rfl, rfl, rfl, rfl, rfl, rfl, rfl, rfl⟩

/-- Settles O29: every command is one `endCommand`. -/
theorem everyCommandEndsInSuccessOrOneOfItsErrors : Obligations.EveryCommandEndsInSuccessOrOneOfItsErrors := by
  intro i s
  have h := completes_complete i s
  have hrest := h.keepsRest
  obtain ⟨m, d, e, len, aux, info, ht, he, _⟩ := h
  refine ⟨_, exec_eq i s, ?_⟩
  rw [ht] at hrest ⊢
  exact ⟨rfl, rfl, he, hrest⟩

/-! ### What a completion reads -/

/-- What the *complete* step reads of the state: the configuration, LATCH, memory, the hazard note and the number of
draws, with every other field at its value after reset. -/
def State.inputs (s : State) : State :=
  { State.resetWith s.cfg with latch := s.latch, mem := s.mem, hazard := s.hazard, draws := s.draws }

@[simp] theorem State.inputs_cfg (s : State) : s.inputs.cfg = s.cfg := rfl
@[simp] theorem State.inputs_latch (s : State) : s.inputs.latch = s.latch := rfl
@[simp] theorem State.inputs_hazard (s : State) : s.inputs.hazard = s.hazard := rfl
@[simp] theorem State.inputs_draws (s : State) : s.inputs.draws = s.draws := rfl
@[simp] theorem State.inputs_port (s : State) (lossy : Bool) (d : Nat) : s.inputs.port lossy d = s.port lossy d := rfl

/-- What the *complete* step reports: memory, ERR and the result registers. -/
def State.report (s : State) : List Host.Cell × ErrCode × Word × Word × Word :=
  (s.mem, s.err, s.resultLen, s.resultAux, s.errInfo)

/-- Phase B with nothing refused reports what its inputs alone give. -/
theorem State.report_settle (s : State) (i : Instr) (v : Verdict) (p : Port) :
    (s.settle i v p).report = (s.inputs.settle i v p).report := by
  cases v <;> rfl

/-- So does phase B with an access refused: both errors it can end in take LATCH, memory and the draws. -/
theorem State.report_settleRefused (s : State) (i : Instr) (refused : List Nat) (lossy : Verdict × Port) :
    (s.settleRefused i refused lossy).report = (s.inputs.settleRefused i refused lossy).report := by
  obtain ⟨v, p⟩ := lossy
  cases v with
  | finish len aux => rfl
  | raise r =>
    cases hb : Config.freeBool (p.draws + 1) <;> simp only [State.settleRefused, hb] <;> rfl

theorem State.report_phaseB (s : State) (i : Instr) (body : Args → Port → Verdict × Port) :
    (s.phaseB i body).report = (s.inputs.phaseB i body).report := by
  by_cases hr : (body s.latch.args (s.port false s.draws)).2.refused = []
  · simp only [State.phaseB, State.inputs_latch, State.inputs_draws, State.inputs_port, hr, if_true]
    exact s.report_settle i _ _
  · simp only [State.phaseB, State.inputs_latch, State.inputs_draws, State.inputs_port, hr, if_false]
    exact s.report_settleRefused i _ _

/-- The *complete* step reports what its inputs alone give (40_command_interface.md R97). -/
theorem State.report_complete (s : State) (i : Instr) (early : Args → Option Raise)
    (body : Args → Port → Verdict × Port) :
    (s.complete i early body).report = (s.inputs.complete i early body).report := by
  by_cases hz : (s.hazard || breaksH6 s.cfg i s.latch.args) = true
  · simp only [State.complete, State.inputs_hazard, State.inputs_cfg, State.inputs_latch, hz, if_true]
    rfl
  · simp only [State.complete, State.inputs_hazard, State.inputs_cfg, State.inputs_latch, hz]
    cases phaseA i early s.latch.args with
    | some r => rfl
    | none => exact s.report_phaseB i body

/-- Settles O31: the reports of two ends are equal where the inputs are. -/
theorem completionDependsOnlyOnTheLatch : Obligations.CompletionDependsOnlyOnTheLatch := by
  intro i s s' t t' hcfg hlatch hmem hhazard hdraws ht ht'
  have hinputs : s.inputs = s'.inputs := by simp only [State.inputs, hcfg, hlatch, hmem, hhazard, hdraws]
  rw [exec_eq] at ht ht'
  cases ht
  cases ht'
  have hreport := s.report_complete i (earlyCheckOf i) (bodyOf i)
  rw [hinputs, ← s'.report_complete] at hreport
  simpa only [State.report, Prod.mk.injEq] using hreport

end Sys2Proof.Machine
end

section
/-! SUPPORT. What one event of another agent can do to the engine, to LATCH and to the invariant. -/

namespace Sys2Proof.Machine

/-! ### Command words (30_encoding.md R71, R72) -/

/-- The word of an opcode decodes by the opcode map alone. -/
theorem decodeWord_zeroExtend (op : Byte) : decodeWord (op.zeroExtend 64) = decodeOpcode op := by
  have hop : fromLe (leBytes 8 op.toNat) = op.toNat := fromLe_leBytes (by have := op.isLt; omega)
  rw [← decode_fetchBytes, decode, if_pos (leBytes_length 8 _), hop, BitVec.ofNat_toNat]

/-- A word that decodes to a command is its opcode. -/
theorem zeroExtend_of_decodeWord {w : Word} {i : Instr} (h : decodeWord w = .ok i) :
    w = (w.extractLsb' 0 8).zeroExtend 64 := by
  have hrsvd : w.extractLsb' 8 56 = 0#56 := by
    by_contra hne
    simp [decodeWord, CmdWord.ofWord, hne] at h
  apply BitVec.eq_of_getLsbD_eq
  intro j hj
  have hhigh : 8 ≤ j → w.getLsbD j = false := fun h8 => by
    have hbit : (w.extractLsb' 8 56).getLsbD (j - 8) = false := by rw [hrsvd, BitVec.getLsbD_zero]
    rw [BitVec.getLsbD_extractLsb', show 8 + (j - 8) = j by omega] at hbit
    simpa [show j - 8 < 56 by omega] using hbit
  by_cases h8 : j < 8
  · simp [h8, hj]
  · simp [h8, hhigh (by omega)]

/-! ### Host accesses -/

/-- The access shape of 20_memory.md R52. -/
theorem MmioAccess.wellFormed_iff {a : MmioAccess} {off : Nat} :
    a.wellFormed off = true ↔ a.width = 8 ∧ a.beats = 1 ∧ off % 8 = 0 ∧ off < 256 := by
  simp [MmioAccess.wellFormed, and_assoc]

theorem State.mmioAccess_write {s : State} {a : MmioAccess} {w : Word}
    (h : a.wellFormed (windowOffset s.cfg a.addr) = true) (ho : a.op = .write w) :
    s.mmioAccess a = (s.mmioWrite (windowOffset s.cfg a.addr) w).reply .written := by
  simp [State.mmioAccess, h, ho]

theorem State.mmioAccess_read {s : State} {a : MmioAccess}
    (h : a.wellFormed (windowOffset s.cfg a.addr) = true) (ho : a.op = .read) :
    s.mmioAccess a = s.hostRead (windowOffset s.cfg a.addr) := by
  simp [State.mmioAccess, h, ho]

theorem State.mmioAccess_undefined {s : State} {a : MmioAccess}
    (h : a.wellFormed (windowOffset s.cfg a.addr) = false) : s.mmioAccess a = s.reply .errorResponse := by
  simp [State.mmioAccess, h]

/-- The state with `u` for the list of ended commands not yet observed. -/
def State.withEnded (s : State) (u : List Ended) : State := { s with ended := u }

/-- An observation changes nothing but the list of ended commands, and not even that while the block is BUSY. -/
theorem State.observe_eq (s : State) : ∃ u, s.observe = s.withEnded u ∧ (s.eng = .busy → u = s.ended) := by
  by_cases hb : s.busy = true
  · exact ⟨s.ended, if_pos hb, fun _ => rfl⟩
  · exact ⟨_, if_neg hb, fun he => absurd (by simp [State.busy, he]) hb⟩

/-- A host read answers the register's value; only one of STATUS is an observation (20_memory.md R63 part 2). -/
theorem State.hostRead_eq (s : State) (off : Nat) :
    ∃ u, s.hostRead off = (s.withEnded u).reply (.data (s.mmioRead off)) ∧ (off ≠ 0x20 → u = s.ended) ∧
      (off = 0x20 → s.eng = .idle → s.done = true → u = []) ∧ (s.eng = .busy → u = s.ended) := by
  by_cases ho : off = 0x20
  · obtain ⟨u, hu, hb⟩ := s.observe_eq
    refine ⟨u, by rw [State.hostRead, if_pos ho, hu], fun h => absurd ho h, fun _ hi hd => ?_, hb⟩
    have := s.observe_done hi hd
    rwa [hu] at this
  · exact ⟨s.ended, by rw [State.hostRead, if_neg ho]; rfl, fun _ => rfl, fun h => absurd h ho, fun _ => rfl⟩

/-- A sample of `irq` answers its level; only where it is 1 is it an observation. -/
theorem State.sampleIrq_eq (s : State) :
    ∃ u, s.sampleIrq = (s.withEnded u).reply (.irq s.irq) ∧ (s.irq = false → u = s.ended) := by
  by_cases hi : s.irq = true
  · exact ⟨_, by rw [State.sampleIrq, if_pos hi]; rfl, fun h => absurd hi (by simp [h])⟩
  · exact ⟨s.ended, by rw [State.sampleIrq, if_neg hi]; rfl, fun _ => rfl⟩

/-! ### Writes of CMD -/

/-- A command write (40_command_interface.md R92 to R94): dropped while BUSY, else started or rejected by its word. -/
theorem State.commandWrite_cases (s : State) (w : Word) :
    (s.eng = .busy ∧ s.commandWrite w = s.dropCommand) ∨
    (s.eng = .idle ∧ (∃ i, decodeWord w = .ok i) ∧ s.commandWrite w = s.startCommand w) ∨
    (s.eng = .idle ∧ (∃ e, decodeWord w = .error e) ∧ s.commandWrite w = s.rejectCommand w) := by
  unfold State.commandWrite
  cases s.eng with
  | busy => exact .inl ⟨rfl, rfl⟩
  | idle =>
    cases hd : decodeWord w with
    | ok i => exact .inr (.inl ⟨rfl, ⟨i, rfl⟩, rfl⟩)
    | error e => exact .inr (.inr ⟨rfl, ⟨e, rfl⟩, rfl⟩)

/-- A host write reaches CMD, CTRL and the argument registers, STATUS, or nothing (40_command_interface.md R90). -/
theorem State.mmioWrite_cases (s : State) (off : Nat) (w : Word) :
    (off = 0x18 ∧ s.mmioWrite off w = s.commandWrite w) ∨ s.mmioWrite off w = s.statusWrite w ∨
      ∃ b a, s.mmioWrite off w = { s with irqEn := b, args := a } := by
  cases hr : regAt off with
  | none => exact .inr (.inr ⟨s.irqEn, s.args, s.mmioWrite_reserved hr w⟩)
  | some r =>
    rw [offset_of_regAt hr, s.mmioWrite_offset]
    cases r
    case cmd => exact .inl ⟨rfl, rfl⟩
    case status => exact .inr (.inl rfl)
    all_goals exact .inr (.inr ⟨_, _, rfl⟩)

/-! ### The engine and LATCH -/

/-- A broken hazard rule changes neither ENG nor LATCH. -/
theorem State.breach_kept (s : State) (hit : Latch → Bool) :
    (s.breach hit).eng = s.eng ∧ (s.breach hit).latch = s.latch := by
  obtain ⟨z, hb, _⟩ := s.breach_eq hit
  obtain ⟨⟨_, _, _, _, _, _, hs⟩, _⟩ := State.spoilEnded_kept hit s.ended s
  rw [hb, hs]
  exact ⟨rfl, rfl⟩

/-- A host write leaves ENG and LATCH, unless it starts a command: of an idle block, at CMD, with a command's word. -/
theorem State.mmioWrite_engine (s : State) (off : Nat) (w : Word) :
    ((s.mmioWrite off w).eng = s.eng ∧ (s.mmioWrite off w).latch = s.latch) ∨
    (off = 0x18 ∧ s.eng = .idle ∧ (∃ i, decodeWord w = .ok i) ∧ s.mmioWrite off w = s.startCommand w) := by
  rcases s.mmioWrite_cases off w with ⟨ho, hc⟩ | hc | ⟨_, _, hc⟩
  · rw [hc]
    rcases s.commandWrite_cases w with ⟨_, h⟩ | ⟨hi, hd, h⟩ | ⟨_, _, h⟩
    · rw [h]; exact .inl ⟨rfl, rfl⟩
    · exact .inr ⟨ho, hi, hd, h⟩
    · rw [h]; exact .inl ⟨rfl, rfl⟩
  · rw [hc]; exact .inl ⟨rfl, rfl⟩
  · rw [hc]; exact .inl ⟨rfl, rfl⟩

/-- The event is a host write of a command's word to CMD, and its effect is the start of that command
(40_command_interface.md R94). -/
def Starts (s : State) (e : Event) (t : State) : Prop :=
  ∃ (a : MmioAccess) (w : Word) (i : Instr), e = .mmio a ∧ a.op = .write w ∧ windowOffset s.cfg a.addr = 0x18 ∧
    s.eng = .idle ∧ decodeWord w = .ok i ∧ t = (s.startCommand w).reply .written

/-- An event of another agent leaves ENG and LATCH, unless it is a reset or the start of a command. -/
theorem State.agentEvent_engine (s : State) (e : Event) :
    ((s.agentEvent e).eng = s.eng ∧ (s.agentEvent e).latch = s.latch) ∨ e = .reset ∨ Starts s e (s.agentEvent e) := by
  cases e with
  | mmio a =>
    simp only [State.agentEvent]
    cases hwf : a.wellFormed (windowOffset s.cfg a.addr) with
    | false => rw [State.mmioAccess_undefined hwf]; exact .inl ⟨rfl, rfl⟩
    | true =>
      cases ho : a.op with
      | read =>
        obtain ⟨u, hu, _⟩ := s.hostRead_eq (windowOffset s.cfg a.addr)
        rw [State.mmioAccess_read hwf ho, hu]
        exact .inl ⟨rfl, rfl⟩
      | write w =>
        rw [State.mmioAccess_write hwf ho]
        rcases s.mmioWrite_engine (windowOffset s.cfg a.addr) w with hk | ⟨hoff, hi, ⟨i, hd⟩, hs⟩
        · exact .inl hk
        · exact .inr (.inr ⟨a, w, i, rfl, ho, hoff, hi, hd, by rw [hs]⟩)
  | memWrite addr b => exact .inl (State.breach_kept { s with mem := memWrite s.mem addr.toNat b } _)
  | memRead addr =>
    left
    simp only [State.agentEvent, State.agentRead]
    split <;> exact ⟨rfl, rfl⟩
  | otherCommand reads writes => exact .inl (s.breach_kept _)
  | irqSample =>
    obtain ⟨u, hu, _⟩ := s.sampleIrq_eq
    left
    rw [State.agentEvent, hu]
    exact ⟨rfl, rfl⟩
  | reset => exact .inr (.inl rfl)
  | engine => exact .inl ⟨rfl, rfl⟩

theorem State.resetInput_eng (s : State) : s.resetInput.eng = .idle := by
  rcases s.resetInput_cases with ⟨_, h⟩ | ⟨_, h⟩ <;> rw [h] <;> rfl

/-- What a step does to ENG and LATCH: nothing; a reset; the start of a command; or the end of the running one. -/
theorem step_engine_cases {s t : State} (h : step s = .next t) :
    (t.eng = s.eng ∧ t.latch = s.latch) ∨
    (∃ es, s.events = .reset :: es ∧ t = (s.withEvents es).resetInput) ∨
    (∃ e es, s.events = e :: es ∧ Starts (s.withEvents es) e t) ∨
    (∃ es i, (s.events = [] ∧ es = [] ∨ s.events = .engine :: es) ∧ s.eng = .busy ∧
      decode s.fetchBytes = .ok i ∧
      exec i (s.withEvents es) = .next t ∧ Completes i (s.withEvents es) t) := by
  rcases step_cases s with ⟨e, es, hev, _, hs⟩ | ⟨es, hev, ⟨hi, hs⟩ | ⟨hb, i, hop, hs⟩ | ⟨_, _, hs⟩⟩ <;>
    rw [hs] at h <;> cases h
  · rcases (s.withEvents es).agentEvent_engine e with hk | rfl | hst
    · exact .inl hk
    · exact .inr (.inl ⟨es, hev, rfl⟩)
    · exact .inr (.inr (.inl ⟨e, es, hev, hst⟩))
  · exact .inl ⟨rfl, rfl⟩
  · have hd := State.decode_fetchBytes_iff.mpr hop
    exact .inr (.inr (.inr ⟨es, i, hev, hb, hd, exec_eq _ _, completes_complete _ _⟩))

/-- Settles O10: of all that a step can do, only the start of a command makes an idle block BUSY. -/
theorem onlyALegalCommandWriteStartsTheEngine : Obligations.OnlyALegalCommandWriteStartsTheEngine := by
  intro s t hidle hstep hbusy
  rcases step_engine_cases hstep with ⟨heng, _⟩ | ⟨es, _, rfl⟩ | ⟨e, es, hev, hst⟩ | ⟨_, _, _, hb, _⟩
  · rw [heng, hidle] at hbusy; cases hbusy
  · rw [State.resetInput_eng] at hbusy; cases hbusy
  · obtain ⟨a, w, i, rfl, hop, hoff, _, hd, rfl⟩ := hst
    exact ⟨a, w, es, i, hev, hop, hoff, hd, rfl⟩
  · rw [hidle] at hb; cases hb

/-- Settles O11: of all that a step can do, only a reset and the *complete* step make a BUSY block idle. -/
theorem onlyCompletionOrResetEndsACommand : Obligations.OnlyCompletionOrResetEndsACommand := by
  intro s t hbusy hstep hidle
  rcases step_engine_cases hstep with ⟨heng, _⟩ | ⟨es, hev, _⟩ | ⟨e, es, _, hst⟩ | ⟨es, i, hev, _, hd, hx, _⟩
  · rw [heng, hbusy] at hidle; cases hidle
  · exact .inl ⟨es, hev⟩
  · obtain ⟨_, _, _, _, _, _, _, _, rfl⟩ := hst
    cases hidle
  · exact .inr ⟨es, i, hev, hd, hx⟩

/-- Settles O12: of all that a step can do, only a reset and the start of a command change LATCH. -/
theorem onlyAStartOrAResetWritesTheLatch : Obligations.OnlyAStartOrAResetWritesTheLatch := by
  intro s t hstep
  rcases step_engine_cases hstep with ⟨_, hl⟩ | ⟨es, hev, _⟩ | ⟨e, es, _, hst⟩ | ⟨_, _, _, _, _, _, hc⟩
  · exact .inl hl
  · exact .inr (.inl ⟨es, hev⟩)
  · obtain ⟨_, _, _, _, _, _, hi, _, rfl⟩ := hst
    exact .inr (.inr ⟨hi, rfl, rfl⟩)
  · obtain ⟨_, _, _, _, _, _, hl, _⟩ := hc.keepsRest
    exact .inl hl

end Sys2Proof.Machine
end

section
/-! SUPPORT. The invariant: each update of the state keeps it, so every step does. -/

namespace Sys2Proof.Machine

/-! ### ERR and the last command word -/

theorem State.errIsPossible_ok {s : State} {i : Instr} (h : decodeWord s.cmd = .ok i) :
    s.errIsPossible ↔ s.err = .none ∨ s.err ∈ errorsOf i := by
  simp only [State.errIsPossible, h]

theorem State.errIsPossible_error {s : State} {e : DecodeError} (h : decodeWord s.cmd = .error e) :
    s.errIsPossible ↔ s.err = .none ∨ s.err = .badCmd := by
  simp only [State.errIsPossible, h]

/-- No error is possible after any word. -/
theorem State.errIsPossible_none {s : State} (h : s.err = .none) : s.errIsPossible := by
  cases hd : decodeWord s.cmd with
  | ok i => exact (State.errIsPossible_ok hd).mpr (.inl h)
  | error e => exact (State.errIsPossible_error hd).mpr (.inl h)

/-! ### Updates that keep the invariant

It speaks of none of the fields that an answer, an observation or the passing of an event changes. -/

theorem State.Inv.reply {s : State} (h : s.Inv) (r : Reply) : (s.reply r).Inv := h

theorem State.Inv.withEnded {s : State} (h : s.Inv) (u : List Ended) : (s.withEnded u).Inv := h

theorem State.Inv.withEvents {s : State} (h : s.Inv) (es : List Event) : (s.withEvents es).Inv := h

/-- A write to STATUS only clears DONE, which a running command has at 0. -/
theorem State.Inv.statusWrite {s : State} (h : s.Inv) (w : Word) : (s.statusWrite w).Inv := by
  obtain ⟨hmem, hop, hwork, herr, hbusy, hidle⟩ := h
  refine ⟨hmem, hop, hwork, herr, fun hb => ?_, hidle⟩
  obtain ⟨hcmd, hdec, hdone, hrest⟩ := hbusy hb
  exact ⟨hcmd, hdec, by rw [State.statusWrite_done, hdone, Bool.false_and], hrest⟩

theorem State.Inv.startCommand {s : State} (h : s.Inv) {w : Word} {i : Instr} (hd : decodeWord w = .ok i) :
    (s.startCommand w).Inv := by
  obtain ⟨hmem, _, hwork, _⟩ := h
  exact ⟨hmem, rfl, hwork, State.errIsPossible_none rfl,
    fun _ => ⟨zeroExtend_of_decodeWord hd, ⟨i, hd⟩, rfl, rfl, rfl, rfl, rfl⟩, nofun⟩

theorem State.Inv.rejectCommand {s : State} (h : s.Inv) (hi : s.eng = .idle) {w : Word} {e : DecodeError}
    (hd : decodeWord w = .error e) : (s.rejectCommand w).Inv := by
  obtain ⟨hmem, _, hwork, _, _, hidle⟩ := h
  have herr := (State.errIsPossible_error (s := s.rejectCommand w) hd).mpr (.inr rfl)
  refine ⟨hmem, rfl, hwork, herr, fun hb => ?_, hidle⟩
  rw [State.rejectCommand_eng, hi] at hb
  cases hb

theorem State.Inv.mmioWrite {s : State} (h : s.Inv) (off : Nat) (w : Word) : (s.mmioWrite off w).Inv := by
  rcases s.mmioWrite_cases off w with ⟨_, hc⟩ | hc | ⟨b, a, hc⟩ <;> rw [hc]
  · rcases s.commandWrite_cases w with ⟨_, hw⟩ | ⟨_, ⟨i, hd⟩, hw⟩ | ⟨hi, ⟨e, hd⟩, hw⟩ <;> rw [hw]
    · exact h
    · exact h.startCommand hd
    · exact h.rejectCommand hi hd
  · exact h.statusWrite w
  · exact h

theorem State.Inv.mmioAccess {s : State} (h : s.Inv) (a : MmioAccess) : (s.mmioAccess a).Inv := by
  cases hwf : a.wellFormed (windowOffset s.cfg a.addr) with
  | false => rw [State.mmioAccess_undefined hwf]; exact h.reply _
  | true =>
    cases ho : a.op with
    | read =>
      obtain ⟨u, hu, _⟩ := s.hostRead_eq (windowOffset s.cfg a.addr)
      rw [State.mmioAccess_read hwf ho, hu]
      exact (h.withEnded u).reply _
    | write w => rw [State.mmioAccess_write hwf ho]; exact (h.mmioWrite _ w).reply _

theorem State.Inv.memWrite {s : State} (h : s.Inv) (addr : Word) (b : Byte) :
    State.Inv { s with mem := memWrite s.mem addr.toNat b } := by
  obtain ⟨hmem, hrest⟩ := h
  exact ⟨memWrite_wf hmem addr.isLt b, hrest⟩

/-- A broken hazard rule redraws ERR and the results of an ended command only while the block is idle and CMD still
holds that command's word, to an outcome the command can have; and it notes a hazard only while BUSY. -/
theorem State.Inv.breach {s : State} (h : s.Inv) (hit : Latch → Bool) : (s.breach hit).Inv := by
  obtain ⟨hmem, hop, hwork, herr, hbusy, hidle⟩ := h
  obtain ⟨z, hb, hz⟩ := s.breach_eq hit
  obtain ⟨⟨m, e, len, aux, info, d, hs⟩, _, hwf, hout⟩ := State.spoilEnded_kept hit s.ended s
  rw [hs] at hb hwf hout
  rw [hb]
  refine ⟨hwf hmem, hop, hwork, ?_, fun heng => ?_, fun heng => ?_⟩
  · rcases hout with ⟨rfl, _⟩ | ⟨q, _, _, i, _, hcmd, hq, hr⟩
    · exact herr
    · exact (State.errIsPossible_ok (i := i) (by rw [← hq, ← decodeWord_zeroExtend, ← hcmd])).mpr hr
  · rcases hout with ⟨rfl, rfl, rfl, rfl⟩ | ⟨_, _, _, _, hi, _⟩
    · exact hbusy heng
    · exact absurd (heng.symm.trans hi) nofun
  · have hi : s.eng = .idle := heng
    simp [hz, State.busy, hi, hidle hi]

/-- The register values of 10_state.md R43 meet the invariant over any canonical memory. -/
theorem State.resetRegisters_inv {s : State} (h : memWf s.mem = true) : s.resetRegisters.Inv :=
  ⟨h, rfl, freeWork_fits _, State.errIsPossible_none rfl, nofun, fun _ => rfl⟩

theorem State.Inv.resetInput {s : State} (h : s.Inv) : s.resetInput.Inv := by
  obtain ⟨hmem, _⟩ := h
  rcases s.resetInput_cases with ⟨_, hr⟩ | ⟨_, hr⟩ <;> rw [hr]
  · exact State.resetRegisters_inv hmem
  · exact State.resetRegisters_inv (State.scramble_wf hmem (latchedSpans_inSpace _))

/-- An event of another agent keeps the invariant. -/
theorem State.Inv.agentEvent {s : State} (h : s.Inv) (e : Event) : (s.agentEvent e).Inv := by
  cases e with
  | mmio a => exact h.mmioAccess a
  | memWrite addr b => exact (h.memWrite addr b).breach _
  | memRead addr =>
    simp only [State.agentEvent, State.agentRead]
    split <;> exact h
  | otherCommand reads writes => exact h.breach _
  | irqSample =>
    obtain ⟨u, hu, _⟩ := s.sampleIrq_eq
    rw [State.agentEvent, hu]
    exact (h.withEnded u).reply _
  | reset => exact h.resetInput
  | engine => exact h

/-- The end of the running command keeps the invariant: CMD still holds its word, so its errors are possible. -/
theorem State.Inv.completes {s t : State} (h : s.Inv) (hb : s.eng = .busy) {i : Instr}
    (hop : s.latch.op = i.cmdWord.opcode) (hc : Completes i s t) : t.Inv := by
  obtain ⟨hmem, hlast, _, _, hbusy, _⟩ := h
  obtain ⟨hcmd, _⟩ := hbusy hb
  have hd : decodeWord s.cmd = .ok i := by
    rw [hcmd, decodeWord_zeroExtend]
    exact decodeOpcode_iff.mpr hop
  obtain ⟨m, d, e, len, aux, info, ht, he, hwf⟩ := hc
  have herr : t.errIsPossible := (State.errIsPossible_ok (by rw [ht]; exact hd)).mpr (by rw [ht]; exact he)
  subst ht
  exact ⟨hwf hmem, hlast, freeWork_fits _, herr, nofun, fun _ => rfl⟩

/-- Settles O25: an event of another agent keeps the invariant, and so does the end of the running command. -/
theorem everyStepKeepsTheInvariant : Obligations.EveryStepKeepsTheInvariant := by
  intro s t hinv hstep
  rcases step_cases s with ⟨e, es, _, _, hs⟩ | ⟨es, _, ⟨_, hs⟩ | ⟨hb, i, hop, hs⟩ | ⟨_, _, hs⟩⟩ <;>
    rw [hs] at hstep <;> cases hstep
  · exact (hinv.withEvents es).agentEvent e
  · exact hinv.withEvents es
  · exact (hinv.withEvents es).completes hb hop (completes_complete i _)

/-- Settles O4, by the two laws of the step: the engine's turn, and what a BUSY engine does in it. -/
theorem stepRunsTheDecodedCommand : Obligations.StepRunsTheDecodedCommand := by
  intro s es i hev hb _ hd
  rw [step_engine hev]
  exact State.engineTurn_busy hb hd

/-! ### Host accesses, `irq` and reset -/

/-- Settles O20: in the window, an access of the shape of R52 is the write or the read of the register at its offset. -/
theorem hostAccessesReachTheirRegister : Obligations.HostAccessesReachTheirRegister := by
  refine ⟨fun s => ⟨rfl, rfl, rfl, rfl, rfl, rfl, rfl, rfl, rfl, rfl, rfl, rfl⟩, ?_, ?_⟩
  · intro s a es w hev hwidth hbeats hmul hlast hop
    have hwf : a.wellFormed (windowOffset (s.withEvents es).cfg a.addr) = true :=
      MmioAccess.wellFormed_iff.mpr ⟨hwidth, hbeats, hmul, Nat.lt_succ_of_le (hlast.trans (by decide))⟩
    rw [step_agent hev nofun, State.agentEvent, State.mmioAccess_write hwf hop, State.withEvents_cfg]
  · intro s a es hev hwidth hbeats hmul hlast hop
    have hwf : a.wellFormed (windowOffset (s.withEvents es).cfg a.addr) = true :=
      MmioAccess.wellFormed_iff.mpr ⟨hwidth, hbeats, hmul, Nat.lt_succ_of_le (hlast.trans (by decide))⟩
    obtain ⟨u, hu, hother, hdone, hbusy⟩ := (s.withEvents es).hostRead_eq (windowOffset s.cfg a.addr)
    refine ⟨u, ?_, hother, hdone, hbusy⟩
    rw [step_agent hev nofun, State.agentEvent, State.mmioAccess_read hwf hop, State.withEvents_cfg, hu]
    rfl

/-- The level of `irq` after the end of any command is IRQ_EN (60_exceptions.md R207). -/
theorem Completes.irq {i : Instr} {s t : State} (h : Completes i s t) : t.irq = s.irqEn := by
  obtain ⟨_, _, _, _, _, _, rfl, _⟩ := h
  rfl

/-- Settles O21: DONE and IRQ_EN after each update; a sample changes only the list of ended commands. -/
theorem interruptFollowsDoneAndEnable : Obligations.InterruptFollowsDoneAndEnable := by
  refine ⟨fun s => rfl, fun i s t h => (exec_completes h).irq, fun s w => ⟨rfl, rfl⟩, fun s => ⟨?_, ?_⟩,
    fun s => ⟨?_, rfl⟩, fun s hd => ?_, fun s es hev => ?_⟩
  · have hclear : s.acknowledge.done = false := by simp [State.acknowledge]
    rw [State.irq, hclear, Bool.false_and]
  · rcases s.resetInput_cases with ⟨_, h⟩ | ⟨_, h⟩ <;> rw [h] <;> rfl
  · exact Bool.and_false s.done
  · exact (Bool.and_true s.done).trans hd
  · obtain ⟨u, hu, hlow⟩ := (s.withEvents es).sampleIrq_eq
    exact ⟨u, by rw [step_agent hev nofun, State.agentEvent, hu]; rfl, hlow⟩

/-- From 0x10 on every offset of the state after reset reads 0 (10_state.md R43). -/
theorem resetWith_mmioRead (c : Config) {off : Nat} (h : 0x10 ≤ off) : (State.resetWith c).mmioRead off = 0 := by
  cases hr : regAt off with
  | none => exact State.mmioRead_reserved _ hr
  | some r =>
    obtain rfl := offset_of_regAt hr
    rw [State.mmioRead_offset]
    cases r
    case id | cap => exact absurd h (by decide)
    case ctrl => exact (by decide : State.reset.ctrlWord = 0)
    case status => exact (by decide : State.reset.statusWord = 0)
    all_goals rfl

/-- A reset leaves each register at its value in the state after reset. -/
theorem State.resetRegisters_mmioRead (s : State) (off : Nat) :
    s.resetRegisters.mmioRead off = (State.resetWith s.cfg).mmioRead off :=
  State.mmioRead_congr fun r _ => by cases r <;> rfl

/-- Settles O23: no word was written yet, so no error is possible but none. -/
theorem resetStateMeetsTheInvariant : Obligations.ResetStateMeetsTheInvariant := by
  intro c
  refine ⟨⟨rfl, rfl, ?_, State.errIsPossible_none rfl, nofun, fun _ => rfl⟩, rfl, rfl,
    fun _ => resetWith_mmioRead c⟩
  exact ⟨Nat.zero_le _, Nat.zero_le _, Nat.zero_le _⟩

/-- Settles O22: the reset input ends in the register values of the state after reset. -/
theorem resetLeavesTheTable : Obligations.ResetLeavesTheTable := by
  intro s es hev
  have table : ∀ u : State, ∀ off, 0x10 ≤ off → u.resetRegisters.mmioRead off = 0 := fun u off hoff => by
    rw [u.resetRegisters_mmioRead, resetWith_mmioRead _ hoff]
  refine ⟨(s.withEvents es).resetInput, by rw [step_agent hev nofun, State.agentEvent], ?_⟩
  rcases (s.withEvents es).resetInput_cases with ⟨_, h⟩ | ⟨hb, h⟩ <;> rw [h]
  · exact ⟨rfl, rfl, rfl, rfl, rfl, table _, rfl, rfl, fun _ => rfl⟩
  · exact ⟨rfl, rfl, rfl, rfl, rfl, table _, rfl, rfl, fun hi => absurd (hi.symm.trans hb) nofun⟩

end Sys2Proof.Machine
end

section
/-! SUPPORT. Memory as the map of 20_memory.md R50, the bytes a command may change however it ends, and the bytes of a
frame that the encoder reads. -/

namespace Sys2Proof.Machine

/-! ### Canonical memories (20_memory.md R50) -/

/-- Past its first cell a canonical memory reads as its tail, and the tail reads as the background at the first cell. -/
theorem memRead_tail {lo k : Nat} {b : Byte} {m : List Host.Cell} (w : memWfFrom lo ((k, b) :: m) = true) (a : Nat) :
    memRead m a = if a = k then background else memRead ((k, b) :: m) a := by
  obtain ⟨_, _, _, hm⟩ := memWfFrom_cons.mp w
  split
  · next h => exact memRead_below hm (by omega)
  · next h => exact (memRead_cons_ne b m (Ne.symm h)).symm

/-- The first cell of a canonical memory is not below that of another which reads alike. -/
theorem first_le_first {lo lo' k k' : Nat} {b b' : Byte} {m m' : List Host.Cell}
    (w : memWfFrom lo ((k, b) :: m) = true) (w' : memWfFrom lo' ((k', b') :: m') = true)
    (h : memRead ((k, b) :: m) k = memRead ((k', b') :: m') k) : k' ≤ k := by
  by_contra hlt
  obtain ⟨_, _, hb, _⟩ := memWfFrom_cons.mp w
  obtain ⟨_, hrest⟩ := memWfFrom_cons.mp w'
  rw [memRead_cons_self, memRead_below (memWfFrom_cons.mpr ⟨le_refl k', hrest⟩) (by omega)] at h
  exact hb h

/-- A canonical memory that reads as the background everywhere lists no cell. -/
theorem eq_nil_of_reads_background {lo : Nat} {m : List Host.Cell} (w : memWfFrom lo m = true)
    (h : ∀ a, memRead m a = background) : m = [] := by
  cases m with
  | nil => rfl
  | cons kb m =>
    obtain ⟨k, b⟩ := kb
    obtain ⟨_, _, hb, _⟩ := memWfFrom_cons.mp w
    exact absurd ((memRead_cons_self k b m).symm.trans (h k)) hb

/-- Canonical lists of cells that read alike are equal: their first cells are, and their tails read alike. -/
theorem eq_of_reads_alike {lo lo' : Nat} {m m' : List Host.Cell} (w : memWfFrom lo m = true)
    (w' : memWfFrom lo' m' = true) (h : ∀ a, memRead m a = memRead m' a) : m = m' := by
  induction m generalizing lo lo' m' with
  | nil => exact (eq_nil_of_reads_background w' fun a => (h a).symm).symm
  | cons kb m ih =>
    cases m' with
    | nil => exact eq_nil_of_reads_background w h
    | cons kb' m' =>
      obtain ⟨k, b⟩ := kb
      obtain ⟨k', b'⟩ := kb'
      obtain rfl : k = k' := le_antisymm (first_le_first w' w (h k').symm) (first_le_first w w' (h k))
      obtain rfl : b = b' := by simpa only [memRead_cons_self] using h k
      obtain ⟨_, _, _, hm⟩ := memWfFrom_cons.mp w
      obtain ⟨_, _, _, hm'⟩ := memWfFrom_cons.mp w'
      have htail : m = m' := ih hm hm' fun a => by rw [memRead_tail w, memRead_tail w', h a]
      rw [htail]

/-- Settles O28, by induction on the cells. -/
theorem canonicalMemoriesThatReadAlikeAreEqual : Obligations.CanonicalMemoriesThatReadAlikeAreEqual :=
  fun _ _ w w' h => eq_of_reads_alike w w' h

/-! ### The may-write set of a command (20_memory.md R60) -/

/-- Phase B with nothing refused changes no byte outside the may-write set. -/
theorem memSameOutside_settle {i : Instr} {s : State} {p : Port} {out : Verdict × Port}
    (h : BodyOk i s.latch.args p out) (hm : p.mem = s.mem) :
    MemSameOutside s (s.settle i out.1 out.2) (maySpans i s.latch.args) := by
  obtain ⟨v, q⟩ := out
  intro x hx
  cases v with
  | raise r => exact State.memRead_scramble (s.withDraws q.draws) _ (errorSpans_in_maySpans hx)
  | finish len aux =>
    have hq : memRead q.mem x = memRead s.mem x := hm ▸ h.frame x hx
    exact (State.memRead_scramble (s.afterPort q) _ (scratchSpans_in_maySpans hx)).trans hq

/-- Nor does phase B with an access refused, in either of the errors it can end in. -/
theorem memSameOutside_settleRefused {i : Instr} {s : State} {refused : List Nat} (h : refused ≠ [])
    (lossy : Verdict × Port) :
    MemSameOutside s (s.settleRefused i refused lossy) (maySpans i s.latch.args) := by
  intro x hx
  rcases s.settleRefused_cases i h lossy with ⟨r, d, _, hb⟩ | ⟨y, d, _, hb⟩ <;> rw [hb]
  · exact State.memRead_scramble (s.withDraws d) _ (errorSpans_in_maySpans hx)
  · exact State.memRead_scramble (s.withDraws d) _ hx

/-- Settles O30, by the ways in which the *complete* step can end. -/
theorem commandsWriteOnlyTheirMayWriteSet : Obligations.CommandsWriteOnlyTheirMayWriteSet := by
  intro i s t hexec
  rw [exec_eq] at hexec
  cases hexec
  rcases s.complete_cases i (earlyCheckOf i) (bodyOf i) with
    ⟨_, hz⟩ | ⟨_, _, ⟨r, _, ha⟩ | ⟨hn, ⟨_, hs⟩ | ⟨hx, hs⟩⟩⟩
  · rw [hz]; exact fun x hx => s.memRead_scramble _ hx
  · rw [ha]; exact fun x hx => s.memRead_failA fun _ => scratchSpans_in_maySpans hx
  · rw [hs]; exact memSameOutside_settle (body_ok (fits_of_phaseA hn) _) rfl
  · rw [hs]; exact memSameOutside_settleRefused hx _

/-! ### Alpha bytes (20_memory.md R59) -/

/-- Two frames agree at every byte but alpha. -/
def SameRgb (P P' : Bytes) : Prop := ∀ x, x % 4 ≠ 3 → byteAt P x = byteAt P' x

/-- No RGB byte of a pair is an alpha byte of the frame. -/
theorem rgbOffset_not_alpha {k j : Nat} (h : j ∈ rgbOffsets) : (pairBytes * k + j) % 4 ≠ 3 := by
  simp only [rgbOffsets, List.mem_cons, List.not_mem_nil, or_false] at h
  simp only [pairBytes]
  omega

theorem payload_congr {C C' : Bytes} (h : SameRgb C C') (k : Nat) : payload C k = payload C' k :=
  List.map_congr_left fun _ hj => h _ (rgbOffset_not_alpha hj)

theorem dirty_congr {P C P' C' : Bytes} (hP : SameRgb P P') (hC : SameRgb C C') (k : Nat) :
    dirty P C k = dirty P' C' k := by
  rw [Bool.eq_iff_iff]
  simp only [dirty, List.any_eq_true]
  refine exists_congr fun j => and_congr_right fun hj => ?_
  rw [hP _ (rgbOffset_not_alpha hj), hC _ (rgbOffset_not_alpha hj)]

/-- One pair of the encoder's loop takes of the frames only whether the pair is dirty, and its payload. -/
theorem encPair_congr {P C P' C' : Bytes} (hP : SameRgb P P') (hC : SameRgb C C') : encPair P C = encPair P' C' := by
  funext e k
  have hmark : encMark P C k e = encMark P' C' k e := by
    rw [encMark, encMark, dirty_congr hP hC, payload_congr hC]
  rw [encPair, encPair, hmark]

/-- Settles O40: the encoder takes of the frames only their number of pairs, which pairs are dirty, and payloads. -/
theorem alphaNeverAffectsTheStream : Obligations.AlphaNeverAffectsTheStream := by
  intro P C P' C' hlen h
  have hpair : encPair P C = encPair P' C' := encPair_congr (fun x hx => (h x hx).1) fun x hx => (h x hx).2
  simp only [encodeDelta, hlen, hpair]

end Sys2Proof.Machine
end

section
/-! SUPPORT. What the other agents do to memory: accesses of an undefined shape, writes and clashing commands that
break a hazard rule, and reads while BUSY. -/

namespace Sys2Proof.Machine

/-- Settles O19: such an access is not of the shape of R52. -/
theorem undefinedAccessOnlyAnswersAnError : Obligations.UndefinedAccessOnlyAnswersAnError := by
  intro s a es hev hshape
  have hwf : a.wellFormed (windowOffset (s.withEvents es).cfg a.addr) = false := by
    rw [← Bool.not_eq_true, MmioAccess.wellFormed_iff, State.withEvents_cfg]
    omega
  rw [step_agent hev nofun, State.agentEvent, State.mmioAccess_undefined hwf]

/-! ### Latched commands -/

theorem latchedUses_of_decode {l : Latch} {i : Instr} (h : decodeOpcode l.op = .ok i) (x : Nat) :
    latchedUses l x = usesByte i l.args x := by
  rw [latchedUses, h]

theorem latchedSpans_of_decode {l : Latch} {i : Instr} (h : decodeOpcode l.op = .ok i) :
    latchedSpans l = maySpans i l.args := by
  rw [latchedSpans, h]

/-- What the engine runs is what LATCH.OP decodes to. -/
theorem State.decodeOpcode_latch {s : State} {i : Instr} (h : decode s.fetchBytes = .ok i) :
    decodeOpcode s.latch.op = .ok i :=
  s.fetch_eq.symm.trans h

/-- A window meets a region with which it shares a byte. -/
theorem windowMeets_of_shared {w : Window} {r : Region} {x : Nat} (hw : windowHolds w x = true)
    (hr : r.holds x = true) : windowMeets w r = true := by
  simp only [windowHolds, Bool.and_eq_true, decide_eq_true_eq] at hw
  rw [Region.holds_iff] at hr
  simp only [windowMeets, Region.limit, Bool.and_eq_true, decide_eq_true_eq]
  omega

/-- A command of another block clashes with a latched one where the two share a byte that either writes
(20_memory.md R68). -/
theorem latchedClash_of_shared {l : Latch} {i : Instr} {reads writes : List Window} (hd : decodeOpcode l.op = .ok i)
    (h : ∃ r ∈ usedRegions i, ∃ x, (l.args.region r).holds x = true ∧
      ((∃ w ∈ writes, windowHolds w x = true) ∨ (r = .dst ∨ r = .scr) ∧ ∃ w ∈ reads, windowHolds w x = true)) :
    latchedClash l reads writes = true := by
  obtain ⟨r, hr, x, hx, hshared⟩ := h
  rw [latchedClash, hd]
  refine List.any_eq_true.mpr ⟨r, hr, ?_⟩
  simp only [Bool.or_eq_true, Bool.and_eq_true, List.any_eq_true, beq_iff_eq]
  rcases hshared with ⟨w, hw, hwx⟩ | ⟨hrole, w, hw, hwx⟩
  · exact .inl ⟨w, hw, windowMeets_of_shared hwx hx⟩
  · exact .inr ⟨hrole, w, hw, windowMeets_of_shared hwx hx⟩

/-- The state with the byte that another agent wrote in memory. -/
def State.stored (s : State) (addr : Word) (b : Byte) : State := { s with mem := memWrite s.mem addr.toNat b }

/-- The write of another agent stores its byte, and breaks a hazard rule for the commands that use the byte. -/
theorem step_memWrite {s : State} {addr : Word} {b : Byte} {es : List Event} (h : s.events = .memWrite addr b :: es) :
    step s = .next (((s.withEvents es).stored addr b).breach fun l => latchedUses l addr.toNat) :=
  step_agent h nofun

/-- A command of another block only breaks a hazard rule for the commands with which it clashes. -/
theorem step_otherCommand {s : State} {reads writes : List Window} {es : List Event}
    (h : s.events = .otherCommand reads writes :: es) :
    step s = .next ((s.withEvents es).breach fun l => latchedClash l reads writes) :=
  step_agent h nofun

/-! ### Broken hazard rules (70_reset_and_hazards.md R240, R241) -/

/-- A broken hazard rule changes no byte but in the may-write sets of the ended commands for which it was broken. -/
theorem State.memRead_breach (s : State) (hit : Latch → Bool) {x : Nat}
    (h : ∀ e ∈ s.ended, Breached hit e → inSpans (latchedSpans e.latch) x = false) :
    memRead (s.breach hit).mem x = memRead s.mem x := by
  obtain ⟨_, hb, _⟩ := s.breach_eq hit
  obtain ⟨_, hframe, _⟩ := State.spoilEnded_kept hit s.ended s
  rw [hb]
  exact hframe x h

/-- It changes nothing but memory, ERR, the results, the number of draws and the hazard note. -/
theorem State.breach_registers (s : State) (hit : Latch → Bool) :
    ∃ m e len aux info z d, s.breach hit =
      { s with mem := m, err := e, resultLen := len, resultAux := aux, errInfo := info, hazard := z, draws := d } := by
  obtain ⟨z, hb, _⟩ := s.breach_eq hit
  obtain ⟨⟨_, _, _, _, _, _, hs⟩, _⟩ := State.spoilEnded_kept hit s.ended s
  rw [hb, hs]
  exact ⟨_, _, _, _, _, z, _, rfl⟩

theorem State.breach_args (s : State) (hit : Latch → Bool) : (s.breach hit).args = s.args := by
  obtain ⟨_, _, _, _, _, _, _, h⟩ := s.breach_registers hit
  rw [h]

theorem State.breach_ended (s : State) (hit : Latch → Bool) : (s.breach hit).ended = s.ended := by
  obtain ⟨_, _, _, _, _, _, _, h⟩ := s.breach_registers hit
  rw [h]

/-- Where it was broken for the running command, that is noted. -/
theorem State.breach_running {s : State} {hit : Latch → Bool} (hb : s.eng = .busy) (hh : hit s.latch = true) :
    (s.breach hit).hazard = true := by
  obtain ⟨z, h, hz⟩ := s.breach_eq hit
  rw [h, hz, State.busy, hb, hh]
  rfl

/-- In an idle block nothing is noted. -/
theorem State.breach_idle {s : State} (hi : s.eng = .idle) (hit : Latch → Bool) : (s.breach hit).hazard = s.hazard := by
  obtain ⟨z, h, hz⟩ := s.breach_eq hit
  rw [h, hz, State.busy, hi]
  rfl

/-- ERR and the results stay, or become those of an ended command for which the rule was broken and whose word CMD
holds. -/
theorem State.breach_results (s : State) (hit : Latch → Bool) :
    ((s.breach hit).err = s.err ∧ (s.breach hit).resultLen = s.resultLen ∧
      (s.breach hit).resultAux = s.resultAux ∧ (s.breach hit).errInfo = s.errInfo) ∨
    ∃ e ∈ s.ended, Breached hit e ∧ s.cmd = e.latch.op.zeroExtend 64 ∧
      ∃ i, decodeOpcode e.latch.op = .ok i ∧ ((s.breach hit).err = .none ∨ (s.breach hit).err ∈ errorsOf i) := by
  obtain ⟨_, hb, _⟩ := s.breach_eq hit
  obtain ⟨_, _, _, hout⟩ := State.spoilEnded_kept hit s.ended s
  rw [hb]
  rcases hout with hsame | ⟨e, he, hbr, i, _, hcmd, hi, hr⟩
  · exact .inl hsame
  · exact .inr ⟨e, he, hbr, hcmd, i, hi, hr⟩

/-- Where it was broken for no command that is guarded, nothing changes. -/
theorem State.breach_none {s : State} {hit : Latch → Bool} (hi : s.eng = .idle)
    (h : ∀ e ∈ s.ended, ¬ Breached hit e) : s.breach hit = s := by
  have hn : (s.busy && hit s.latch) = false := by simp [State.busy, hi]
  rw [State.breach, State.spoilEnded_none h, hn]
  rfl

/-- Every command ends, in whatever state, as R241 wants of one for which a hazard rule was broken. -/
theorem exec_ends_within_maySpans (i : Instr) (s : State) :
    ∃ t, exec i s = .next t ∧ t.eng = .idle ∧ t.done = true ∧ (t.err = .none ∨ t.err ∈ errorsOf i) ∧
      MemSameOutside s t (maySpans i s.latch.args) ∧ KeepsRest s t := by
  obtain ⟨t, hexec, hidle, hdone, herr, hrest⟩ := everyCommandEndsInSuccessOrOneOfItsErrors i s
  exact ⟨t, hexec, hidle, hdone, herr, commandsWriteOnlyTheirMayWriteSet i s t hexec, hrest⟩

/-- Settles O53: the breach is noted for the running command, and a noted command ends as every command does. -/
theorem brokenHazardRuleStillEndsTheCommand : Obligations.BrokenHazardRuleStillEndsTheCommand := by
  refine ⟨fun s i addr b es hev hbusy hd huses hwf => ?_, fun s i reads writes es hev hbusy hd hshared => ?_,
    fun i s _ => exec_ends_within_maySpans i s⟩
  · have hhit : latchedUses s.latch addr.toNat = true :=
      (latchedUses_of_decode (State.decodeOpcode_latch hd) _).trans huses
    obtain ⟨heng, hlatch⟩ := ((s.withEvents es).stored addr b).breach_kept fun l => latchedUses l addr.toNat
    refine ⟨_, step_memWrite hev, State.breach_running hbusy hhit, heng.trans hbusy, hlatch, State.breach_args _ _,
      fun x hx => ?_⟩
    rw [← memRead_memWrite hwf addr.toNat x b]
    exact State.memRead_breach _ _ fun e he ⟨hseen, huse⟩ => hx e he hseen huse
  · have hhit : latchedClash s.latch reads writes = true :=
      latchedClash_of_shared (State.decodeOpcode_latch hd) hshared
    obtain ⟨heng, hlatch⟩ := (s.withEvents es).breach_kept fun l => latchedClash l reads writes
    exact ⟨_, step_otherCommand hev, State.breach_running hbusy hhit, heng.trans hbusy, hlatch, State.breach_args _ _,
      fun x hx => State.memRead_breach _ _ fun e he ⟨hseen, hclash⟩ => hx e he hseen hclash⟩

/-! ### The span of an ended command (20_memory.md R63 part 2) -/

/-- A host write keeps the list of ended commands, the start of the next command too. -/
theorem State.mmioWrite_ended (s : State) (off : Nat) (w : Word) : (s.mmioWrite off w).ended = s.ended := by
  rcases s.mmioWrite_cases off w with ⟨_, hc⟩ | hc | ⟨_, _, hc⟩ <;> rw [hc]
  · rcases s.commandWrite_cases w with ⟨_, h⟩ | ⟨_, _, h⟩ | ⟨_, _, h⟩ <;> rw [h] <;> rfl
  · rfl

/-- Only a read of STATUS or a taken interrupt changes the list of ended commands. -/
theorem State.agentEvent_ended (s : State) (e : Event) :
    (s.agentEvent e).ended = s.ended ∨ e = .irqSample ∨
      ∃ a, e = .mmio a ∧ a.op = .read ∧ windowOffset s.cfg a.addr = 0x20 := by
  cases e with
  | mmio a =>
    rw [State.agentEvent]
    cases hwf : a.wellFormed (windowOffset s.cfg a.addr) with
    | false => rw [State.mmioAccess_undefined hwf]; exact .inl rfl
    | true =>
      cases ho : a.op with
      | write w => rw [State.mmioAccess_write hwf ho]; exact .inl (s.mmioWrite_ended _ w)
      | read =>
        by_cases hoff : windowOffset s.cfg a.addr = 0x20
        · exact .inr (.inr ⟨a, rfl, ho, hoff⟩)
        · obtain ⟨u, hu, hother, _⟩ := s.hostRead_eq (windowOffset s.cfg a.addr)
          rw [State.mmioAccess_read hwf ho, hu]
          exact .inl (hother hoff)
  | memWrite addr b => exact .inl (State.breach_ended { s with mem := memWrite s.mem addr.toNat b } _)
  | memRead addr =>
    rw [State.agentEvent, State.agentRead]
    split <;> exact .inl rfl
  | otherCommand reads writes => exact .inl (s.breach_ended _)
  | irqSample => exact .inr (.inl rfl)
  | reset =>
    rcases s.resetInput_cases with ⟨_, h⟩ | ⟨_, h⟩ <;> rw [State.agentEvent, h] <;> exact .inl rfl
  | engine => exact .inl rfl

/-- A completion adds its command to the ended ones. -/
theorem Completes.ended {i : Instr} {s t : State} (h : Completes i s t) : t.ended = s.ended ++ [⟨s.latch, false⟩] := by
  obtain ⟨_, _, _, _, _, _, rfl, _⟩ := h
  rfl

/-- A step forgets an ended command only as an observation. -/
theorem step_keeps_ended {s t : State} (h : step s = .next t) {e : Ended} (he : e ∈ s.ended) :
    e ∈ t.ended ∨ (∃ es, s.events = .irqSample :: es) ∨
      ∃ a es, s.events = .mmio a :: es ∧ a.op = .read ∧ windowOffset s.cfg a.addr = 0x20 := by
  rcases step_cases s with ⟨v, es, hev, _, hs⟩ | ⟨es, _, ⟨_, hs⟩ | ⟨_, i, _, hs⟩ | ⟨_, _, hs⟩⟩ <;>
    rw [hs] at h <;> cases h
  · rcases (s.withEvents es).agentEvent_ended v with hk | rfl | ⟨a, rfl, hop, hoff⟩
    · exact .inl (hk ▸ he)
    · exact .inr (.inl ⟨es, hev⟩)
    · exact .inr (.inr ⟨a, es, hev, hop, hoff⟩)
  · exact .inl he
  · rw [(completes_complete i (s.withEvents es)).ended]
    exact .inl (List.mem_append_left _ he)

/-- A byte stored at an address and the breach that goes with it leave every other byte that no breached command may
write. -/
theorem State.memRead_stored_breach (s : State) (addr : Word) (b : Byte) (hit : Latch → Bool) {x : Nat}
    (h : ∀ e ∈ s.ended, e.seen = false → hit e.latch = true → inSpans (latchedSpans e.latch) x = false)
    (hx : x ≠ addr.toNat) : memRead ((s.stored addr b).breach hit).mem x = memRead s.mem x :=
  ((s.stored addr b).memRead_breach hit fun e he ⟨hseen, huse⟩ => h e he hseen huse).trans
    (memRead_memWrite_ne s.mem b hx)

/-- Settles O54, by what a broken hazard rule can do to an idle block. -/
theorem lateWriteStaysWithinTheHazardSpan : Obligations.LateWriteStaysWithinTheHazardSpan := by
  refine ⟨fun s addr b es hev hidle => ⟨⟨_, step_memWrite hev, ?_⟩, fun hnone => ?_⟩,
    fun s t hstep e he => step_keeps_ended hstep he⟩
  · have hhazard := State.breach_idle (s := (s.withEvents es).stored addr b) hidle fun l => latchedUses l addr.toNat
    have hresults := ((s.withEvents es).stored addr b).breach_results fun l => latchedUses l addr.toNat
    have hmem := fun x => (s.withEvents es).memRead_stored_breach addr b (fun l => latchedUses l addr.toNat) (x := x)
    obtain ⟨m, e, len, aux, info, z, d, hu⟩ :=
      ((s.withEvents es).stored addr b).breach_registers fun l => latchedUses l addr.toNat
    rw [hu] at hhazard hresults hmem ⊢
    refine ⟨hidle, rfl, rfl, rfl, rfl, rfl, rfl, rfl, rfl, rfl, rfl, hhazard, rfl, rfl, ?_, hmem⟩
    rcases hresults with hsame | ⟨q, hq, ⟨hseen, huse⟩, hcmd, hi⟩
    · exact .inl hsame
    · exact .inr ⟨q, hq, hseen, huse, hcmd, hi⟩
  · have hunused : ∀ e ∈ s.ended, ¬ Breached (fun l => latchedUses l addr.toNat) e := fun e he ⟨hseen, huse⟩ =>
      absurd huse (by simp [hnone e he hseen])
    rw [step_memWrite hev, State.breach_none (s := (s.withEvents es).stored addr b) hidle hunused]
    rfl

/-! ### Reads while BUSY (70_reset_and_hazards.md R242) -/

/-- A read by another agent only answers a byte, and perhaps draws it. -/
theorem State.agentRead_eq (s : State) (addr : Word) :
    ∃ b d, s.agentRead addr = (s.withDraws d).reply (.byte b) := by
  unfold State.agentRead
  split
  · exact ⟨_, _, rfl⟩
  · exact ⟨_, s.draws, rfl⟩

/-- The read of a byte of idempotent memory that no guarded command may write answers that byte. -/
theorem State.agentRead_unguarded {s : State} {addr : Word}
    (hg : ∀ l ∈ s.guarded, inSpans (latchedSpans l) addr.toNat = false)
    (hm : (s.cfg.nonIdempotent.any fun w => windowHolds w addr.toNat) = false) :
    s.agentRead addr = s.reply (.byte (memRead s.mem addr.toNat)) := by
  have hg' : (s.guarded.any fun l => inSpans (latchedSpans l) addr.toNat) = false :=
    List.any_eq_false.mpr fun l hl => by simp [hg l hl]
  rw [State.agentRead, hg', hm]
  rfl

/-- A guarded command is the one that LATCH holds, or an ended one whose end is not yet observed. -/
theorem State.mem_guarded {s : State} {l : Latch} (h : l ∈ s.guarded) :
    l = s.latch ∨ ∃ e ∈ s.ended, e.seen = false ∧ e.latch = l := by
  rcases List.mem_append.mp h with h | h
  · obtain ⟨e, he, rfl⟩ := List.mem_map.mp h
    obtain ⟨hmem, hseen⟩ := List.mem_filter.mp he
    exact .inr ⟨e, hmem, by simpa using hseen, rfl⟩
  · split at h
    · exact .inl (List.mem_singleton.mp h)
    · cases h

/-- Settles O55: the running command and the unobserved ones are those that guard a byte. -/
theorem hostReadWhileBusyIsHarmless : Obligations.HostReadWhileBusyIsHarmless := by
  intro s i addr es hev _ hd
  have hstep : step s = .next ((s.withEvents es).agentRead addr) := step_agent hev nofun
  have hspans : latchedSpans s.latch = maySpans i s.latch.args := latchedSpans_of_decode (State.decodeOpcode_latch hd)
  by_cases hplain : (inSpans (maySpans i s.latch.args) addr.toNat = false ∧
      (∀ e ∈ s.ended, e.seen = false → inSpans (latchedSpans e.latch) addr.toNat = false) ∧
      (s.cfg.nonIdempotent.any fun w => windowHolds w addr.toNat) = false)
  · obtain ⟨hrun, hended, hmem⟩ := hplain
    have hg : ∀ l ∈ (s.withEvents es).guarded, inSpans (latchedSpans l) addr.toNat = false := fun l hl => by
      rcases State.mem_guarded hl with rfl | ⟨e, he, hseen, rfl⟩
      · exact hspans ▸ hrun
      · exact hended e he hseen
    exact ⟨_, _, s.draws, hstep.trans (congrArg _ (State.agentRead_unguarded hg hmem)), rfl, fun _ _ _ => ⟨rfl, rfl⟩⟩
  · obtain ⟨b, d, hread⟩ := (s.withEvents es).agentRead_eq addr
    exact ⟨_, b, d, hstep.trans (congrArg _ hread), rfl, fun hrun hended hmem => absurd ⟨hrun, hended, hmem⟩ hplain⟩

end Sys2Proof.Machine
end

section
/-! SUPPORT. Commands that complete: phase A passes, no access is refused, and phase B leaves its output in memory. -/

namespace Sys2Proof.Machine

/-! ### Phase A passes (40_command_interface.md R99 to R101) -/

/-- Two regions overlap exactly where they share a byte (40_command_interface.md R100). -/
theorem overlaps_iff_shared {a b : Region} : overlaps a b = true ↔ ∃ x, a.holds x = true ∧ b.holds x = true := by
  simp only [Region.holds_iff, overlaps, Region.limit, Bool.and_eq_true, decide_eq_true_eq]
  constructor
  · intro h
    exact ⟨max a.base b.base, by omega, by omega⟩
  · rintro ⟨x, ha, hb⟩
    omega

/-- Every pair that the overlap check looks at is of two regions, the second one that the command writes. -/
theorem overlapOrder_written : ∀ p ∈ overlapOrder, p.1 ≠ p.2 ∧ (p.2 = .dst ∨ p.2 = .scr) := by decide

theorem checkOverlap_none_of_apart {i : Instr} {a : Args} (h : RegionsApart i a) :
    checkOverlap (usedRegions i) a = none := by
  simp only [checkOverlap, Option.map_eq_none_iff, List.find?_eq_none, Bool.and_eq_true, List.contains_iff_mem]
  rintro p hp ⟨⟨h1, h2⟩, hover⟩
  obtain ⟨hne, hwritten⟩ := overlapOrder_written p hp
  obtain ⟨x, hx1, hx2⟩ := overlaps_iff_shared.mp hover
  rw [h p.1 h1 p.2 h2 hne hwritten x hx1] at hx2
  cases hx2

/-- Phase A passes where the regions are in order and the command's own check passes. -/
theorem phaseA_none {i : Instr} {early : Args → Option Raise} {a : Args} (hfit : RegionsFit i a)
    (hapart : RegionsApart i a) (hearly : early a = none) : phaseA i early a = none := by
  have hregions : checkRegions (usedRegions i) a = none := checkRegions_none.mpr hfit
  rw [phaseA, hregions, checkOverlap_none_of_apart hapart, hearly]
  rfl

theorem geometryCheck_none {a : Args} (h : FramesMatch a) : geometryCheck a = none := by
  obtain ⟨hsize, hpairs⟩ := h
  rw [geometryCheck, if_neg (not_not_intro hsize), if_neg (not_not_intro hpairs)]

/-- The first length that the four length bytes cannot hold (42_entropy_stage.md R150). -/
theorem lenLimit_eq : lenLimit = 2 ^ 32 := rfl

theorem sizeCheck_none {a : Args} (h : a.src0.size < 2 ^ 32) : sizeCheck a = none :=
  if_neg (by rw [lenLimit_eq]; omega)

/-! ### Phase B ends in success -/

/-- Where no hazard rule was broken and phase A passes, the *complete* step is phase B. -/
theorem State.complete_eq_phaseB {s : State} {i : Instr} {early : Args → Option Raise}
    (body : Args → Port → Verdict × Port) (hquiet : Quiet i s) (hphase : phaseA i early s.latch.args = none) :
    s.complete i early body = s.phaseB i body := by
  obtain ⟨hhazard, hmem⟩ := hquiet
  simp [State.complete, hhazard, hmem, hphase]

/-- A command whose evaluation finishes with nothing refused succeeds, over the memory that the evaluation left but for
the scratch bytes (40_command_interface.md R98, 43_codec_facade.md R183). -/
theorem exec_of_finish {i : Instr} {s : State} {len aux : Nat} {q : Port} (hquiet : Quiet i s)
    (hphase : phaseA i (earlyCheckOf i) s.latch.args = none)
    (hbody : bodyOf i s.latch.args (s.port false s.draws) = (.finish len aux, q)) (hrefused : q.refused = []) :
    ∃ t, exec i s = .next t ∧ Ends t .none len aux 0 ∧ KeepsRest s t ∧
      ∀ x, inSpans (scratchSpans i s.latch.args) x = false → memRead t.mem x = memRead q.mem x := by
  have hsettle : s.phaseB i (bodyOf i) = s.settle i (.finish len aux) q := by
    simp only [State.phaseB, hbody, hrefused, if_true]
  refine ⟨_, exec_eq i s, ?_⟩
  rw [State.complete_eq_phaseB _ hquiet hphase, hsettle]
  exact ⟨⟨rfl, rfl, rfl, rfl, rfl, fun _ => rfl⟩, ⟨rfl, rfl, rfl, rfl, rfl, rfl, rfl, rfl, rfl⟩,
    fun x hx => State.memRead_scramble (s.afterPort q) _ hx⟩

/-- The port with other bytes in memory. -/
def Port.withMem (p : Port) (m : List Host.Cell) : Port := { p with mem := m }

@[simp] theorem Port.withMem_mem (p : Port) (m : List Host.Cell) : (p.withMem m).mem = m := rfl
@[simp] theorem Port.withMem_cfg (p : Port) (m : List Host.Cell) : (p.withMem m).cfg = p.cfg := rfl
@[simp] theorem Port.withMem_refused (p : Port) (m : List Host.Cell) : (p.withMem m).refused = p.refused := rfl

/-! ### The pieces of the bodies, every access accepted -/

theorem State.port_bytesOf {s : State} {r : Region} (h : Admitted s.cfg .read r.base r.size) (d : Nat) :
    (s.port false d).bytesOf r = (regionBytes s r, s.port false d) :=
  Port.read_admitted h

theorem gatherDelta_admitted {a : Args} {p : Port} (h0 : Admitted p.cfg .read a.src0.base a.src0.size)
    (h1 : Admitted p.cfg .read a.src1.base a.src1.size) :
    gatherDelta a p =
      (encodeDelta (memBytes p.mem a.src0.base a.src0.size) (memBytes p.mem a.src1.base a.src1.size), p) := by
  simp only [gatherDelta, Port.frameOf, Port.readFrame_admitted h0, Port.readFrame_admitted h1]

/-- Bytes written inside memory space are there. -/
theorem holds_memWriteBytes {m : List Host.Cell} (w : memWf m = true) {a : Nat} {bs : Bytes}
    (h : a + bs.length ≤ addrSpace) : Holds (memWriteBytes m a bs) a bs :=
  fun _ hj => memRead_memWriteBytes_at w h hj 0

/-- A delta stream comes back from SCR unchanged (20_memory.md R63 part 3). -/
theorem throughScratch_admitted {a : Args} {p : Port} {D : Bytes} (w : memWf p.mem = true)
    (hfit : a.scr.base + D.length ≤ addrSpace) (hw : Admitted p.cfg .write a.scr.base D.length)
    (hr : Admitted p.cfg .read a.scr.base D.length) :
    throughScratch D a p = (D, p.withMem (memWriteBytes p.mem a.scr.base D)) := by
  have hread : (p.withMem (memWriteBytes p.mem a.scr.base D)).read a.scr.base D.length = _ := Port.read_admitted hr
  rw [Port.withMem_mem, memBytes_eq_of_reads (holds_memWriteBytes w hfit)] at hread
  rw [throughScratch, Port.write_admitted hw]
  exact hread

/-- The compressed form of an input whose length four bytes hold (42_entropy_stage.md R150). -/
theorem compressBytes_ok (c : Config) {X : Bytes} (h : X.length < 2 ^ 32) :
    compressBytes c X = .ok (leBytes 4 X.length ++ entropyEncode c X) :=
  if_neg (by rw [lenLimit_eq]; omega)

/-- What a compressed stream decodes to is within the buffer (42_entropy_stage.md R151). -/
theorem decompressBytes_length {c : Config} {Y X : Bytes} {cap : Nat} {ovf : ErrCode}
    (h : decompressBytes c Y cap ovf = .ok X) : X.length ≤ cap := by
  rcases decompressBytes_cases c Y cap ovf with ⟨r, h', _⟩ | ⟨X', h', hl⟩ <;> rw [h] at h' <;> cases h'
  exact hl

theorem emitCompressed_admitted {X : Bytes} {a : Args} {p : Port} {Y : Bytes} (aux : Nat)
    (hY : compressBytes p.cfg X = .ok Y) (hfit : Y.length ≤ a.dst.size)
    (hw : Admitted p.cfg .write a.dst.base Y.length) :
    emitCompressed X aux a p = (.finish Y.length aux, p.withMem (memWriteBytes p.mem a.dst.base Y)) := by
  simp only [emitCompressed, hY, Nat.not_lt.mpr hfit, if_false, Port.write_admitted hw]
  rfl

theorem applyStream_ok_eq {D : Bytes} {a : Args} {recs : List Record} (h : parseDelta D a.dst.size = .ok recs)
    (p : Port) : applyStream D a p = (.finish D.length recs.length, p.scatter a.dst.base recs) := by
  simp only [applyStream, h]

/-! ### Commands that write one output -/

/-- A command that has no scratch region and whose evaluation stores `Y` in DST succeeds with `Y` there and every other
byte as it was. -/
theorem exec_writes_output {i : Instr} {s : State} {len aux : Nat} {Y : Bytes} (hwf : memWf s.mem = true)
    (hquiet : Quiet i s) (hphase : phaseA i (earlyCheckOf i) s.latch.args = none)
    (hscratch : scratchSpans i s.latch.args = [])
    (hfit : s.latch.args.dst.base + Y.length ≤ addrSpace)
    (hbody : bodyOf i s.latch.args (s.port false s.draws) =
      (.finish len aux, (s.port false s.draws).withMem (memWriteBytes s.mem s.latch.args.dst.base Y))) :
    ∃ t, exec i s = .next t ∧ Ends t .none len aux 0 ∧ KeepsRest s t ∧ Holds t.mem s.latch.args.dst.base Y ∧
      ∀ x, (x < s.latch.args.dst.base ∨ s.latch.args.dst.base + Y.length ≤ x) →
        memRead t.mem x = memRead s.mem x := by
  obtain ⟨t, hexec, hends, hrest, hmem⟩ := exec_of_finish hquiet hphase hbody rfl
  have hmem' : ∀ x, memRead t.mem x = memRead (memWriteBytes s.mem s.latch.args.dst.base Y) x :=
    fun x => hmem x (by rw [hscratch]; rfl)
  refine ⟨t, hexec, hends, hrest, fun j hj => ?_, fun x hx => ?_⟩
  · rw [hmem', holds_memWriteBytes hwf hfit j hj]
  · rw [hmem', memRead_memWriteBytes_ne _ _ hx]

/-- Settles O43: the stream is the one output of ENCODE_DELTA. -/
theorem encodeDeltaWritesTheStream : Obligations.EncodeDeltaWritesTheStream := by
  intro s hwf hquiet hfit hapart hframes a D h0 h1 hw hlen
  have hdst : a.dst.base + a.dst.size ≤ addrSpace := hfit .dst (by decide)
  refine exec_writes_output hwf hquiet (phaseA_none hfit hapart (geometryCheck_none hframes)) rfl
    (Nat.le_trans (Nat.add_le_add_left hlen _) hdst) ?_
  have hgather : gatherDelta a (s.port false s.draws) = (D, s.port false s.draws) := gatherDelta_admitted h0 h1
  have hwrite := Port.write_admitted (p := s.port false s.draws) hw
  simp only [bodyOf, encodeDeltaBody, a, hgather, Nat.not_lt.mpr hlen, if_false, hwrite]
  rfl

/-- Settles O45: the four length bytes and the encoder's bytes are the one output of COMPRESS. -/
theorem compressWritesPrefixAndBody : Obligations.CompressWritesPrefixAndBody := by
  intro s hwf hquiet hfit hapart a Y hsize hr hw hlen
  have hdst : a.dst.base + a.dst.size ≤ addrSpace := hfit .dst (by decide)
  refine exec_writes_output hwf hquiet (phaseA_none hfit hapart (sizeCheck_none hsize)) rfl
    (Nat.le_trans (Nat.add_le_add_left hlen _) hdst) ?_
  have hread := State.port_bytesOf hr s.draws
  have hX : (regionBytes s a.src0).length = a.src0.size := memBytes_length _ _ _
  have hY : compressBytes s.cfg (regionBytes s a.src0) = .ok Y := by
    rw [compressBytes_ok _ (hX ▸ hsize), hX]
  simp only [bodyOf, compressBody, a, hread, hX]
  exact emitCompressed_admitted _ hY hlen hw

/-- Settles O46: the decoded bytes are the one output of DECOMPRESS. -/
theorem decompressWritesTheDecodedBytes : Obligations.DecompressWritesTheDecodedBytes := by
  intro s X hwf hquiet hfit hapart a hr hX hw
  have hdst : a.dst.base + a.dst.size ≤ addrSpace := hfit .dst (by decide)
  have hlen : X.length ≤ a.dst.size := decompressBytes_length hX
  refine exec_writes_output hwf hquiet (phaseA_none hfit hapart rfl) rfl
    (Nat.le_trans (Nat.add_le_add_left hlen _) hdst) ?_
  have hread := State.port_bytesOf hr s.draws
  have hX' : decompressBytes (s.port false s.draws).cfg (regionBytes s a.src0) a.dst.size .dstOverflow = .ok X := hX
  have hwrite := Port.write_admitted (p := s.port false s.draws) hw
  simp only [bodyOf, decompressBody, a, hread, hX', hwrite]
  rfl

end Sys2Proof.Machine
end

section
/-! SUPPORT. Commands that complete with the records of a delta stream, and the two mixed commands: the records name
ascending pairs, and what is left in SCR does not reach DST. -/

namespace Sys2Proof.Machine

/-! ### The records ascend (41_delta_stage.md R122) -/

/-- The pairs that a header flags ascend from the first of their group. -/
theorem pendOf_ascends (h : Byte) (base : Nat) :
    (pendOf h base).Pairwise (· < ·) ∧ ∀ k ∈ pendOf h base, base ≤ k ∧ k < base + groupPairs := by
  constructor
  · refine List.Pairwise.map _ (fun _ _ hlt => Nat.add_lt_add_left hlt base) ?_
    exact (List.pairwise_lt_range (n := groupPairs)).filter _
  · intro k hk
    obtain ⟨i, hi, rfl⟩ := List.mem_map.mp hk
    have := List.mem_range.mp (List.mem_filter.mp hi).1
    omega

/-- The records of a group name its pending pairs, in their order. -/
theorem groupRecords_pairs {D : Bytes} {cap hpos c c' : Nat} {ks : List Nat} {rs : List Record}
    (h : groupRecords D cap hpos ks c = .ok (rs, c')) : rs.map Prod.fst = ks := by
  induction ks generalizing c rs with
  | nil => cases h; rfl
  | cons k ks ih =>
    rw [groupRecords] at h
    split at h
    · cases h
    · split at h
      · cases h
      · cases hr : groupRecords D cap hpos ks (c + payloadBytes) with
        | error e => rw [hr] at h; cases h
        | ok q => rw [hr] at h; cases h; simp [ih hr]

/-- The pairs of the records from a group on ascend from the first pair of the group. -/
theorem parseGroups_ascends {D : Bytes} {cap fuel c base : Nat} {recs : List Record}
    (h : parseGroups D cap fuel c base = .ok recs) :
    (recs.map Prod.fst).Pairwise (· < ·) ∧ ∀ k ∈ recs.map Prod.fst, base ≤ k := by
  induction fuel generalizing c base recs with
  | zero => cases h; simp
  | succ fuel ih =>
    rw [parseGroups] at h
    split at h
    · cases hg : groupRecords D cap c (pendOf (byteAt D c) base) (c + 1) with
      | error e => rw [hg] at h; cases h
      | ok q =>
        obtain ⟨rs, c'⟩ := q
        cases hm : parseGroups D cap fuel c' (base + groupPairs) with
        | error e => simp only [hg, hm] at h; cases h
        | ok more =>
          simp only [hg, hm] at h
          cases h
          obtain ⟨hasc, hrange⟩ := pendOf_ascends (byteAt D c) base
          obtain ⟨hasc', hfrom⟩ := ih hm
          rw [List.map_append, groupRecords_pairs hg, List.pairwise_append]
          refine ⟨⟨hasc, hasc', fun k hk k' hk' => ?_⟩, fun k hk => ?_⟩
          · exact Nat.lt_of_lt_of_le (hrange k hk).2 (hfrom k' hk')
          · rcases List.mem_append.mp hk with hk | hk
            · exact (hrange k hk).1
            · exact Nat.le_trans (Nat.le_add_right _ _) (hfrom k hk)
    · cases h; simp

/-- The records of an accepted stream name ascending pairs. -/
theorem parseDelta_ascends {D : Bytes} {cap : Nat} {recs : List Record} (h : parseDelta D cap = .ok recs) :
    recs.Pairwise fun r q => r.1 < q.1 :=
  List.pairwise_map.mp (parseGroups_ascends h).1

/-! ### Records in the frame buffer -/

/-- A pair holds its payload in any memory that agrees on its eight bytes. -/
theorem PairHolds.congr {m m' : List Host.Cell} {a k : Nat} {q : Bytes} (h : PairHolds m a k q)
    (hm : ∀ j, j < 8 → memRead m' (a + 8 * k + j) = memRead m (a + 8 * k + j)) : PairHolds m' a k q := by
  obtain ⟨h0, h1, h2, h3, h4, h5⟩ := h
  exact ⟨(hm 0 (by decide)).trans h0, (hm 1 (by decide)).trans h1, (hm 2 (by decide)).trans h2,
    (hm 4 (by decide)).trans h3, (hm 5 (by decide)).trans h4, (hm 6 (by decide)).trans h5⟩

/-- The scatterer leaves the records of an accepted stream in the frame buffer. -/
theorem scatter_parsed_holds {p : Port} {D : Bytes} {a : Args} {recs : List Record} (w : memWf p.mem = true)
    (hfit : a.dst.base + a.dst.size ≤ addrSpace) (hparse : parseDelta D a.dst.size = .ok recs)
    (hw : ∀ x, InRecords a.dst.base recs x → admits p.cfg .write x = true) :
    ∀ r ∈ recs, PairHolds (p.scatter a.dst.base recs).mem a.dst.base r.1 r.2 :=
  Port.scatter_holds w (parseDelta_fit hparse) hfit (parseDelta_ascends hparse) hw

/-- Settles O44: the records are scattered over memory as it was. -/
theorem applyDeltaWritesTheRecords : Obligations.ApplyDeltaWritesTheRecords := by
  intro s recs hwf hquiet hfit hapart a hr hparse hw
  have hbody : bodyOf .applyDelta a (s.port false s.draws) =
      (.finish a.src0.size recs.length, (s.port false s.draws).scatter a.dst.base recs) := by
    have hD : (regionBytes s a.src0).length = a.src0.size := memBytes_length _ _ _
    simp only [bodyOf, applyDeltaBody, State.port_bytesOf hr, applyStream_ok_eq hparse, hD]
  obtain ⟨t, hexec, hends, hrest, hmem⟩ :=
    exec_of_finish hquiet (phaseA_none hfit hapart rfl) hbody (Port.scatter_refused hw)
  have hmem' := fun x => hmem x rfl
  refine ⟨t, hexec, hends, hrest, fun r hrec => ?_, fun x hx => ?_⟩
  · exact (scatter_parsed_holds (p := s.port false s.draws) hwf (hfit .dst (by decide)) hparse hw r hrec).congr
      fun _ _ => hmem' _
  · rw [hmem', Port.memRead_scatter _ hx]
    rfl

/-! ### The scratch region (43_codec_facade.md R183) -/

/-- A byte outside SCR is in no scratch span. -/
theorem not_in_scratchSpans {i : Instr} {a : Args} {x : Nat} (hfit : a.scr.base + a.scr.size ≤ addrSpace)
    (h : a.scr.holds x = false) : inSpans (scratchSpans i a) x = false := by
  cases i
  case mixedCompress | mixedDecompress => simpa [scratchSpans, inSpans, Region.span_holds hfit] using h
  all_goals rfl

/-- Bytes written to SCR change no byte outside it. -/
theorem memRead_scratch_outside {r : Region} {D : Bytes} (m : List Host.Cell) (hlen : D.length ≤ r.size) {x : Nat}
    (h : r.holds x = false) : memRead (memWriteBytes m r.base D) x = memRead m x := by
  rw [← Bool.not_eq_true, Region.holds_iff] at h
  exact memRead_memWriteBytes_ne m D (by omega)

/-- Where regions are apart, no byte of DST is one of SCR. -/
theorem dst_byte_not_in_scr {i : Instr} {a : Args} (h : RegionsApart i a) (hd : .dst ∈ usedRegions i)
    (hs : .scr ∈ usedRegions i) {off : Nat} (hoff : off < a.dst.size) : a.scr.holds (a.dst.base + off) = false :=
  h .dst hd .scr hs (by decide) (.inr rfl) _
    (Region.holds_iff.mpr ⟨Nat.le_add_right _ _, Nat.add_lt_add_left hoff _⟩)

/-- Settles O47: the output is written over what SCR was left with, and the two regions share no byte. -/
theorem mixedCompressWritesTheCompressedStream : Obligations.MixedCompressWritesTheCompressedStream := by
  intro s hwf hquiet hfit hapart hframes a D Y h0 h1 hsw hsr hscr hlt hw hlen
  have hdst : a.dst.base + a.dst.size ≤ addrSpace := hfit .dst (by decide)
  have hscrfit : a.scr.base + a.scr.size ≤ addrSpace := hfit .scr (by decide)
  have hD : a.scr.base + D.1.length ≤ addrSpace := Nat.le_trans (Nat.add_le_add_left hscr _) hscrfit
  have hY : a.dst.base + Y.length ≤ addrSpace := Nat.le_trans (Nat.add_le_add_left hlen _) hdst
  have hbody : bodyOf .mixedCompress a (s.port false s.draws) =
      (.finish Y.length D.2, (s.port false s.draws).withMem
        (memWriteBytes (memWriteBytes s.mem a.scr.base D.1) a.dst.base Y)) := by
    have hgather : gatherDelta a (s.port false s.draws) = (D, s.port false s.draws) := gatherDelta_admitted h0 h1
    have hthrough := throughScratch_admitted (p := s.port false s.draws) hwf hD hsw hsr
    simp only [bodyOf, mixedCompressBody, hgather, Nat.not_lt.mpr hscr, if_false, hthrough]
    exact emitCompressed_admitted _ (compressBytes_ok _ hlt) hlen hw
  obtain ⟨t, hexec, hends, hrest, hmem⟩ :=
    exec_of_finish hquiet (phaseA_none hfit hapart (geometryCheck_none hframes)) hbody rfl
  have hmem' := fun x hx => hmem x (not_in_scratchSpans hscrfit hx)
  refine ⟨t, hexec, hends, hrest, fun j hj => ?_, fun x hx hxs => ?_⟩
  · rw [hmem' _ (dst_byte_not_in_scr hapart (by decide) (by decide) (Nat.lt_of_lt_of_le hj hlen))]
    exact holds_memWriteBytes (memWriteBytes_wf hwf _ hD) hY j hj
  · rw [hmem' _ hxs]
    exact (memRead_memWriteBytes_ne _ _ hx).trans (memRead_scratch_outside _ hscr hxs)

/-- Settles O48: the records are scattered over what SCR was left with, and the two regions share no byte. -/
theorem mixedDecompressWritesTheRecords : Obligations.MixedDecompressWritesTheRecords := by
  intro s D recs hwf hquiet hfit hapart a hr hdec hsw hsr hparse hw
  have hdst : a.dst.base + a.dst.size ≤ addrSpace := hfit .dst (by decide)
  have hscrfit : a.scr.base + a.scr.size ≤ addrSpace := hfit .scr (by decide)
  have hscr : D.length ≤ a.scr.size := decompressBytes_length hdec
  have hD : a.scr.base + D.length ≤ addrSpace := Nat.le_trans (Nat.add_le_add_left hscr _) hscrfit
  have hbody : bodyOf .mixedDecompress a (s.port false s.draws) =
      (.finish D.length recs.length,
        ((s.port false s.draws).withMem (memWriteBytes s.mem a.scr.base D)).scatter a.dst.base recs) := by
    have hdec' : decompressBytes (s.port false s.draws).cfg (regionBytes s a.src0) a.scr.size .scrOverflow = .ok D :=
      hdec
    have hthrough := throughScratch_admitted (p := s.port false s.draws) hwf hD hsw hsr
    simp only [bodyOf, mixedDecompressBody, State.port_bytesOf hr, hdec', hthrough]
    exact applyStream_ok_eq hparse _
  obtain ⟨t, hexec, hends, hrest, hmem⟩ :=
    exec_of_finish hquiet (phaseA_none hfit hapart rfl) hbody (Port.scatter_refused hw)
  have hmem' := fun x hx => hmem x (not_in_scratchSpans hscrfit hx)
  refine ⟨t, hexec, hends, hrest, fun r hrec => ?_, fun x hx hxs => ?_⟩
  · have hin := scatter_parsed_holds (p := (s.port false s.draws).withMem (memWriteBytes s.mem a.scr.base D))
      (memWriteBytes_wf hwf _ hD) hdst hparse hw r hrec
    refine hin.congr fun j hj => hmem' _ ?_
    have hpair : 8 * r.1 + 8 ≤ a.dst.size := parseDelta_fit hparse r hrec
    rw [Nat.add_assoc]
    exact dst_byte_not_in_scr hapart (by decide) (by decide) (by omega : 8 * r.1 + j < a.dst.size)
  · rw [hmem' _ hxs, Port.memRead_scatter _ hx]
    exact memRead_scratch_outside _ hscr hxs

end Sys2Proof.Machine
end

section
/-! SUPPORT. The accesses of an evaluation that takes memory as it stands (log entry 12): which refusals it notes, and
that they are those of the accesses that the command needs, or of alpha bytes that it may fetch. -/

namespace Sys2Proof.Machine

/-! ### Accesses and the refusals they note -/

/-- A set of port accesses. -/
abbrev Accesses := AccessKind → Nat → Prop

/-- The accesses of either set. -/
def Accesses.or (A B : Accesses) : Accesses := fun k x => A k x ∨ B k x

/-- One access. -/
def oneAccess (k : AccessKind) (a : Nat) : Accesses := fun k' x => k' = k ∧ x = a

/-- An evaluation without loss took the port `p` to `q`, making every access of `must` and none but those of `may`: `q`
notes the refused ones. -/
structure Visits (p q : Port) (must may : Accesses) : Prop where
  cfg   : q.cfg = p.cfg
  plain : q.lossy = false
  kept  : ∀ x ∈ p.refused, x ∈ q.refused
  noted : ∀ k x, must k x → admits p.cfg k x = false → x ∈ q.refused
  found : ∀ x ∈ q.refused, x ∈ p.refused ∨ ∃ k, may k x ∧ admits p.cfg k x = false

theorem Visits.refl {p : Port} (h : p.lossy = false) {A : Accesses} (hA : ∀ k x, ¬ A k x) (B : Accesses) :
    Visits p p A B :=
  ⟨rfl, h, fun _ => id, fun k x hm => absurd hm (hA k x), fun _ => .inl⟩

theorem Visits.trans {p q r : Port} {A B A' B' : Accesses} (h : Visits p q A B) (h' : Visits q r A' B') :
    Visits p r (A.or A') (B.or B') where
  cfg := h'.cfg.trans h.cfg
  plain := h'.plain
  kept x hx := h'.kept x (h.kept x hx)
  noted k x hm ha := by
    rcases hm with hm | hm
    · exact h'.kept x (h.noted k x hm ha)
    · exact h'.noted k x hm (by rw [h.cfg]; exact ha)
  found x hx := by
    rcases h'.found x hx with hq | ⟨k, hm, ha⟩
    · rcases h.found x hq with hp | ⟨k, hm, ha⟩
      · exact .inl hp
      · exact .inr ⟨k, .inl hm, ha⟩
    · exact .inr ⟨k, .inr hm, by rw [← h.cfg]; exact ha⟩

/-- Fewer accesses must be made, and more may be. -/
theorem Visits.mono {p q : Port} {A B A' B' : Accesses} (h : Visits p q A B) (hA : ∀ k x, A' k x → A k x)
    (hB : ∀ k x, B k x → B' k x) : Visits p q A' B' :=
  ⟨h.cfg, h.plain, h.kept, fun k x hm => h.noted k x (hA k x hm), fun x hx =>
    (h.found x hx).imp_right fun ⟨k, hm, ha⟩ => ⟨k, hB k x hm, ha⟩⟩

/-- A draw is no access. -/
theorem Visits.ofDraw {p q : Port} {d : Nat} {A B : Accesses} (h : Visits { p with draws := d } q A B) :
    Visits p q A B :=
  ⟨h.cfg, h.plain, h.kept, h.noted, h.found⟩

/-- A single access notes its address where it is refused. -/
theorem visits_oneAccess {p q : Port} {k : AccessKind} {a : Nat} (hc : q.cfg = p.cfg) (hl : q.lossy = false)
    (hr : q.refused = if admits p.cfg k a then p.refused else p.refused ++ [a]) :
    Visits p q (oneAccess k a) (oneAccess k a) := by
  cases ha : admits p.cfg k a with
  | true =>
    rw [ha, if_pos rfl] at hr
    refine ⟨hc, hl, fun x hx => by rwa [hr], ?_, fun x hx => .inl (by rwa [← hr])⟩
    rintro _ _ ⟨rfl, rfl⟩ hn
    rw [ha] at hn
    cases hn
  | false =>
    rw [ha, if_neg Bool.false_ne_true] at hr
    refine ⟨hc, hl, fun x hx => ?_, ?_, fun x hx => ?_⟩
    · rw [hr]; exact List.mem_append_left _ hx
    · rintro _ _ ⟨rfl, rfl⟩ _
      rw [hr]
      exact List.mem_append_right _ (List.mem_singleton_self _)
    · rw [hr] at hx
      exact (List.mem_append.mp hx).imp_right fun hx => ⟨k, ⟨rfl, List.mem_singleton.mp hx⟩, by
        rw [List.mem_singleton.mp hx]; exact ha⟩

/-! ### One byte -/

theorem Port.readByte_visits {p : Port} (h : p.lossy = false) (a : Nat) :
    Visits p (p.readByte a).2 (oneAccess .read a) (oneAccess .read a) := by
  refine visits_oneAccess (p.readByte_cfg a) (by rw [p.readByte_lossy, h]) ?_
  unfold Port.readByte
  split
  · rfl
  · rw [h]; rfl

/-- A read without loss answers the byte that memory holds. -/
theorem Port.readByte_plain {p : Port} (h : p.lossy = false) (a : Nat) : (p.readByte a).1 = memRead p.mem a := by
  unfold Port.readByte
  split
  · rfl
  · rw [h]; rfl

theorem Port.writeByte_lossy (p : Port) (a : Nat) (b : Byte) : (p.writeByte a b).lossy = p.lossy := by
  unfold Port.writeByte
  split
  · rfl
  · split <;> rfl

theorem Port.writeByte_visits {p : Port} (h : p.lossy = false) (a : Nat) (b : Byte) :
    Visits p (p.writeByte a b) (oneAccess .write a) (oneAccess .write a) := by
  refine visits_oneAccess (p.writeByte_cfg a b) (by rw [p.writeByte_lossy, h]) ?_
  unfold Port.writeByte
  split
  · rfl
  · rw [h]; rfl

/-- A write without loss stores its byte. -/
theorem Port.writeByte_plain {p : Port} (h : p.lossy = false) (a : Nat) (b : Byte) :
    (p.writeByte a b).mem = memWrite p.mem a b := by
  unfold Port.writeByte
  split
  · rfl
  · rw [h]; rfl

/-- The fetch of a frame byte is a read, which an alpha byte may go without (20_memory.md R59). -/
theorem Port.readFrameByte_visits {p : Port} (h : p.lossy = false) (a off : Nat) :
    Visits p (p.readFrameByte a off).2 (fun k x => oneAccess .read a k x ∧ alphaOffset off = false)
      (oneAccess .read a) := by
  unfold Port.readFrameByte
  split
  · next hc =>
    have halpha : ∀ k x, ¬ (oneAccess .read a k x ∧ alphaOffset off = false) := fun k x hm => by
      rw [hm.2] at hc
      cases hc
    split
    · exact (Port.readByte_visits (p := { p with draws := p.draws + 1 }) h a).ofDraw.mono
        (fun k x hm => absurd hm (halpha k x)) fun _ _ => id
    · exact (Visits.refl (p := { p with draws := p.draws + 1 }) h halpha _).ofDraw
  · exact (Port.readByte_visits h a).mono (fun _ _ hm => hm.1) fun _ _ => id

theorem Port.readFrameByte_plain {p : Port} (h : p.lossy = false) (a off : Nat) :
    (p.readFrameByte a off).1 = memRead p.mem a := by
  unfold Port.readFrameByte
  split
  · split
    · exact Port.readByte_plain (p := { p with draws := p.draws + 1 }) h a
    · rfl
  · exact Port.readByte_plain h a

/-! ### Ranges of bytes -/

/-- The accesses of a kind to the `n` bytes from `a` on. -/
def rangeAccesses (k : AccessKind) (a n : Nat) : Accesses := fun k' x => k' = k ∧ a ≤ x ∧ x < a + n

/-- A range is its first byte and the rest. -/
theorem rangeAccesses_succ {k k' : AccessKind} {a n x : Nat} :
    rangeAccesses k a (n + 1) k' x ↔ (oneAccess k a).or (rangeAccesses k (a + 1) n) k' x := by
  simp only [rangeAccesses, Accesses.or, oneAccess, ← and_or_left]
  exact and_congr_right fun _ => by omega

theorem rangeAccesses_zero (k : AccessKind) (a : Nat) : ∀ k' x, ¬ rangeAccesses k a 0 k' x :=
  fun _ _ ⟨_, h1, h2⟩ => absurd h1 (by omega)

theorem Port.read_visits {p : Port} (h : p.lossy = false) (a n : Nat) :
    Visits p (p.read a n).2 (rangeAccesses .read a n) (rangeAccesses .read a n) := by
  induction n generalizing p a with
  | zero => exact Visits.refl h (rangeAccesses_zero _ _) _
  | succ n ih =>
    have hbyte := Port.readByte_visits h a
    exact (hbyte.trans (ih hbyte.plain (a + 1))).mono (fun _ _ => rangeAccesses_succ.mp)
      fun _ _ => rangeAccesses_succ.mpr

/-- A read without loss answers the bytes that memory holds. -/
theorem Port.read_plain {p : Port} (h : p.lossy = false) (a n : Nat) : (p.read a n).1 = memBytes p.mem a n := by
  induction n generalizing p a with
  | zero => rfl
  | succ n ih =>
    rw [Port.read, memBytes, Port.readByte_plain h, ih (Port.readByte_visits h a).plain, Port.readByte_mem]

theorem Port.write_visits {p : Port} (h : p.lossy = false) (a : Nat) (bs : Bytes) :
    Visits p (p.write a bs) (rangeAccesses .write a bs.length) (rangeAccesses .write a bs.length) := by
  induction bs generalizing p a with
  | nil => exact Visits.refl h (rangeAccesses_zero _ _) _
  | cons b bs ih =>
    have hbyte := Port.writeByte_visits h a b
    exact (hbyte.trans (ih hbyte.plain (a + 1))).mono (fun _ _ => rangeAccesses_succ.mp)
      fun _ _ => rangeAccesses_succ.mpr

/-- A write without loss stores its bytes. -/
theorem Port.write_plain {p : Port} (h : p.lossy = false) (a : Nat) (bs : Bytes) :
    (p.write a bs).mem = memWriteBytes p.mem a bs := by
  induction bs generalizing p a with
  | nil => rfl
  | cons b bs ih => rw [Port.write, ih (Port.writeByte_visits h a b).plain, Port.writeByte_plain h, memWriteBytes]

/-! ### Frames that are only compared -/

/-- The reads of the RGB bytes among `n` bytes from offset `off` of the frame at `b` on. -/
def rgbReads (b off n : Nat) : Accesses :=
  fun k x => rangeAccesses .read (b + off) n k x ∧ alphaOffset (x - b) = false

theorem Port.readFrame_visits {p : Port} (h : p.lossy = false) (b off n : Nat) :
    Visits p (p.readFrame (b + off) off n).2 (rgbReads b off n) (rangeAccesses .read (b + off) n) := by
  induction n generalizing p off with
  | zero => exact Visits.refl h (fun k x hm => rangeAccesses_zero _ _ k x hm.1) _
  | succ n ih =>
    have hbyte := Port.readFrameByte_visits h (b + off) off
    refine (hbyte.trans (ih hbyte.plain (off + 1))).mono ?_ fun _ _ => rangeAccesses_succ.mpr
    rintro k x ⟨hrange, hrgb⟩
    rcases rangeAccesses_succ.mp hrange with hone | hrest
    · refine .inl ⟨hone, ?_⟩
      rwa [hone.2, Nat.add_sub_cancel_left] at hrgb
    · exact .inr ⟨hrest, hrgb⟩

/-- A frame is read as memory holds it, whichever of its alpha bytes are fetched. -/
theorem Port.readFrame_plain {p : Port} (h : p.lossy = false) (a off n : Nat) :
    (p.readFrame a off n).1 = memBytes p.mem a n := by
  induction n generalizing p a off with
  | zero => rfl
  | succ n ih =>
    rw [Port.readFrame, memBytes, Port.readFrameByte_plain h, ih (Port.readFrameByte_visits h a off).plain,
      (p.readFrameByte_kept a off).1]

/-! ### Records -/

/-- The writes of the RGB bytes of the pair at `a`. -/
def pairWrites (a : Nat) : Accesses := fun k x => k = .write ∧ InPair a x

theorem Port.writePair_visits {p : Port} (h : p.lossy = false) (a : Nat) (q : Bytes) :
    Visits p (p.writeMasked a rgbMask (pairLanes q)) (pairWrites a) (pairWrites a) := by
  rw [p.writePair]
  have v0 := Port.writeByte_visits h a (byteAt q 0)
  have v1 := v0.trans (Port.writeByte_visits v0.plain (a + 1) (byteAt q 1))
  have v2 := v1.trans (Port.writeByte_visits v1.plain (a + 2) (byteAt q 2))
  have v3 := v2.trans (Port.writeByte_visits v2.plain (a + 4) (byteAt q 3))
  have v4 := v3.trans (Port.writeByte_visits v3.plain (a + 5) (byteAt q 4))
  have v5 := v4.trans (Port.writeByte_visits v4.plain (a + 6) (byteAt q 5))
  refine v5.mono (fun k x hm => ?_) fun k x hm => ?_ <;>
    simpa only [pairWrites, inPair_iff, Accesses.or, oneAccess, ← and_or_left, or_assoc] using hm

/-- The writes of the RGB bytes of the pairs that records name, in the frame buffer at `a`. -/
def recordWrites (a : Nat) (recs : List Record) : Accesses := fun k x => k = .write ∧ InRecords a recs x

theorem Port.scatter_visits {p : Port} (h : p.lossy = false) (a : Nat) (recs : List Record) :
    Visits p (p.scatter a recs) (recordWrites a recs) (recordWrites a recs) := by
  induction recs generalizing p with
  | nil => exact Visits.refl h (fun _ _ ⟨_, hr⟩ => by simp [InRecords] at hr) _
  | cons r rs ih =>
    obtain ⟨n, q⟩ := r
    have hpair := Port.writePair_visits h (a + pairBytes * n) q
    have hsplit : ∀ k x, recordWrites a ((n, q) :: rs) k x ↔
        (pairWrites (a + pairBytes * n)).or (recordWrites a rs) k x := fun k x => by
      rw [recordWrites, inRecords_cons, and_or_left]
      rfl
    exact (hpair.trans (ih hpair.plain)).mono (fun k x => (hsplit k x).mp) fun k x => (hsplit k x).mpr

end Sys2Proof.Machine
end

section
/-! SUPPORT. Refused accesses: phase B of each command visits exactly the accesses that the command needs, but for alpha
bytes of frames, so a refusal of one of these ends it in an error (60_exceptions.md R205). -/

namespace Sys2Proof.Machine

/-! ### The stages of the bodies -/

/-- The reads of all bytes of a region. -/
def regionReads (r : Region) : Accesses := fun k x => k = .read ∧ r.holds x = true

theorem rangeAccesses_region {r : Region} {k : AccessKind} {x : Nat} :
    rangeAccesses .read r.base r.size k x ↔ regionReads r k x :=
  and_congr_right fun _ => Region.holds_iff.symm

/-- The reads of the bytes of a frame but alpha. -/
def frameReads (r : Region) : Accesses :=
  fun k x => k = .read ∧ r.holds x = true ∧ alphaOffset (x - r.base) = false

theorem bytesOf_visits {p : Port} (h : p.lossy = false) (r : Region) :
    Visits p (p.bytesOf r).2 (regionReads r) (regionReads r) :=
  (Port.read_visits h r.base r.size).mono (fun _ _ => rangeAccesses_region.mpr) fun _ _ => rangeAccesses_region.mp

theorem frameOf_visits {p : Port} (h : p.lossy = false) (r : Region) :
    Visits p (p.frameOf r).2 (frameReads r) (regionReads r) :=
  (Port.readFrame_visits h r.base 0 r.size).mono
    (fun _ _ ⟨hk, hr, ha⟩ => ⟨rangeAccesses_region.mpr ⟨hk, hr⟩, ha⟩) fun _ _ => rangeAccesses_region.mp

theorem gatherDelta_visits {p : Port} (h : p.lossy = false) (a : Args) :
    Visits p (gatherDelta a p).2 ((frameReads a.src0).or (frameReads a.src1))
      ((regionReads a.src0).or (regionReads a.src1)) :=
  have h0 := frameOf_visits h a.src0
  h0.trans (frameOf_visits h0.plain a.src1)

/-- Without loss, the delta stream is that of the frames in memory. -/
theorem gatherDelta_plain {p : Port} (h : p.lossy = false) (a : Args) :
    (gatherDelta a p).1 =
      encodeDelta (memBytes p.mem a.src0.base a.src0.size) (memBytes p.mem a.src1.base a.src1.size) := by
  obtain ⟨hmem, _, hlossy⟩ := p.readFrame_kept a.src0.base 0 a.src0.size
  simp only [gatherDelta, Port.frameOf, Port.readFrame_plain h, Port.readFrame_plain (hlossy.trans h), hmem]

/-- The scratch accesses: SCR is written, then read. -/
def scratchAccesses (a : Args) (n : Nat) : Accesses := fun _ x => a.scr.base ≤ x ∧ x < a.scr.base + n

theorem throughScratch_visits {p : Port} (h : p.lossy = false) (D : Bytes) (a : Args) :
    Visits p (throughScratch D a p).2 (scratchAccesses a D.length) (scratchAccesses a D.length) := by
  have hw := Port.write_visits h a.scr.base D
  refine (hw.trans (Port.read_visits hw.plain a.scr.base D.length)).mono (fun k x hx => ?_) fun k x hx => ?_
  · cases k with
    | write => exact .inl ⟨rfl, hx⟩
    | read => exact .inr ⟨rfl, hx⟩
  · rcases hx with ⟨_, hx⟩ | ⟨_, hx⟩ <;> exact hx

/-- Without loss, a stream comes back from SCR unchanged (20_memory.md R63 part 3). -/
theorem throughScratch_plain {p : Port} (h : p.lossy = false) (w : memWf p.mem = true) {D : Bytes} {a : Args}
    (hfit : a.scr.base + D.length ≤ addrSpace) : (throughScratch D a p).1 = D := by
  rw [throughScratch, Port.read_plain (Port.write_visits h a.scr.base D).plain, Port.write_plain h,
    memBytes_eq_of_reads (holds_memWriteBytes w hfit)]

/-! ### The stages that write DST -/

/-- The bytes, if the region holds them. -/
def fitting (r : Region) (Y : Bytes) : Option Bytes := if r.size < Y.length then none else some Y

theorem length_of_fitting {r : Region} {Y Z : Bytes} (h : fitting r Y = some Z) : Z.length ≤ r.size := by
  unfold fitting at h
  split at h
  · cases h
  · next hl => cases h; exact Nat.le_of_not_lt hl

/-- The write of an output, where there is one. -/
def Port.writeSome (p : Port) (a : Nat) : Option Bytes → Port
  | none => p
  | some Y => p.write a Y

/-- The accesses of such a write. -/
def outputWrites (a : Nat) (o : Option Bytes) : Accesses :=
  fun k x => k = .write ∧ ∃ Y, o = some Y ∧ a ≤ x ∧ x < a + Y.length

theorem Port.writeSome_visits {p : Port} (h : p.lossy = false) (a : Nat) (o : Option Bytes) :
    Visits p (p.writeSome a o) (outputWrites a o) (outputWrites a o) := by
  cases o with
  | none => exact Visits.refl h (fun _ _ ⟨_, _, ho, _⟩ => nomatch ho) _
  | some Y =>
    refine (Port.write_visits h a Y).mono ?_ fun k x ⟨hk, hx⟩ => ⟨hk, Y, rfl, hx⟩
    rintro k x ⟨hk, Z, hZ, hx⟩
    cases hZ
    exact ⟨hk, hx⟩

/-- The last stage of the two compressing commands writes the compressed stream, if it exists and DST holds it. -/
theorem emitCompressed_port (X : Bytes) (aux : Nat) (a : Args) (p : Port) :
    (emitCompressed X aux a p).2 =
      p.writeSome a.dst.base ((compressBytes p.cfg X).toOption.bind (fitting a.dst)) := by
  unfold emitCompressed
  cases compressBytes p.cfg X with
  | error r => rfl
  | ok Y =>
    simp only [Except.toOption, Option.bind_some, fitting]
    split <;> rfl

theorem encodeDeltaBody_port (a : Args) (p : Port) :
    (encodeDeltaBody a p).2 = (gatherDelta a p).2.writeSome a.dst.base (fitting a.dst (gatherDelta a p).1.1) := by
  simp only [encodeDeltaBody, fitting]
  split <;> rfl

theorem decompressBody_port (a : Args) (p : Port) :
    (decompressBody a p).2 = (p.bytesOf a.src0).2.writeSome a.dst.base
      (decompressBytes p.cfg (p.bytesOf a.src0).1 a.dst.size .dstOverflow).toOption := by
  simp only [decompressBody]
  cases decompressBytes p.cfg (p.bytesOf a.src0).1 a.dst.size .dstOverflow <;> rfl

/-- The writes of the records of a stream, where the parser accepts it. -/
def streamWrites (a : Args) (D : Bytes) : Accesses :=
  fun k x => k = .write ∧ ∃ recs, parseDelta D a.dst.size = .ok recs ∧ InRecords a.dst.base recs x

theorem applyStream_visits {p : Port} (h : p.lossy = false) (D : Bytes) (a : Args) :
    Visits p (applyStream D a p).2 (streamWrites a D) (streamWrites a D) := by
  unfold applyStream streamWrites
  cases hparse : parseDelta D a.dst.size with
  | error r => exact Visits.refl h (fun _ _ ⟨_, _, hr, _⟩ => nomatch hr) _
  | ok recs =>
    refine (Port.scatter_visits h a.dst.base recs).mono ?_ fun k x ⟨hk, hx⟩ => ⟨hk, recs, rfl, hx⟩
    rintro k x ⟨hk, recs', hr, hx⟩
    cases hr
    exact ⟨hk, hx⟩

/-! ### What a command needs, stage by stage -/

/-- What a command needs after it has read its sources: the scratch accesses and the writes of its success write set. -/
def laterNeeds (i : Instr) (s : State) : Accesses := fun k x =>
  (∃ D, scratchStream i s = some D ∧ scratchAccesses s.latch.args D.length k x) ∨
    outputWrites s.latch.args.dst.base (output i s) k x ∨
      ∃ D, applied i s = some D ∧ streamWrites s.latch.args D k x

/-- What a command needs, and the alpha bytes that it may fetch. -/
def mayVisit (i : Instr) (s : State) : Accesses := fun k x => Needs i s k x ∨ k = .read ∧ FetchesAlpha i s x

theorem needs_iff_gathers {i : Instr} {s : State} (hg : gathers i = true) {k : AccessKind} {x : Nat} :
    Needs i s k x ↔
      ((frameReads s.latch.args.src0).or (frameReads s.latch.args.src1)).or (laterNeeds i s) k x := by
  simp only [Needs, hg, Accesses.or, frameReads, laterNeeds, scratchAccesses, outputWrites, streamWrites, true_and,
    true_imp_iff, or_assoc]
  grind

theorem needs_iff_reads {i : Instr} {s : State} (hg : gathers i = false) {k : AccessKind} {x : Nat} :
    Needs i s k x ↔ (regionReads s.latch.args.src0).or (laterNeeds i s) k x := by
  simp only [Needs, hg, Accesses.or, regionReads, laterNeeds, scratchAccesses, outputWrites, streamWrites]
  grind

/-- A byte of a frame is needed, or is an alpha byte that may be fetched. -/
theorem mayVisit_of_frame {i : Instr} {s : State} (hg : gathers i = true) {k : AccessKind} {x : Nat}
    (h : (regionReads s.latch.args.src0).or (regionReads s.latch.args.src1) k x) : mayVisit i s k x := by
  have byAlpha : ∀ r ∈ [s.latch.args.src0, s.latch.args.src1], regionReads r k x →
      (frameReads r k x → Needs i s k x) → mayVisit i s k x := fun r hr ⟨hk, hx⟩ hneed => by
    cases ha : alphaOffset (x - r.base) with
    | false => exact .inl (hneed ⟨hk, hx, ha⟩)
    | true => exact .inr ⟨hk, hg, r, hr, hx, ha⟩
  rcases h with h | h
  · exact byAlpha _ (by simp) h fun hf => (needs_iff_gathers hg).mpr (.inl (.inl hf))
  · exact byAlpha _ (by simp) h fun hf => (needs_iff_gathers hg).mpr (.inl (.inr hf))

/-- A command that gathers the delta stream of two frames, then does the rest. -/
theorem Visits.gathering {i : Instr} {s : State} {p q r : Port} (hg : gathers i = true)
    (h : Visits p q ((frameReads s.latch.args.src0).or (frameReads s.latch.args.src1))
      ((regionReads s.latch.args.src0).or (regionReads s.latch.args.src1)))
    (hrest : Visits q r (laterNeeds i s) (laterNeeds i s)) : Visits p r (Needs i s) (mayVisit i s) :=
  (h.trans hrest).mono (fun _ _ => (needs_iff_gathers hg).mp) fun _ _ hx =>
    hx.elim (mayVisit_of_frame hg) fun hx => .inl ((needs_iff_gathers hg).mpr (.inr hx))

/-- A command that reads its one source, then does the rest. -/
theorem Visits.reading {i : Instr} {s : State} {p q r : Port} (hg : gathers i = false)
    (h : Visits p q (regionReads s.latch.args.src0) (regionReads s.latch.args.src0))
    (hrest : Visits q r (laterNeeds i s) (laterNeeds i s)) : Visits p r (Needs i s) (mayVisit i s) :=
  (h.trans hrest).mono (fun _ _ => (needs_iff_reads hg).mp) fun _ _ hx => .inl ((needs_iff_reads hg).mpr hx)

/-- The rest of a command that has neither scratch nor records is the write of its output. -/
theorem Visits.laterOutput {i : Instr} {s : State} {q : Port} (hq : q.lossy = false) (hs : scratchStream i s = none)
    (ha : applied i s = none) :
    Visits q (q.writeSome s.latch.args.dst.base (output i s)) (laterNeeds i s) (laterNeeds i s) := by
  have h : ∀ k x, laterNeeds i s k x ↔ outputWrites s.latch.args.dst.base (output i s) k x := fun k x => by
    simp [laterNeeds, hs, ha]
  exact (Port.writeSome_visits hq _ _).mono (fun k x => (h k x).mp) fun k x => (h k x).mpr

/-- The rest of a command that only applies a stream is the write of its records. -/
theorem Visits.laterRecords {i : Instr} {s : State} {q : Port} {D : Bytes} (hq : q.lossy = false)
    (hs : scratchStream i s = none) (ho : output i s = none) (ha : applied i s = some D) :
    Visits q (applyStream D s.latch.args q).2 (laterNeeds i s) (laterNeeds i s) := by
  have h : ∀ k x, laterNeeds i s k x ↔ streamWrites s.latch.args D k x := fun k x => by
    simp [laterNeeds, outputWrites, hs, ho, ha]
  exact (applyStream_visits hq D _).mono (fun k x => (h k x).mp) fun k x => (h k x).mpr

/-- Where a mixed command does not come so far as SCR, nothing is left to do. -/
theorem Visits.laterNothing {i : Instr} {s : State} {q : Port} (hq : q.lossy = false) (hs : scratchStream i s = none)
    (ho : output i s = none) (ha : applied i s = none) : Visits q q (laterNeeds i s) (laterNeeds i s) :=
  Visits.refl hq (fun _ _ h => by simp [laterNeeds, outputWrites, hs, ho, ha] at h) _

/-- The rest of a mixed command that comes so far as SCR is the way through SCR and then the accesses `A` of its last
stage. -/
theorem Visits.laterScratch {i : Instr} {s : State} {q r : Port} {D : Bytes} {A : Accesses} (hq : q.lossy = false)
    (hs : scratchStream i s = some D)
    (hA : ∀ k x, A k x ↔ outputWrites s.latch.args.dst.base (output i s) k x ∨
      ∃ D, applied i s = some D ∧ streamWrites s.latch.args D k x)
    (hlast : Visits (throughScratch D s.latch.args q).2 r A A) : Visits q r (laterNeeds i s) (laterNeeds i s) := by
  have h : ∀ k x, laterNeeds i s k x ↔ (scratchAccesses s.latch.args D.length).or A k x := fun k x => by
    simp [laterNeeds, Accesses.or, hs, hA]
  exact ((throughScratch_visits hq D _).trans hlast).mono (fun k x => (h k x).mp) fun k x => (h k x).mpr

/-! ### Phase B of every command -/

theorem State.port_cfg (s : State) (lossy : Bool) (d : Nat) : (s.port lossy d).cfg = s.cfg := rfl

/-- The stream that passes through SCR fits it. -/
theorem length_of_scratchStream {i : Instr} {s : State} {D : Bytes} (h : scratchStream i s = some D) :
    .scr ∈ usedRegions i ∧ D.length ≤ s.latch.args.scr.size := by
  cases i
  case mixedCompress => exact ⟨by decide, length_of_fitting h⟩
  case mixedDecompress =>
    refine ⟨by decide, ?_⟩
    simp only [scratchStream] at h
    cases hd : decompressBytes s.cfg (regionBytes s s.latch.args.src0) s.latch.args.scr.size .scrOverflow with
    | error r => rw [hd] at h; cases h
    | ok X => rw [hd] at h; cases h; exact decompressBytes_length hd
  all_goals cases h

/-- The bytes of that stream in SCR are inside memory space. -/
theorem scratchStream_inSpace {i : Instr} {s : State} {D : Bytes} (hfit : Fits i s.latch.args)
    (h : scratchStream i s = some D) : s.latch.args.scr.base + D.length ≤ addrSpace := by
  obtain ⟨hused, hlen⟩ := length_of_scratchStream h
  exact Nat.le_trans (Nat.add_le_add_left hlen _) (hfit .scr hused)

/-- What MIXED_COMPRESS does with a stream that SCR holds. -/
theorem mixedCompress_later_visits {s : State} {q : Port} {D : Bytes} (hfit : Fits .mixedCompress s.latch.args)
    (hs : scratchStream .mixedCompress s = some D) (hq : q.lossy = false) (hc : q.cfg = s.cfg)
    (w : memWf q.mem = true) (aux : Nat) :
    Visits q (emitCompressed (throughScratch D s.latch.args q).1 aux s.latch.args (throughScratch D s.latch.args q).2).2
      (laterNeeds .mixedCompress s) (laterNeeds .mixedCompress s) := by
  have ho : output .mixedCompress s = (compressBytes s.cfg D).toOption.bind (fitting s.latch.args.dst) := by
    simp only [output, hs, Option.bind_some]
    rfl
  have hscratch := throughScratch_visits hq D s.latch.args
  rw [emitCompressed_port, throughScratch_plain hq w (scratchStream_inSpace hfit hs), hscratch.cfg, hc, ← ho]
  exact Visits.laterScratch hq hs (fun k x => by simp [applied]) (Port.writeSome_visits hscratch.plain _ _)

/-- What MIXED_DECOMPRESS does with the stream that it decoded. -/
theorem mixedDecompress_later_visits {s : State} {q : Port} {D : Bytes} (hfit : Fits .mixedDecompress s.latch.args)
    (hs : scratchStream .mixedDecompress s = some D) (hq : q.lossy = false) (w : memWf q.mem = true) :
    Visits q (applyStream (throughScratch D s.latch.args q).1 s.latch.args (throughScratch D s.latch.args q).2).2
      (laterNeeds .mixedDecompress s) (laterNeeds .mixedDecompress s) := by
  have hscratch := throughScratch_visits hq D s.latch.args
  rw [throughScratch_plain hq w (scratchStream_inSpace hfit hs)]
  exact Visits.laterScratch hq hs (fun k x => by simp [outputWrites, output, applied, hs])
    (applyStream_visits hscratch.plain D _)

/-- Phase B of every command visits what the command needs, and nothing else but alpha bytes of frames that are only
compared. -/
theorem body_visits {i : Instr} {s : State} (w : memWf s.mem = true) (hfit : Fits i s.latch.args) (d : Nat) :
    Visits (s.port false d) (bodyOf i s.latch.args (s.port false d)).2 (Needs i s) (mayVisit i s) := by
  have hread := bytesOf_visits (p := s.port false d) rfl s.latch.args.src0
  have hsrc : ((s.port false d).bytesOf s.latch.args.src0).1 = regionBytes s s.latch.args.src0 :=
    Port.read_plain rfl _ _
  have hgather := gatherDelta_visits (p := s.port false d) rfl s.latch.args
  have hstream : (gatherDelta s.latch.args (s.port false d)).1.1 = gathered s :=
    congrArg Prod.fst (gatherDelta_plain rfl _)
  cases i with
  | encodeDelta =>
    refine Visits.gathering rfl hgather ?_
    rw [bodyOf, encodeDeltaBody_port, hstream]
    exact Visits.laterOutput (i := .encodeDelta) (s := s) hgather.plain rfl rfl
  | applyDelta =>
    refine Visits.reading rfl hread ?_
    simp only [bodyOf, applyDeltaBody, hsrc]
    exact Visits.laterRecords hread.plain rfl rfl rfl
  | compress =>
    refine Visits.reading rfl hread ?_
    simp only [bodyOf, compressBody, hsrc, emitCompressed_port, hread.cfg]
    exact Visits.laterOutput (i := .compress) (s := s) hread.plain rfl rfl
  | decompress =>
    refine Visits.reading rfl hread ?_
    rw [bodyOf, decompressBody_port, hsrc]
    exact Visits.laterOutput (i := .decompress) (s := s) hread.plain rfl rfl
  | mixedCompress =>
    refine Visits.gathering rfl hgather ?_
    have w' : memWf (gatherDelta s.latch.args (s.port false d)).2.mem = true := by
      rw [(gatherDelta_kept _ _).1]; exact w
    simp only [bodyOf, mixedCompressBody, hstream]
    split
    · next hl =>
      have hs : scratchStream .mixedCompress s = none := if_pos hl
      exact Visits.laterNothing hgather.plain hs (by simp only [output, hs, Option.bind_none]) rfl
    · next hl => exact mixedCompress_later_visits hfit (if_neg hl) hgather.plain hgather.cfg w' _
  | mixedDecompress =>
    refine Visits.reading rfl hread ?_
    have w' : memWf ((s.port false d).bytesOf s.latch.args.src0).2.mem = true := by
      rw [Port.bytesOf, (Port.read_kept _ _ _).1]; exact w
    simp only [bodyOf, mixedDecompressBody, hsrc, State.port_cfg]
    cases hd : decompressBytes s.cfg (regionBytes s s.latch.args.src0) s.latch.args.scr.size .scrOverflow with
    | error r =>
      have hs : scratchStream .mixedDecompress s = none := by simp only [scratchStream, hd]; rfl
      exact Visits.laterNothing hread.plain hs rfl hs
    | ok D =>
      have hs : scratchStream .mixedDecompress s = some D := by simp only [scratchStream, hd]; rfl
      exact mixedDecompress_later_visits hfit hs hread.plain w'

/-! ### The address that BUS names -/

theorem src0_dst_mem_usedRegions (i : Instr) : .src0 ∈ usedRegions i ∧ .dst ∈ usedRegions i := by
  cases i <;> decide

theorem src1_mem_usedRegions {i : Instr} (h : gathers i = true) : .src1 ∈ usedRegions i := by
  cases i
  case encodeDelta | mixedCompress => decide
  all_goals cases h

/-- The output of a command fits DST. -/
theorem length_of_output {i : Instr} {s : State} {Y : Bytes} (h : output i s = some Y) :
    Y.length ≤ s.latch.args.dst.size := by
  cases i with
  | encodeDelta => exact length_of_fitting h
  | compress =>
    obtain ⟨Z, _, hZ⟩ := Option.bind_eq_some_iff.mp h
    exact length_of_fitting hZ
  | mixedCompress =>
    obtain ⟨D, _, hD⟩ := Option.bind_eq_some_iff.mp h
    obtain ⟨Z, _, hZ⟩ := Option.bind_eq_some_iff.mp hD
    exact length_of_fitting hZ
  | decompress =>
    simp only [output] at h
    cases hd : decompressBytes s.cfg (regionBytes s s.latch.args.src0) s.latch.args.dst.size .dstOverflow with
    | error r => rw [hd] at h; cases h
    | ok X => rw [hd] at h; cases h; exact decompressBytes_length hd
  | applyDelta | mixedDecompress => cases h

/-- Every address that a command may visit is inside memory space, where its regions are. -/
theorem mayVisit_lt {i : Instr} {s : State} (hfit : Fits i s.latch.args) {k : AccessKind} {x : Nat}
    (h : mayVisit i s k x) : x < addrSpace := by
  have inRegion : ∀ r, r ∈ usedRegions i → (s.latch.args.region r).holds x = true → x < addrSpace := fun r hr hx =>
    Nat.lt_of_lt_of_le (Region.holds_iff.mp hx).2 (hfit r hr)
  obtain ⟨hsrc0, hdst⟩ := src0_dst_mem_usedRegions i
  have hdstfit : s.latch.args.dst.base + s.latch.args.dst.size ≤ addrSpace := hfit .dst hdst
  rcases h with (⟨_, hx, _⟩ | ⟨_, hg, hx, _⟩ | ⟨D, hD, _, hx⟩ | ⟨_, Y, hY, _, hx⟩ | ⟨_, D, recs, _, hp, hx⟩) |
      ⟨_, hg, r, hr, hx, _⟩
  · exact inRegion .src0 hsrc0 hx
  · exact inRegion .src1 (src1_mem_usedRegions hg) hx
  · exact Nat.lt_of_lt_of_le hx (scratchStream_inSpace hfit hD)
  · have hlen := length_of_output hY
    omega
  · obtain ⟨r, hr, j, hj, rfl⟩ := hx
    have hrec := parseDelta_fit hp r hr
    simp only [List.mem_cons, List.not_mem_nil, or_false] at hj
    omega
  · rcases List.mem_pair.mp hr with rfl | rfl
    · exact inRegion .src0 hsrc0 hx
    · exact inRegion .src1 (src1_mem_usedRegions hg) hx

/-- The information value of a number that fits 64 bits is that number. -/
theorem infoWord_toNat {n : Nat} (h : n < addrSpace) (d : Nat) : (infoWord n d).toNat = n := by
  rw [infoWord, if_pos h, BitVec.toNat_ofNat, Nat.mod_eq_of_lt h]

/-- Settles O52: the refusal is noted, and phase B with a refusal ends in one of the command's other errors or in BUS at
a noted address. -/
theorem refusedReadNeverSucceeds : Obligations.RefusedReadNeverSucceeds := by
  intro i s t k x hwf hquiet hphase hneeds hrefused hexec
  have hfit := fits_of_phaseA hphase
  have hvisits := body_visits hwf hfit s.draws
  have hnoted := List.ne_nil_of_mem (hvisits.noted k x hneeds hrefused)
  rw [exec_eq, State.complete_eq_phaseB _ hquiet hphase, State.phaseB, if_neg hnoted] at hexec
  cases hexec
  rcases s.settleRefused_cases i hnoted _ with ⟨r, d, hraise, ht⟩ | ⟨y, d, hy, ht⟩ <;> rw [ht]
  · obtain ⟨_, hbus, hnone⟩ := (body_ok hfit _).codes r hraise
    exact ⟨hnone, fun he => absurd he hbus⟩
  · refine ⟨nofun, fun _ => ?_⟩
    rcases hvisits.found y hy with hnil | ⟨k', hmay, hadm⟩
    · cases hnil
    · have hinfo : (((s.withDraws d).failBus i y).errInfo).toNat = y := infoWord_toNat (mayVisit_lt hfit hmay) _
      exact ⟨k', by rw [hinfo]; exact hadm, by rw [hinfo]; exact hmay⟩

end Sys2Proof.Machine
end

section
/-! SUPPORT. Command words and their bytes: a word decodes to a command exactly where it is the command's word, and
bytes exactly where they are its encoding. -/

namespace Sys2Proof

/-! ### Command words (30_encoding.md R70 to R73) -/

/-- The word of every command reads back. -/
theorem decodeWord_encodeWord (i : Instr) : decodeWord (encodeWord i) = .ok i := by cases i <;> decide

/-- No command sets a reserved bit. -/
theorem Instr.cmdWord_rsvd (i : Instr) : i.cmdWord.rsvd = 0 := by cases i <;> rfl

/-- A word decodes to a command exactly where all its 64 bits are those of the command's word (R71, R72). -/
theorem decodeWord_iff {w : Word} {i : Instr} : decodeWord w = .ok i ↔ w = encodeWord i := by
  refine ⟨fun h => ?_, fun h => h ▸ decodeWord_encodeWord i⟩
  simp only [decodeWord] at h
  split at h
  · next hrsvd =>
    have hfields : CmdWord.ofWord w = i.cmdWord := by
      rw [← i.cmdWord_rsvd] at hrsvd
      exact congrArg₂ CmdWord.mk (decodeOpcode_iff.mp h) hrsvd
    rw [encodeWord, ← hfields, CmdWord.toWord_ofWord]
  · cases h

/-- Settles O1: the six words of R71 are the words of the six commands. -/
theorem commandWordSelectsItsCommandExactly : Obligations.CommandWordSelectsItsCommandExactly :=
  fun _ => ⟨decodeWord_iff, decodeWord_iff, decodeWord_iff, decodeWord_iff, decodeWord_iff, decodeWord_iff⟩

/-! ### The bytes of a command word (20_memory.md R53) -/

/-- Eight bytes stand for a word exactly where they are its little-endian bytes. -/
theorem ofNat_fromLe_eq_iff {bs : Bytes} (hlen : bs.length = 8) {w : Word} :
    BitVec.ofNat 64 (Machine.fromLe bs) = w ↔ bs = Machine.leBytes 8 w.toNat := by
  have hlt : Machine.fromLe bs < 2 ^ 64 := by simpa [hlen] using Machine.fromLe_lt bs
  constructor
  · rintro rfl
    rw [BitVec.toNat_ofNat, Nat.mod_eq_of_lt hlt, ← hlen, Machine.leBytes_fromLe]
  · intro h
    rw [h, Machine.fromLe_leBytes w.isLt, BitVec.ofNat_toNat, BitVec.setWidth_eq]

/-- Settles O2: the decoder takes eight bytes alone, and their word is that of one command. -/
theorem decodedBytesAreTheEncoding : Obligations.DecodedBytesAreTheEncoding := by
  intro i bs
  unfold decode
  split
  · next hlen => exact decodeWord_iff.trans (ofNat_fromLe_eq_iff hlen)
  · next hlen => exact ⟨nofun, fun h => absurd (h ▸ Machine.leBytes_length 8 _) hlen⟩

/-- Settles O3: three words of the opcode table, and three that R72 reserves. -/
theorem sampleCommandWordsDecode : Obligations.SampleCommandWordsDecode := by
  unfold Obligations.SampleCommandWordsDecode
  decide

end Sys2Proof
end

section
/-! SUPPORT. The encoder's loop: after any number of pairs its variables are the groups, the header and the payloads of
the grammar for the pairs so far. -/

namespace Sys2Proof.Machine

/-! ### Headers bit by bit (30_encoding.md R76) -/

/-- A sum of distinct weights, the first the highest, has at each weight the bit that put it there. -/
theorem testBit_weights (f : Nat → Bool) {m i : Nat} (hi : i ≤ m) :
    (((List.range (m + 1)).map fun i => if f i then 2 ^ (m - i) else 0).sum).testBit (m - i) = f i := by
  induction m with
  | zero =>
    obtain rfl : i = 0 := by omega
    cases h : f 0 <;> simp [h]
  | succ m ih =>
    have hdouble : ((List.range (m + 1)).map fun i => if f i then 2 ^ (m + 1 - i) else 0) =
        (List.range (m + 1)).map fun i => 2 * if f i then 2 ^ (m - i) else 0 := by
      refine List.map_congr_left fun j hj => ?_
      rw [show m + 1 - j = m - j + 1 by have := List.mem_range.mp hj; omega, pow_succ]
      split <;> omega
    have hlow : (if f (m + 1) then 2 ^ (m + 1 - (m + 1)) else 0) = (f (m + 1)).toNat := by cases f (m + 1) <;> simp
    rw [List.range_succ, List.map_append, List.sum_append, hdouble, List.sum_map_mul_left, List.map_singleton,
      List.sum_singleton, hlow, ← Nat.bit_val]
    by_cases hlast : i = m + 1
    · rw [hlast, Nat.sub_self, Nat.testBit_bit_zero]
    · rw [show m + 1 - i = m - i + 1 by omega, Nat.testBit_bit_succ, ih (by omega)]

/-- Slot `i` of a header is bit `7 - i`, set exactly where the pair is flagged. -/
theorem getLsbD_groupHeader (P C : Bytes) (n g : Nat) {i : Nat} (hi : i < 8) :
    (groupHeader P C n g).getLsbD (7 - i) = flagged P C n (8 * g + i) := by
  rw [groupHeader, BitVec.getLsbD_ofNat, testBit_weights (fun i => flagged P C n (8 * g + i)) (by omega)]
  simp only [show 7 - i < 8 by omega, decide_true, Bool.true_and]

theorem getLsbD_slotBit {s i : Nat} (hs : s < 8) (hi : i < 8) : (slotBit s).getLsbD (7 - i) = decide (i = s) := by
  rw [slotBit, BitVec.getLsbD_shiftLeft, Bool.eq_iff_iff]
  simp only [BitVec.ofNat_eq_ofNat, BitVec.getLsbD_one, Bool.and_eq_true, Bool.not_eq_true', decide_eq_true_eq,
    decide_eq_false_iff_not]
  omega

/-- Two headers are equal where they flag the same slots. -/
theorem header_ext {h h' : Byte} (heq : ∀ i < 8, h.getLsbD (7 - i) = h'.getLsbD (7 - i)) : h = h' := by
  refine BitVec.eq_of_getLsbD_eq fun j hj => ?_
  simpa only [show 7 - (7 - j) = j by omega] using heq (7 - j) (by omega)

/-! ### Flagged pairs (30_encoding.md R77) -/

theorem flagged_of_lt {P C : Bytes} {n k : Nat} (h : k < n) : flagged P C n k = dirty P C k := by simp [flagged, h]

theorem flagged_of_le {P C : Bytes} {n k : Nat} (h : n ≤ k) : flagged P C n k = false := by
  simp [flagged, Nat.not_lt.mpr h]

/-- The pairs flagged in a group are the dirty ones of those that it has. -/
theorem groupPairsOf_eq (P C : Bytes) (n g : Nat) :
    groupPairsOf P C n g = (List.range' (8 * g) (min 8 (n - 8 * g))).filter (dirty P C) := by
  have hslots : (List.range 8).map (fun i => 8 * g + i) = List.range' (8 * g) (min 8 (n - 8 * g)) ++
      List.range' (8 * g + min 8 (n - 8 * g)) (8 - min 8 (n - 8 * g)) := by
    rw [← List.range'_eq_map_range, List.range'_append_1]
    congr 1
    omega
  have hpast : (List.range' (8 * g + min 8 (n - 8 * g)) (8 - min 8 (n - 8 * g))).filter (flagged P C n) = [] := by
    refine List.filter_eq_nil_iff.mpr fun k hk => ?_
    rw [List.mem_range'_1] at hk
    rw [flagged_of_le (by omega)]
    exact Bool.false_ne_true
  rw [groupPairsOf, hslots, List.filter_append, hpast, List.append_nil]
  refine List.filter_congr fun k hk => flagged_of_lt ?_
  rw [List.mem_range'_1] at hk
  omega

/-- A whole group does not depend on how many pairs follow it. -/
theorem groupBytes_of_whole {P C : Bytes} {n n' g : Nat} (h : 8 * g + 8 ≤ n) (h' : 8 * g + 8 ≤ n') :
    groupBytes P C n g = groupBytes P C n' g := by
  have hheader : groupHeader P C n g = groupHeader P C n' g := header_ext fun i hi => by
    rw [getLsbD_groupHeader _ _ _ _ hi, getLsbD_groupHeader _ _ _ _ hi, flagged_of_lt (by omega),
      flagged_of_lt (by omega)]
  have hpairs : groupPairsOf P C n g = groupPairsOf P C n' g := by
    rw [groupPairsOf_eq, groupPairsOf_eq, Nat.min_eq_left (by omega), Nat.min_eq_left (by omega)]
  rw [groupBytes, groupBytes, hheader, hpairs]

/-- The header of a group that has no pair yet is zero. -/
theorem groupHeader_of_empty {P C : Bytes} {n g : Nat} (h : n ≤ 8 * g) : groupHeader P C n g = 0 := by
  refine header_ext fun i hi => ?_
  rw [getLsbD_groupHeader _ _ _ _ hi, flagged_of_le (by omega)]
  exact BitVec.getLsbD_zero.symm

theorem groupPairsOf_of_empty {P C : Bytes} {n g : Nat} (h : n ≤ 8 * g) : groupPairsOf P C n g = [] := by
  rw [groupPairsOf_eq, show n - 8 * g = 0 by omega]
  rfl

/-- The next pair sets its bit in the header of its group where it is dirty (41_delta_stage.md R121). -/
theorem groupHeader_succ (P C : Bytes) (k : Nat) :
    groupHeader P C (k + 1) (k / 8) = groupHeader P C k (k / 8) ||| (if dirty P C k then slotBit (k % 8) else 0) := by
  refine header_ext fun i hi => ?_
  have hbit : (if dirty P C k then slotBit (k % 8) else 0).getLsbD (7 - i) = (decide (i = k % 8) && dirty P C k) := by
    cases dirty P C k with
    | false => simp
    | true => simpa using getLsbD_slotBit (Nat.mod_lt k (by decide)) hi
  rw [BitVec.getLsbD_or, getLsbD_groupHeader _ _ _ _ hi, getLsbD_groupHeader _ _ _ _ hi, hbit]
  rcases Nat.lt_trichotomy i (k % 8) with hlt | rfl | hgt
  · rw [flagged_of_lt (by omega), flagged_of_lt (by omega)]
    simp [hlt.ne]
  · rw [flagged_of_lt (by omega), flagged_of_le (by omega), Nat.div_add_mod]
    simp
  · rw [flagged_of_le (by omega), flagged_of_le (by omega)]
    simp [hgt.ne']

/-- The next pair is the last flagged pair of its group where it is dirty. -/
theorem groupPairsOf_succ (P C : Bytes) (k : Nat) :
    groupPairsOf P C (k + 1) (k / 8) = groupPairsOf P C k (k / 8) ++ if dirty P C k then [k] else [] := by
  rw [groupPairsOf_eq, groupPairsOf_eq, show min 8 (k + 1 - 8 * (k / 8)) = k % 8 + 1 by omega,
    show min 8 (k - 8 * (k / 8)) = k % 8 by omega, List.range'_1_concat, List.filter_append, Nat.div_add_mod,
    List.filter_singleton, Bool.cond_eq_ite]

theorem dirtyPairs_succ (P C : Bytes) (k : Nat) :
    dirtyPairs P C (k + 1) = dirtyPairs P C k ++ if dirty P C k then [k] else [] := by
  rw [dirtyPairs, dirtyPairs, List.range_succ, List.filter_append, List.filter_singleton, Bool.cond_eq_ite]

/-! ### The encoder's loop (41_delta_stage.md R121) -/

/-- The whole groups of the first `k` pairs. -/
def wholeGroups (P C : Bytes) (k : Nat) : Bytes := (List.range (k / 8)).flatMap (groupBytes P C k)

/-- The encoder's variables after `k` pairs: the whole groups are out, and the header and the payloads of the group that
pair `k` is in wait for the rest of it. -/
def encAfter (P C : Bytes) (k : Nat) : EncLoop where
  hdr := groupHeader P C k (k / 8)
  payBuf := (groupPairsOf P C k (k / 8)).flatMap (payload C)
  slot := k % 8
  out := wholeGroups P C k
  count := (dirtyPairs P C k).length

theorem encAfter_zero (P C : Bytes) : encAfter P C 0 = encStart := by
  rw [encAfter, groupHeader_of_empty (by omega), groupPairsOf_of_empty (by omega)]
  rfl

/-- One more pair finishes its group or leaves the whole groups as they are. -/
theorem wholeGroups_succ (P C : Bytes) (k : Nat) :
    wholeGroups P C (k + 1) =
      wholeGroups P C k ++ if k % 8 + 1 = 8 then groupBytes P C (k + 1) (k / 8) else [] := by
  have hsame : (List.range (k / 8)).flatMap (groupBytes P C (k + 1)) = wholeGroups P C k :=
    List.flatMap_congr fun g hg => by
      rw [List.mem_range] at hg
      exact groupBytes_of_whole (by omega) (by omega)
  split
  · rw [wholeGroups, show (k + 1) / 8 = k / 8 + 1 by omega, List.range_succ, List.flatMap_append, hsame,
      List.flatMap_singleton]
  · rw [wholeGroups, show (k + 1) / 8 = k / 8 by omega, hsame, List.append_nil]

/-- Marking pair `k` accounts for it in the header, the payloads and the count. -/
theorem encMark_encAfter (P C : Bytes) (k : Nat) :
    encMark P C k (encAfter P C k) =
      ⟨groupHeader P C (k + 1) (k / 8), (groupPairsOf P C (k + 1) (k / 8)).flatMap (payload C), k % 8,
        wholeGroups P C k, (dirtyPairs P C (k + 1)).length⟩ := by
  rw [encMark, groupHeader_succ, groupPairsOf_succ, dirtyPairs_succ]
  cases dirty P C k <;> simp [encAfter]

/-- The loop keeps its variables those of the pairs so far. -/
theorem encPair_encAfter (P C : Bytes) (k : Nat) : encPair P C (encAfter P C k) k = encAfter P C (k + 1) := by
  simp only [encPair, encMark_encAfter, groupPairs]
  rw [encAfter, wholeGroups_succ]
  split
  · next hlast =>
    have hnew : k + 1 ≤ 8 * ((k + 1) / 8) := by omega
    rw [groupHeader_of_empty hnew, groupPairsOf_of_empty hnew, show (k + 1) % 8 = 0 by omega]
    rfl
  · next hmore =>
    rw [show (k + 1) / 8 = k / 8 by omega, show (k + 1) % 8 = k % 8 + 1 by omega, List.append_nil]

theorem foldl_encPair (P C : Bytes) (n : Nat) : (List.range n).foldl (encPair P C) encStart = encAfter P C n := by
  induction n with
  | zero => exact (encAfter_zero P C).symm
  | succ n ih => rw [List.range_succ, List.foldl_append, ih]; exact encPair_encAfter P C n

/-- The last flush puts out the group that is not whole, where there is one. -/
theorem encLast_encAfter (P C : Bytes) (n : Nat) :
    (encLast (encAfter P C n)).out = (List.range (ceilDiv n 8)).flatMap (groupBytes P C n) ∧
      (encLast (encAfter P C n)).count = (dirtyPairs P C n).length := by
  rw [encLast]
  split
  · next hpart =>
    replace hpart : 0 < n % 8 := hpart
    refine ⟨?_, rfl⟩
    rw [show ceilDiv n 8 = n / 8 + 1 by rw [ceilDiv]; omega, List.range_succ, List.flatMap_append,
      List.flatMap_singleton]
    rfl
  · next hwhole =>
    replace hwhole : ¬ 0 < n % 8 := hwhole
    refine ⟨?_, rfl⟩
    rw [show ceilDiv n 8 = n / 8 by rw [ceilDiv]; omega]
    rfl

/-- Settles O37: the loop's variables after all pairs, flushed. -/
theorem encodedStreamIsItsGroups : Obligations.EncodedStreamIsItsGroups := by
  intro P C n hP _
  have hpairs : P.length / pairBytes = n := by rw [hP]; exact Nat.mul_div_cancel_left n (by decide)
  obtain ⟨hout, hcount⟩ := encLast_encAfter P C n
  simp only [encodeDelta, hpairs, foldl_encPair, hout, hcount]

/-! ### The length of a stream (30_encoding.md R81) -/

/-- The pairs of `m` groups, group by group. -/
theorem range_eq_groups (m : Nat) :
    List.range (8 * m) = (List.range m).flatMap fun g => (List.range 8).map (8 * g + ·) := by
  induction m with
  | zero => rfl
  | succ m ih =>
    rw [Nat.mul_succ, List.range_add, List.range_succ (n := m), List.flatMap_append, List.flatMap_singleton, ih]

/-- The dirty pairs are the flagged pairs of the groups, group by group. -/
theorem dirtyPairs_eq_groups (P C : Bytes) (n : Nat) :
    dirtyPairs P C n = (List.range (ceilDiv n 8)).flatMap (groupPairsOf P C n) := by
  have hslots : List.range (8 * ceilDiv n 8) = List.range n ++ (List.range (8 * ceilDiv n 8 - n)).map (n + ·) := by
    rw [← List.range_add]
    congr 1
    rw [ceilDiv]
    omega
  have hpast : ((List.range (8 * ceilDiv n 8 - n)).map (n + ·)).filter (flagged P C n) = [] := by
    simp [flagged]
  calc dirtyPairs P C n = (List.range n).filter (flagged P C n) :=
        List.filter_congr fun k hk => (flagged_of_lt (List.mem_range.mp hk)).symm
    _ = (List.range (8 * ceilDiv n 8)).filter (flagged P C n) := by
        rw [hslots, List.filter_append, hpast, List.append_nil]
    _ = (List.range (ceilDiv n 8)).flatMap (groupPairsOf P C n) := by
        rw [range_eq_groups, List.filter_flatMap]
        rfl

theorem length_groupBytes (P C : Bytes) (n g : Nat) :
    (groupBytes P C n g).length = 1 + 6 * (groupPairsOf P C n g).length := by
  have hpayload : ∀ k, (payload C k).length = 6 := fun _ => rfl
  rw [groupBytes, List.length_cons, List.length_flatMap, List.map_congr_left (fun k _ => hpayload k), List.map_const',
    List.sum_replicate, smul_eq_mul]
  omega

/-- Settles O38: each group is its header and six bytes for each of its dirty pairs, which together are all of them. -/
theorem encodedStreamLength : Obligations.EncodedStreamLength := by
  intro P C n hP hC
  have hcount : (dirtyPairs P C n).length ≤ n := (List.length_filter_le _ _).trans_eq List.length_range
  have hlen : ((List.range (ceilDiv n 8)).flatMap (groupBytes P C n)).length =
      ceilDiv n 8 + 6 * (dirtyPairs P C n).length := by
    simp only [dirtyPairs_eq_groups, List.length_flatMap, length_groupBytes, List.sum_map_add, List.sum_map_mul_left,
      List.map_const', List.sum_replicate, List.length_range, smul_eq_mul, mul_one]
  rw [encodedStreamIsItsGroups P C n hP hC]
  exact ⟨hlen, hcount, by rw [hlen]; omega⟩

end Sys2Proof.Machine
end

section
/-! SUPPORT. The checking parser as the check of a stream's entries, one after another. -/

namespace Sys2Proof.Machine

/-! ### What is wrong with an entry (41_delta_stage.md R122) -/

theorem Entry.failure_of_short {e : Entry} {D : Bytes} {cap : Nat} (h : D.length < e.at_ + 6) :
    e.failure D cap = some ⟨.deltaTruncated, e.hpos⟩ := if_pos h

theorem Entry.failure_of_past {e : Entry} {D : Bytes} {cap : Nat} (h : ¬ D.length < e.at_ + 6)
    (hpast : cap < 8 * e.pair + 8) : e.failure D cap = some ⟨.bufTooSmall, e.pair⟩ :=
  (if_neg h).trans (if_pos hpast)

theorem Entry.failure_of_fit {e : Entry} {D : Bytes} {cap : Nat} (h : ¬ D.length < e.at_ + 6)
    (hfit : ¬ cap < 8 * e.pair + 8) : e.failure D cap = none :=
  (if_neg h).trans (if_neg hfit)

/-- An entry that passes has its payload in the stream. -/
theorem Entry.payload_present {e : Entry} {D : Bytes} {cap : Nat} (h : e.failure D cap = none) :
    e.at_ + 6 ≤ D.length := by
  by_contra hshort
  cases h.symm.trans (Entry.failure_of_short (Nat.not_le.mp hshort))

/-! ### Checking entries in order (41_delta_stage.md R122) -/

/-- The records of the entries where none fails, and otherwise the error of the first that does. -/
def checkEntries (D : Bytes) (cap : Nat) (es : List Entry) : Except Raise (List Record) :=
  match es.findSome? fun e => e.failure D cap with
  | some r => .error r
  | none => .ok (es.map fun e => e.record D)

theorem checkEntries_error_iff {D : Bytes} {cap : Nat} {es : List Entry} {r : Raise} :
    checkEntries D cap es = .error r ↔
      ∃ pre e post, es = pre ++ e :: post ∧ (∀ q ∈ pre, q.failure D cap = none) ∧ e.failure D cap = some r := by
  have hfirst : checkEntries D cap es = .error r ↔ es.findSome? (fun e => e.failure D cap) = some r := by
    cases h : es.findSome? fun e => e.failure D cap <;> simp [checkEntries, h]
  simp only [hfirst, List.findSome?_eq_some_iff, and_comm]

theorem checkEntries_ok_iff {D : Bytes} {cap : Nat} {es : List Entry} {recs : List Record} :
    checkEntries D cap es = .ok recs ↔
      (∀ e ∈ es, e.failure D cap = none) ∧ recs = es.map fun e => e.record D := by
  rw [← List.findSome?_eq_none_iff]
  cases h : es.findSome? fun e => e.failure D cap <;> simp [checkEntries, h, eq_comm]

/-- An entry that fails ends the check. -/
theorem checkEntries_cons_of_failure {D : Bytes} {cap : Nat} {e : Entry} {r : Raise} (h : e.failure D cap = some r)
    (es : List Entry) : checkEntries D cap (e :: es) = .error r := by
  rw [checkEntries, List.findSome?_cons_of_isSome (by rw [h]; rfl), h]

/-- An entry that passes gives its record. -/
theorem checkEntries_cons_of_pass {D : Bytes} {cap : Nat} {e : Entry} (h : e.failure D cap = none) (es : List Entry) :
    checkEntries D cap (e :: es) = (checkEntries D cap es).map (e.record D :: ·) := by
  rw [checkEntries, checkEntries, List.findSome?_cons_of_isNone (by rw [h]; rfl)]
  cases es.findSome? fun e => e.failure D cap <;> rfl

/-- The second of two lists of entries is reached where the first has no failure. -/
theorem checkEntries_append (D : Bytes) (cap : Nat) (xs ys : List Entry) :
    checkEntries D cap (xs ++ ys) =
      (checkEntries D cap xs).bind fun rs => (checkEntries D cap ys).map (rs ++ ·) := by
  simp only [checkEntries, List.findSome?_append, List.map_append]
  cases xs.findSome? fun e => e.failure D cap with
  | some r => rfl
  | none => cases ys.findSome? fun e => e.failure D cap <;> rfl

/-! ### The parser checks the entries -/

/-- The entries of pending pairs whose payloads begin at `c`. -/
def pendEntries (hpos : Nat) (ks : List Nat) (c : Nat) : List Entry :=
  ks.zipIdx.map fun q => ⟨hpos, q.1, c + 6 * q.2⟩

theorem pendEntries_cons (hpos k : Nat) (ks : List Nat) (c : Nat) :
    pendEntries hpos (k :: ks) c = ⟨hpos, k, c⟩ :: pendEntries hpos ks (c + 6) := by
  rw [pendEntries, List.zipIdx_cons', List.map_cons, List.map_map]
  congr 1
  refine List.map_congr_left fun q _ => ?_
  simp only [Function.comp_apply, Prod.map, id_eq, Entry.mk.injEq, true_and]
  omega

/-- The entries of a group are those of the pairs it flags. -/
theorem groupEntries_eq (D : Bytes) (c base : Nat) :
    groupEntries D c base = pendEntries c (pendOf (byteAt D c) base) (c + 1) := by
  rw [groupEntries, pendEntries, pendOf, List.zipIdx_map, List.map_map]
  rfl

theorem length_pendOf (h : Byte) (base : Nat) : (pendOf h base).length = (flaggedSlots h).length := List.length_map _

/-- The parser checks the entries of its pending pairs in order, and moves past their payloads. -/
theorem groupRecords_eq (D : Bytes) (cap hpos : Nat) (ks : List Nat) (c : Nat) :
    groupRecords D cap hpos ks c =
      (checkEntries D cap (pendEntries hpos ks c)).map fun rs => (rs, c + 6 * ks.length) := by
  induction ks generalizing c with
  | nil => rfl
  | cons k ks ih =>
    rw [groupRecords, pendEntries_cons]
    split
    · next hshort => rw [checkEntries_cons_of_failure (Entry.failure_of_short hshort)]; rfl
    · next hpresent =>
      split
      · next hpast => rw [checkEntries_cons_of_failure (Entry.failure_of_past hpresent hpast)]; rfl
      · next hin =>
        have hnext : c + 6 + 6 * ks.length = c + 6 * (k :: ks).length := by rw [List.length_cons]; omega
        rw [checkEntries_cons_of_pass (Entry.failure_of_fit hpresent hin), ih, hnext]
        cases checkEntries D cap (pendEntries hpos ks (c + 6)) <;> rfl

/-- The parser checks the entries of every group from its read cursor on. -/
theorem parseGroups_eq (D : Bytes) (cap fuel c base : Nat) :
    parseGroups D cap fuel c base = checkEntries D cap (entriesFrom D fuel c base) := by
  induction fuel generalizing c base with
  | zero => rfl
  | succ fuel ih =>
    rw [parseGroups, entriesFrom]
    split
    · rw [groupRecords_eq, ← groupEntries_eq, length_pendOf, checkEntries_append]
      cases checkEntries D cap (groupEntries D c base) with
      | error e => rfl
      | ok rs =>
        simp only [Except.map, ih]
        cases checkEntries D cap _ <;> rfl
    · rfl

theorem parseDelta_eq (D : Bytes) (cap : Nat) : parseDelta D cap = checkEntries D cap (streamEntries D) :=
  parseGroups_eq D cap D.length 0 0

/-! ### Payloads (30_encoding.md R79, 41_delta_stage.md R122) -/

theorem Entry.length_record {e : Entry} {D : Bytes} (h : e.at_ + 6 ≤ D.length) : (e.record D).2.length = 6 := by
  rw [Entry.record, List.length_take, List.length_drop]
  omega

/-- Pending pairs whose payloads are all present need six bytes each. -/
theorem pendEntries_room {L hpos : Nat} {ks : List Nat} {c : Nat} (hc : c ≤ L)
    (h : ∀ e ∈ pendEntries hpos ks c, e.at_ + 6 ≤ L) : c + 6 * ks.length ≤ L := by
  induction ks generalizing c with
  | nil => exact hc
  | cons k ks ih =>
    rw [pendEntries_cons, List.forall_mem_cons] at h
    obtain ⟨hfirst, hrest⟩ := h
    have hroom : c + 6 + 6 * ks.length ≤ L := ih hfirst hrest
    rw [List.length_cons]
    omega

/-- The entries from a header on need six bytes each where all payloads are present. -/
theorem entriesFrom_room {D : Bytes} {fuel c base : Nat} (hc : c ≤ D.length)
    (h : ∀ e ∈ entriesFrom D fuel c base, e.at_ + 6 ≤ D.length) :
    c + 6 * (entriesFrom D fuel c base).length ≤ D.length := by
  induction fuel generalizing c base with
  | zero => exact hc
  | succ fuel ih =>
    rw [entriesFrom] at h ⊢
    split at h
    · next hlt =>
      rw [List.forall_mem_append] at h
      obtain ⟨hgroup, hrest⟩ := h
      rw [groupEntries_eq] at hgroup
      have hnext := pendEntries_room (show c + 1 ≤ D.length from hlt) hgroup
      rw [length_pendOf] at hnext
      have hroom := ih hnext hrest
      have hlen : (groupEntries D c base).length = (flaggedSlots (byteAt D c)).length := by
        rw [groupEntries, List.length_map, List.length_zipIdx]
      rw [if_pos hlt, List.length_append, hlen]
      omega
    · next hend =>
      rw [if_neg hend]
      exact hc

/-- Settles O41: the pass is the check of the entries in order, and those that pass have their payloads in the stream. -/
theorem parsedRecordsFitAndAscend : Obligations.ParsedRecordsFitAndAscend := by
  refine ⟨fun D cap r => ?_, fun D cap recs => ?_, fun D cap recs h => ?_⟩
  · rw [parseDelta_eq]
    exact checkEntries_error_iff
  · rw [parseDelta_eq]
    exact checkEntries_ok_iff
  · have hfit := parseDelta_fit h
    have hascend := parseDelta_ascends h
    rw [parseDelta_eq, checkEntries_ok_iff] at h
    obtain ⟨hpass, rfl⟩ := h
    have hpresent : ∀ e ∈ streamEntries D, e.at_ + 6 ≤ D.length := fun e he => Entry.payload_present (hpass e he)
    refine ⟨fun r hr => ⟨hfit r hr, ?_⟩, hascend, ?_⟩
    · obtain ⟨e, he, rfl⟩ := List.mem_map.mp hr
      exact Entry.length_record (hpresent e he)
    · rw [List.length_map]
      exact (Nat.le_add_left _ _).trans (entriesFrom_room (Nat.zero_le _) hpresent)

end Sys2Proof.Machine
end

section
/-! SUPPORT. Writes of CMD: which words start a command, what the write of each leaves in the registers, and the step
that runs a command just started. -/

namespace Sys2Proof.Machine

/-! ### Legal command words (30_encoding.md R72) -/

/-- The opcodes of commands are 1 to 6. -/
theorem decodeOpcode_ok_iff {op : Byte} : (∃ i, decodeOpcode op = .ok i) ↔ 1 ≤ op.toNat ∧ op.toNat ≤ 6 := by
  constructor
  · rintro ⟨i, hd⟩
    rw [decodeOpcode_iff.mp hd]
    cases i <;> decide
  · rintro ⟨hlow, hhigh⟩
    unfold decodeOpcode
    interval_cases op.toNat <;> exact ⟨_, rfl⟩

/-- A word is a command's exactly where its reserved bits are 0 and its opcode is 1 to 6. -/
theorem decodeWord_ok_iff {w : Word} :
    (∃ i, decodeWord w = .ok i) ↔
      w.extractLsb' 8 56 = 0 ∧ 1 ≤ (w.extractLsb' 0 8).toNat ∧ (w.extractLsb' 0 8).toNat ≤ 6 := by
  by_cases hrsvd : w.extractLsb' 8 56 = 0
  · simp only [decodeWord, CmdWord.ofWord, hrsvd, if_true, true_and, decodeOpcode_ok_iff]
  · simp only [decodeWord, CmdWord.ofWord, hrsvd, if_false, false_and, reduceCtorEq, exists_false]

/-- The low byte of a command's word is its opcode (30_encoding.md R70). -/
theorem extractLsb'_encodeWord (i : Instr) : (encodeWord i).extractLsb' 0 8 = i.cmdWord.opcode := by
  cases i <;> rfl

/-! ### The write of CMD (40_command_interface.md R92 to R94) -/

/-- Offset 0x18 is CMD. -/
theorem State.mmioWrite_cmd (s : State) (w : Word) : s.mmioWrite 0x18 w = s.commandWrite w := rfl

theorem State.commandWrite_busy {s : State} (hb : s.eng = .busy) (w : Word) : s.commandWrite w = s.dropCommand := by
  simp only [State.commandWrite, hb]

theorem State.commandWrite_legal {s : State} {w : Word} (hi : s.eng = .idle) (hw : ∃ i, decodeWord w = .ok i) :
    s.commandWrite w = s.startCommand w := by
  obtain ⟨i, hd⟩ := hw
  simp only [State.commandWrite, hi, hd]

theorem State.commandWrite_illegal {s : State} {w : Word} (hi : s.eng = .idle) (hw : ¬ ∃ i, decodeWord w = .ok i) :
    s.commandWrite w = s.rejectCommand w := by
  cases hd : decodeWord w with
  | ok i => exact absurd ⟨i, hd⟩ hw
  | error e => simp only [State.commandWrite, hi, hd]

/-- Settles O9: a BUSY block drops the word (R92). -/
theorem commandWriteWhileBusyIsDropped : Obligations.CommandWriteWhileBusyIsDropped := by
  intro s w hb
  rw [State.mmioWrite_cmd, State.commandWrite_busy hb]
  rfl

/-- Settles O7: the write is the update of R94, which latches by R95. -/
theorem legalCommandWordStarts : Obligations.LegalCommandWordStarts := by
  intro s w hi hrsvd hlow hhigh
  have hstart : s.mmioWrite 0x18 w = s.startCommand w := by
    rw [State.mmioWrite_cmd, State.commandWrite_legal hi (decodeWord_ok_iff.mpr ⟨hrsvd, hlow, hhigh⟩)]
  rw [hstart]
  exact ⟨rfl, rfl, rfl, rfl, rfl, rfl, rfl, rfl, rfl, rfl, rfl, rfl, rfl, rfl, rfl, rfl, rfl⟩

/-- Settles O8: none of the three kinds of word decodes, so the write is the update of R93. -/
theorem illegalCommandWordIsRejected : Obligations.IllegalCommandWordIsRejected := by
  intro s w hi hillegal
  have hnone : ¬ ∃ i, decodeWord w = .ok i := by
    rw [decodeWord_ok_iff]
    rintro ⟨hrsvd, hlow, hhigh⟩
    rcases hillegal with hne | hzero | hpast
    · exact hne hrsvd
    · omega
    · omega
  have hreject : s.mmioWrite 0x18 w = s.rejectCommand w := by
    rw [State.mmioWrite_cmd, State.commandWrite_illegal hi hnone]
  rw [hreject]
  exact ⟨rfl, rfl, rfl, rfl, rfl, rfl, rfl, hi, rfl, rfl, rfl, rfl, rfl, rfl, rfl⟩

/-! ### The step of a command just started (40_command_interface.md R94, R97) -/

/-- At the engine's turn a BUSY block runs the command whose opcode is latched. -/
theorem step_latched {s : State} {es : List Event} {i : Instr}
    (hev : s.events = [] ∧ es = [] ∨ s.events = .engine :: es) (hb : s.eng = .busy)
    (hop : s.latch.op = i.cmdWord.opcode) : step s = exec i (s.withEvents es) := by
  rw [step_engine hev]
  exact State.engineTurn_busy hb (State.decode_fetchBytes_iff.mpr hop)

/-- Settles O5: the host write is the start of the command, and the turn after it finds the command in LATCH. -/
theorem writtenCommandRunsAtTheEnginesTurn : Obligations.WrittenCommandRunsAtTheEnginesTurn := by
  intro s i a es hi hev hwidth hbeats hoff hop
  obtain ⟨_, hwrite, _⟩ := hostAccessesReachTheirRegister
  have hstep : step s = .next (((s.withEvents (.engine :: es)).startCommand (encodeWord i)).reply .written) := by
    rw [hwrite s a _ _ hev hwidth hbeats (by rw [hoff]) (by rw [hoff]; decide) hop, hoff, State.mmioWrite_cmd,
      State.commandWrite_legal (s := s.withEvents (.engine :: es)) hi ⟨i, decodeWord_encodeWord i⟩]
  exact ⟨_, hstep, rfl, rfl, State.decode_fetchBytes_iff.mpr (extractLsb'_encodeWord i), rfl,
    step_latched (.inr rfl) rfl (extractLsb'_encodeWord i)⟩

/-- The engine's turn stands first, and taking it off gives the state back. -/
theorem State.engineNext_cases (s : State) :
    (s.engineNext.events = [] ∧ s.events = [] ∨ s.engineNext.events = .engine :: s.events) ∧
      s.engineNext.withEvents s.events = s := by
  unfold State.engineNext
  split
  · next hev => exact ⟨.inl ⟨hev, hev⟩, rfl⟩
  · next => exact ⟨.inr rfl, rfl⟩

/-- A command's word is placed as an accepted write of it (log entry 2). -/
theorem State.withFetchWord_encodeWord (s : State) (i : Instr) :
    s.withFetchWord 64 (encodeWord i).toNat = s.engineNext.startCommand (encodeWord i) := by
  rw [State.withFetchWord, Nat.mod_eq_of_lt (encodeWord i).isLt, BitVec.ofNat_toNat, BitVec.setWidth_eq, State.placeWord,
    decodeWord_encodeWord]

/-- Settles O6: the placed state has the command in LATCH and the engine's turn first. -/
theorem placedWordRunsNext : Obligations.PlacedWordRunsNext := by
  intro s i
  obtain ⟨hturn, hback⟩ := s.engineNext_cases
  calc step (s.withFetchWord 64 (encodeWord i).toNat)
      = step (s.engineNext.startCommand (encodeWord i)) := by rw [s.withFetchWord_encodeWord]
    _ = exec i ((s.engineNext.startCommand (encodeWord i)).withEvents s.events) :=
        step_latched hturn rfl (extractLsb'_encodeWord i)
    _ = exec i ((s.engineNext.withEvents s.events).startCommand (encodeWord i)) := rfl
    _ = exec i (s.startCommand (encodeWord i)) := by rw [hback]

/-! ### No step stops (60_exceptions.md R200) -/

/-- What a BUSY block that meets the invariant has latched is a command. -/
theorem State.Inv.latched {s : State} (h : s.Inv) (hb : s.eng = .busy) : ∃ i : Instr, s.latch.op = i.cmdWord.opcode := by
  obtain ⟨_, _, _, _, hbusy, _⟩ := h
  obtain ⟨hcmd, ⟨i, hd⟩, _⟩ := hbusy hb
  rw [hcmd, decodeWord_zeroExtend] at hd
  exact ⟨i, decodeOpcode_iff.mp hd⟩

/-- Settles O26: the one fault needs a latched reserved opcode, which the invariant excludes. -/
theorem noStepStops : Obligations.NoStepStops := by
  intro s hinv
  rcases step_cases s with ⟨_, _, _, _, hs⟩ | ⟨_, _, ⟨_, hs⟩ | ⟨_, _, _, hs⟩ | ⟨hb, hreserved, _⟩⟩
  · exact ⟨_, hs⟩
  · exact ⟨_, hs⟩
  · exact ⟨_, hs⟩
  · obtain ⟨i, hop⟩ := hinv.latched hb
    exact absurd hop (hreserved i)

end Sys2Proof.Machine
end

section
/-! SUPPORT. Phase A: what the region check and the overlap check report, and how a command that phase A stops ends. -/

namespace Sys2Proof.Machine

/-! ### The region check (40_command_interface.md R99) -/

theorem regionOrder_getElem_iff {n : Nat} (hn : n < regionOrder.length) {r : RegionName} :
    regionOrder[n] = r ↔ n = r.index := by
  revert n
  cases r <;> decide

theorem RegionName.index_lt (r : RegionName) : r.index < regionOrder.length := by cases r <;> decide

/-- The first region in order is the one of the smallest index. -/
theorem find?_regionOrder_iff {p : RegionName → Bool} {r : RegionName} :
    regionOrder.find? p = some r ↔ p r = true ∧ ∀ q : RegionName, q.index < r.index → p q = false := by
  have hat (q : RegionName) : regionOrder[q.index]'q.index_lt = q := (regionOrder_getElem_iff _).mpr rfl
  rw [List.find?_eq_some_iff_getElem]
  constructor
  · rintro ⟨hp, n, hn, hr, hbefore⟩
    obtain rfl := (regionOrder_getElem_iff hn).mp hr
    exact ⟨hp, fun q hq => by simpa [hat q] using hbefore q.index hq⟩
  · rintro ⟨hp, hbefore⟩
    refine ⟨hp, r.index, r.index_lt, hat r, fun n hn => ?_⟩
    have hlt : (regionOrder[n]'(hn.trans r.index_lt)).index < r.index :=
      ((regionOrder_getElem_iff _).mp rfl).symm ▸ hn
    rw [hbefore _ hlt, Bool.not_false]

theorem checkRegions_some {used : List RegionName} {a : Args} {e : Raise} :
    checkRegions used a = some e ↔
      ∃ r ∈ used, 2 ^ 64 < (a.region r).addr.toNat + (a.region r).len.toNat ∧ e = ⟨.region, r.index⟩ ∧
        ∀ q ∈ used, q.index < r.index → (a.region q).addr.toNat + (a.region q).len.toNat ≤ 2 ^ 64 := by
  simp only [checkRegions, Option.map_eq_some_iff, find?_regionOrder_iff, Bool.and_eq_true, Bool.and_eq_false_imp,
    List.contains_iff_mem, decide_eq_true_eq, decide_eq_false_iff_not, not_lt]
  constructor
  · rintro ⟨r, ⟨⟨hr, hpast⟩, hbefore⟩, rfl⟩
    exact ⟨r, hr, hpast, rfl, fun q hq hlt => hbefore q hlt hq⟩
  · rintro ⟨r, hr, hpast, rfl, hbefore⟩
    exact ⟨r, ⟨⟨hr, hpast⟩, fun q hlt hq => hbefore q hq hlt⟩, rfl⟩

/-- Settles O32: the first region in the order of R99 is the one of the smallest index. -/
theorem regionCheckReportsTheFirstThatPassesTheTop : Obligations.RegionCheckReportsTheFirstThatPassesTheTop := by
  refine fun used a => ⟨checkRegions_none, fun e => checkRegions_some, fun r hlen => ?_, rfl⟩
  rw [hlen]
  exact (a.region r).addr.isLt.le

/-! ### The overlap check (40_command_interface.md R100) -/

/-- Every two regions of which one is written are looked at, in one order or the other. -/
theorem mem_overlapOrder {r q : RegionName} (hne : r ≠ q) (hwritten : q = .dst ∨ q = .scr) :
    (r, q) ∈ overlapOrder ∨ (q, r) ∈ overlapOrder := by
  rcases hwritten with rfl | rfl <;> cases r
  case inl.dst | inr.scr => exact absurd rfl hne
  all_goals decide

theorem overlaps_comm (a b : Region) : overlaps a b = overlaps b a := by
  rw [Bool.eq_iff_iff, overlaps_iff_shared, overlaps_iff_shared]
  simp only [and_comm]

theorem checkOverlap_none {used : List RegionName} {a : Args} :
    checkOverlap used a = none ↔
      ∀ p ∈ overlapOrder, p.1 ∈ used → p.2 ∈ used → overlaps (a.region p.1) (a.region p.2) = false := by
  simp only [checkOverlap, Option.map_eq_none_iff, List.find?_eq_none, Bool.and_eq_true, List.contains_iff_mem, not_and,
    Bool.not_eq_true, and_imp]

theorem checkOverlap_none_iff {i : Instr} {a : Args} : checkOverlap (usedRegions i) a = none ↔ RegionsApart i a := by
  refine ⟨fun h r hr q hq hne hwritten x hx => ?_, checkOverlap_none_of_apart⟩
  have hdisjoint : overlaps (a.region r) (a.region q) = false := by
    rcases mem_overlapOrder hne hwritten with hmem | hmem
    · exact checkOverlap_none.mp h _ hmem hr hq
    · exact (overlaps_comm _ _).trans (checkOverlap_none.mp h _ hmem hq hr)
  by_contra hshared
  rw [overlaps_iff_shared.mpr ⟨x, hx, Bool.not_eq_false _ |>.mp hshared⟩] at hdisjoint
  cases hdisjoint

theorem checkOverlap_some {used : List RegionName} {a : Args} {e : Raise} :
    checkOverlap used a = some e ↔
      ∃ pre i j post, overlapOrder = pre ++ (i, j) :: post ∧
        i ∈ used ∧ j ∈ used ∧ overlaps (a.region i) (a.region j) = true ∧
        (∀ p ∈ pre, p.1 ∈ used → p.2 ∈ used → overlaps (a.region p.1) (a.region p.2) = false) ∧
        e = ⟨.overlap, 16 * i.index + j.index⟩ := by
  simp only [checkOverlap, Option.map_eq_some_iff, List.find?_eq_some_iff_append, Bool.not_eq_true', Bool.and_eq_true,
    Bool.and_eq_false_imp, List.contains_iff_mem, and_imp]
  constructor
  · rintro ⟨⟨i, j⟩, ⟨⟨⟨hi, hj⟩, hover⟩, pre, post, hsplit, hbefore⟩, rfl⟩
    exact ⟨pre, i, j, post, hsplit, hi, hj, hover, hbefore, rfl⟩
  · rintro ⟨pre, i, j, post, hsplit, hi, hj, hover, hbefore, rfl⟩
    exact ⟨(i, j), ⟨⟨⟨hi, hj⟩, hover⟩, pre, post, hsplit, hbefore⟩, rfl⟩

/-- Settles O33: a pair overlaps exactly where it shares a byte, and the order of R100 holds every pair that matters. -/
theorem overlapCheckFindsSharedBytes : Obligations.OverlapCheckFindsSharedBytes :=
  ⟨fun _ _ => overlaps_iff_shared, fun _ _ => checkOverlap_none_iff, fun _ _ _ => checkOverlap_some, rfl⟩

/-! ### The end of a command that phase A stops (40_command_interface.md R101) -/

/-- Where no hazard rule was broken, an error of phase A is the end of the *complete* step. -/
theorem State.complete_eq_failA {s : State} {i : Instr} {early : Args → Option Raise} {r : Raise}
    (body : Args → Port → Verdict × Port) (hquiet : Quiet i s) (hphase : phaseA i early s.latch.args = some r) :
    s.complete i early body = s.failA i r := by
  obtain ⟨hhazard, hmem⟩ := hquiet
  simp [State.complete, hhazard, hmem, hphase]

theorem scratchSpans_of_not_mixed {i : Instr} (h : i ≠ .mixedCompress ∧ i ≠ .mixedDecompress) (a : Args) :
    scratchSpans i a = [] := by
  obtain ⟨hcompress, hdecompress⟩ := h
  cases i
  case mixedCompress => exact absurd rfl hcompress
  case mixedDecompress => exact absurd rfl hdecompress
  all_goals rfl

/-- A command that phase A stops ends with that error, and memory may change in SCR of a mixed command alone, where the
configuration loses it (log entry 30). -/
theorem exec_of_phaseA {i : Instr} {s : State} {r : Raise} (hquiet : Quiet i s)
    (hphase : phaseA i (earlyCheckOf i) s.latch.args = some r) :
    ∃ t, exec i s = .next t ∧ Ends t r.code 0 0 r.info ∧ KeepsRest s t ∧
      MemSameOutside s t (scratchSpans i s.latch.args) ∧
      (i ≠ .mixedCompress ∧ i ≠ .mixedDecompress ∨ s.cfg.losesScratch = false → MemSame s t) := by
  refine ⟨s.failA i r, ?_, ⟨rfl, rfl, rfl, rfl, rfl, fun hinfo => if_pos hinfo⟩,
    (completes_failA s (phaseA_code hphase).1).keepsRest, fun x hx => s.memRead_failA fun _ => hx, fun hkept x => ?_⟩
  · rw [exec_eq, State.complete_eq_failA _ hquiet hphase]
  · refine s.memRead_failA fun hloses => ?_
    rcases hkept with hplain | hkeeps
    · rw [scratchSpans_of_not_mixed hplain]
      rfl
    · rw [hkeeps] at hloses
      cases hloses

/-- Settles O34: phase A is the first of its three checks that fails. -/
theorem phaseAErrorLeavesMemoryUnchanged : Obligations.PhaseAErrorLeavesMemoryUnchanged := by
  intro i s hquiet
  refine ⟨fun r hregions => exec_of_phaseA hquiet ?_, fun r hregions hoverlap => exec_of_phaseA hquiet ?_,
    fun r hregions hoverlap hearly => exec_of_phaseA hquiet ?_⟩
  · rw [phaseA, hregions, Option.some_or]
  · rw [phaseA, hregions, hoverlap, Option.none_or, Option.some_or]
  · rw [phaseA, hregions, hoverlap, hearly, Option.none_or, Option.none_or]

end Sys2Proof.Machine
end

section
/-! SUPPORT. Delta streams at the edges: frames that a command rejects, frames with no change, and zero headers. -/

namespace Sys2Proof.Machine

/-! ### Frames that are rejected (41_delta_stage.md R124, R127) -/

/-- Frames that do not match fail the geometry check: by their lengths, or else by not being whole pairs. -/
theorem geometryCheck_some {a : Args} (h : ¬ FramesMatch a) :
    geometryCheck a = some ⟨.geometry, if a.src0.size = a.src1.size then 1 else 0⟩ := by
  by_cases hsize : a.src0.size = a.src1.size
  · have hpairs : a.src0.size % pairBytes ≠ 0 := fun hpairs => h ⟨hsize, hpairs⟩
    rw [geometryCheck, if_neg (not_not_intro hsize), if_pos hpairs, if_pos hsize]
  · rw [geometryCheck, if_pos hsize, if_neg hsize]

/-- Settles O35: the geometry check is the last of phase A, and the others pass. -/
theorem mismatchedFramesAreRejected : Obligations.MismatchedFramesAreRejected := by
  intro i s hi hquiet hfit hapart hframes
  have hearly : earlyCheckOf i = geometryCheck := by rcases hi with rfl | rfl <;> rfl
  have hfail : phaseA i (earlyCheckOf i) s.latch.args =
      some ⟨.geometry, if s.latch.args.src0.size = s.latch.args.src1.size then 1 else 0⟩ := by
    rw [phaseA, checkRegions_none.mpr hfit, checkOverlap_none_of_apart hapart, hearly, geometryCheck_some hframes]
    rfl
  obtain ⟨t, hexec, hends, hrest, houtside, hsame⟩ := exec_of_phaseA hquiet hfail
  refine ⟨t, hexec, hends, hrest, houtside, fun hkept => hsame (hkept.imp_left ?_)⟩
  rintro rfl
  decide

/-! ### Frames with no change (41_delta_stage.md R125) -/

/-- A pair is clean where its six RGB bytes agree. -/
theorem dirty_eq_false_iff {P C : Bytes} {k : Nat} :
    dirty P C k = false ↔ ∀ j ∈ rgbOffsets, byteAt P (pairBytes * k + j) = byteAt C (pairBytes * k + j) := by
  simp only [dirty, List.any_eq_false, bne_iff_ne, ne_eq, not_not]

/-- A group with no flagged pair is one zero header. -/
theorem groupBytes_of_clean {P C : Bytes} {n : Nat} (h : ∀ k, flagged P C n k = false) (g : Nat) :
    groupBytes P C n g = [0#8] := by
  have hheader : groupHeader P C n g = 0#8 := header_ext fun i hi => by
    rw [getLsbD_groupHeader _ _ _ _ hi, h, BitVec.getLsbD_zero]
  have hpairs : groupPairsOf P C n g = [] := List.filter_eq_nil_iff.mpr fun k _ => by rw [h]; exact Bool.false_ne_true
  rw [groupBytes, hheader, hpairs, List.flatMap_nil]

/-- Settles O39: no pair is flagged, in any group. -/
theorem unchangedFramesGiveTheMinimalStream : Obligations.UnchangedFramesGiveTheMinimalStream := by
  intro P C n hP hC hsame
  have hclean : ∀ k < n, dirty P C k = false := fun k hk => dirty_eq_false_iff.mpr fun j hj => hsame k j hk hj
  have hflagged : ∀ k, flagged P C n k = false := fun k => by
    by_cases hk : k < n
    · rw [flagged_of_lt hk, hclean k hk]
    · exact flagged_of_le (Nat.le_of_not_lt hk)
  have hcount : dirtyPairs P C n = [] := List.filter_eq_nil_iff.mpr fun k hk => by
    rw [hclean k (List.mem_range.mp hk)]; exact Bool.false_ne_true
  have hstream : (List.range (ceilDiv n 8)).flatMap (groupBytes P C n) = List.replicate (ceilDiv n 8) 0#8 := by
    rw [List.flatMap_congr fun g _ => groupBytes_of_clean hflagged g, ← List.map_eq_flatMap, List.map_const',
      List.length_range]
  rw [encodedStreamIsItsGroups P C n hP hC, hcount]
  exact congrArg (·, 0) hstream

/-! ### Zero headers (41_delta_stage.md R129) -/

theorem flaggedSlots_zero : flaggedSlots 0#8 = [] := by decide

theorem byteAt_replicate_zero (z c : Nat) : byteAt (List.replicate z 0#8) c = 0#8 := by
  rw [byteAt, List.getD_eq_getElem?_getD]
  exact List.getElem?_getD_replicate_default_eq (d := 0#8) z c

/-- Zero headers flag no pair. -/
theorem entriesFrom_replicate_zero (z fuel c base : Nat) : entriesFrom (List.replicate z 0#8) fuel c base = [] := by
  induction fuel generalizing c base with
  | zero => rfl
  | succ fuel ih =>
    rw [entriesFrom, groupEntries, byteAt_replicate_zero, flaggedSlots_zero, ih]
    exact ite_self _

/-- Settles O42: a stream of zero headers has no entry to check. -/
theorem zeroHeadersAreAccepted : Obligations.ZeroHeadersAreAccepted := by
  intro z cap
  rw [parseDelta_eq, streamEntries, entriesFrom_replicate_zero]
  rfl

end Sys2Proof.Machine
end

section
/-! SUPPORT. Commands that phase B stops with an error of their own: what memory may change, outputs that do not fit their
buffer, and streams that an apply turns away. -/

namespace Sys2Proof.Machine

/-! ### Phase B ends in an error (60_exceptions.md R204) -/

/-- A command whose evaluation raises an error with nothing refused ends in that error, and memory may change in the
may-write set of such an error alone. -/
theorem exec_of_raise {i : Instr} {s : State} {r : Raise} {q : Port} (hquiet : Quiet i s)
    (hphase : phaseA i (earlyCheckOf i) s.latch.args = none)
    (hbody : bodyOf i s.latch.args (s.port false s.draws) = (.raise r, q)) (hrefused : q.refused = []) :
    ∃ t, exec i s = .next t ∧ Ends t r.code 0 0 r.info ∧ KeepsRest s t ∧
      MemSameOutside s t (errorSpans i s.latch.args) := by
  have hsettle : s.phaseB i (bodyOf i) = (s.withDraws q.draws).failB i r := by
    simp only [State.phaseB, hbody, hrefused, if_true, State.settle]
  have hexec : exec i s = .next ((s.withDraws q.draws).failB i r) := by
    rw [exec_eq, State.complete_eq_phaseB _ hquiet hphase, hsettle]
  exact ⟨_, hexec, ⟨rfl, rfl, rfl, rfl, rfl, fun hinfo => if_pos hinfo⟩, (exec_completes hexec).keepsRest,
    fun x hx => State.memRead_scramble (s.withDraws q.draws) _ hx⟩

/-- How a command ends where no hazard rule was broken: an error of phase A; or, past phase A, success with nothing
refused, an error of phase B other than BUS, or BUS. -/
theorem exec_quiet_cases {i : Instr} {s t : State} (hquiet : Quiet i s) (hexec : exec i s = .next t) :
    (∃ r, phaseA i (earlyCheckOf i) s.latch.args = some r ∧ t = s.failA i r) ∨
    phaseA i (earlyCheckOf i) s.latch.args = none ∧
      ((∃ len aux q, bodyOf i s.latch.args (s.port false s.draws) = (.finish len aux, q) ∧ q.refused = [] ∧
          t = s.settle i (.finish len aux) q) ∨
        (∃ r d, r.code ≠ .none ∧ t = (s.withDraws d).failB i r) ∨ ∃ x d, t = (s.withDraws d).failBus i x) := by
  obtain ⟨hhazard, hidem⟩ := hquiet
  rw [exec_eq] at hexec
  cases hexec
  rcases s.complete_cases i (earlyCheckOf i) (bodyOf i) with
    ⟨hbroken, _⟩ | ⟨_, _, ⟨r, hr, ha⟩ | ⟨hphase, ⟨hnone, hs⟩ | ⟨hrefused, hs⟩⟩⟩
  · rw [hhazard, hidem] at hbroken
    exact absurd hbroken (by decide)
  · exact .inl ⟨r, hr, ha⟩
  · refine .inr ⟨hphase, ?_⟩
    have hcodes := (body_ok (fits_of_phaseA hphase) (s.port false s.draws)).codes
    rw [hs]
    generalize bodyOf i s.latch.args (s.port false s.draws) = out at hnone hcodes
    obtain ⟨v, q⟩ := out
    cases v with
    | finish len aux => exact .inl ⟨len, aux, q, rfl, hnone, rfl⟩
    | raise r => exact .inr (.inl ⟨r, q.draws, (hcodes r rfl).2.2, rfl⟩)
  · refine .inr ⟨hphase, .inr ?_⟩
    rw [hs]
    refine (s.settleRefused_cases i hrefused _).imp ?_ fun ⟨x, d, _, hb⟩ => ⟨x, d, hb⟩
    rintro ⟨r, d, hraise, hb⟩
    exact ⟨r, d, ((body_ok (fits_of_phaseA hphase) _).codes r hraise).2.2, hb⟩

/-- A command that succeeds passed phase A and finished its evaluation with nothing refused. -/
theorem exec_success {i : Instr} {s t : State} (hquiet : Quiet i s) (hexec : exec i s = .next t)
    (hok : t.err = .none) :
    phaseA i (earlyCheckOf i) s.latch.args = none ∧
      ∃ len aux q, bodyOf i s.latch.args (s.port false s.draws) = (.finish len aux, q) ∧ q.refused = [] ∧
        t = s.settle i (.finish len aux) q := by
  rcases exec_quiet_cases hquiet hexec with
    ⟨r, hr, rfl⟩ | ⟨hphase, hfinish | ⟨r, d, hcode, rfl⟩ | ⟨x, d, rfl⟩⟩
  · exact absurd hok (phaseA_code hr).2.2
  · exact ⟨hphase, hfinish⟩
  · exact absurd hok hcode
  · cases hok

/-- A byte outside a region is outside its span, also where the region passes the top of memory space. -/
theorem Region.span_holds_of_outside {r : Region} {x : Nat} (h : r.holds x = false) : r.span.holds x = false := by
  rw [← Bool.not_eq_true, Region.holds_iff] at h
  have hsize : r.span.size ≤ r.size := Nat.min_le_left _ _
  have hbase : r.span.base = r.base := rfl
  simp only [Span.holds, Bool.and_eq_false_iff, decide_eq_false_iff_not]
  omega

/-- The scratch spans are those of SCR. -/
theorem scratchSpans_of_outside {i : Instr} {a : Args} {x : Nat} (h : a.scr.holds x = false) :
    inSpans (scratchSpans i a) x = false := by
  cases i
  case mixedCompress | mixedDecompress => exact inSpans_cons.mpr ⟨Region.span_holds_of_outside h, rfl⟩
  all_goals rfl

/-! ### Outputs that do not fit (41_delta_stage.md R124, 42_entropy_stage.md R154, 43_codec_facade.md R180) -/

theorem encodeDeltaBody_overflow {a : Args} {p : Port} {D : Bytes × Nat} (hgather : gatherDelta a p = (D, p))
    (h : a.dst.size < D.1.length) : encodeDeltaBody a p = (.raise ⟨.dstOverflow, D.1.length⟩, p) := by
  simp only [encodeDeltaBody, hgather, if_pos h]

theorem emitCompressed_tooLarge {X : Bytes} (h : 2 ^ 32 ≤ X.length) (aux : Nat) (a : Args) (p : Port) :
    emitCompressed X aux a p = (.raise ⟨.tooLarge, X.length⟩, p) := by
  have herror : compressBytes p.cfg X = .error ⟨.tooLarge, X.length⟩ := if_pos h
  rw [emitCompressed, herror]

theorem emitCompressed_overflow {X Y : Bytes} {a : Args} {p : Port} (aux : Nat) (hY : compressBytes p.cfg X = .ok Y)
    (h : a.dst.size < Y.length) : emitCompressed X aux a p = (.raise ⟨.dstOverflow, Y.length⟩, p) := by
  simp only [emitCompressed, hY, if_pos h]

theorem mixedCompressBody_scrOverflow {a : Args} {p : Port} {D : Bytes × Nat} (hgather : gatherDelta a p = (D, p))
    (h : a.scr.size < D.1.length) : mixedCompressBody a p = (.raise ⟨.scrOverflow, D.1.length⟩, p) := by
  simp only [mixedCompressBody, hgather, if_pos h]

/-- A delta stream that fits SCR is compressed from there (43_codec_facade.md R180). -/
theorem mixedCompressBody_admitted {a : Args} {p : Port} {D : Bytes × Nat} (hgather : gatherDelta a p = (D, p))
    (hwf : memWf p.mem = true) (hscrfit : a.scr.base + a.scr.size ≤ addrSpace) (hscr : D.1.length ≤ a.scr.size)
    (hw : Admitted p.cfg .write a.scr.base D.1.length) (hr : Admitted p.cfg .read a.scr.base D.1.length) :
    mixedCompressBody a p = emitCompressed D.1 D.2 a (p.withMem (memWriteBytes p.mem a.scr.base D.1)) := by
  have hthrough := throughScratch_admitted hwf (Nat.le_trans (Nat.add_le_add_left hscr _) hscrfit) hw hr
  simp only [mixedCompressBody, hgather, if_neg (Nat.not_lt.mpr hscr), hthrough]

/-- Settles O49: each evaluation raises its error with nothing refused. -/
theorem overflowReportsTheNeededLength : Obligations.OverflowReportsTheNeededLength := by
  refine ⟨?_, ?_, ?_⟩
  · intro s hquiet hfit hapart hframes a D h0 h1 hlen
    have hgather : gatherDelta a (s.port false s.draws) = (D, s.port false s.draws) := gatherDelta_admitted h0 h1
    obtain ⟨t, hexec, hends, hrest, hmem⟩ := exec_of_raise hquiet
      (phaseA_none hfit hapart (geometryCheck_none hframes)) (encodeDeltaBody_overflow hgather hlen) rfl
    exact ⟨t, hexec, hends, hrest, fun x hx => hmem x (inSpans_cons.mpr ⟨Region.span_holds_of_outside hx, rfl⟩)⟩
  · intro s hquiet hfit hapart a Y hsize hr hlen
    have hX : (regionBytes s a.src0).length = a.src0.size := memBytes_length _ _ _
    have hY : compressBytes s.cfg (regionBytes s a.src0) = .ok Y := by
      rw [compressBytes_ok _ (hX ▸ hsize), hX]
    have hbody : bodyOf .compress a (s.port false s.draws) =
        (.raise ⟨.dstOverflow, Y.length⟩, s.port false s.draws) := by
      simp only [bodyOf, compressBody, State.port_bytesOf hr]
      exact emitCompressed_overflow _ hY hlen
    obtain ⟨t, hexec, hends, hrest, hmem⟩ :=
      exec_of_raise hquiet (phaseA_none hfit hapart (sizeCheck_none hsize)) hbody rfl
    exact ⟨t, hexec, hends, hrest, fun x hx => hmem x (inSpans_cons.mpr ⟨Region.span_holds_of_outside hx, rfl⟩)⟩
  · intro s hwf hquiet hfit hapart hframes a D Y h0 h1 hscr e info hcheck
    have hgather : gatherDelta a (s.port false s.draws) = (D, s.port false s.draws) := gatherDelta_admitted h0 h1
    have hraise : ∃ q, bodyOf .mixedCompress a (s.port false s.draws) = (.raise ⟨e, info⟩, q) ∧ q.refused = [] := by
      split at hcheck
      · next hover =>
        obtain ⟨rfl, rfl⟩ := hcheck
        exact ⟨_, mixedCompressBody_scrOverflow hgather hover, rfl⟩
      · next hfits =>
        have hle := Nat.le_of_not_lt hfits
        obtain ⟨hw, hr⟩ := hscr hle
        have hemit := mixedCompressBody_admitted hgather hwf (hfit .scr (by decide)) hle hw hr
        split at hcheck
        · next hlarge =>
          obtain ⟨rfl, rfl⟩ := hcheck
          exact ⟨_, hemit.trans (emitCompressed_tooLarge hlarge _ _ _), rfl⟩
        · next hsmall =>
          obtain ⟨hlen, rfl, rfl⟩ := hcheck
          exact ⟨_, hemit.trans (emitCompressed_overflow _ (compressBytes_ok _ (Nat.lt_of_not_le hsmall)) hlen), rfl⟩
    obtain ⟨q, hbody, hrefused⟩ := hraise
    obtain ⟨t, hexec, hends, hrest, hmem⟩ :=
      exec_of_raise hquiet (phaseA_none hfit hapart (geometryCheck_none hframes)) hbody hrefused
    exact ⟨t, hexec, hends, hrest, fun x hx hxs => hmem x (inSpans_cons.mpr
      ⟨Region.span_holds_of_outside hx, inSpans_cons.mpr ⟨Region.span_holds_of_outside hxs, rfl⟩⟩)⟩

/-! ### Streams that an apply turns away (41_delta_stage.md R128, 43_codec_facade.md R181) -/

theorem applyStream_error_eq {D : Bytes} {a : Args} {r : Raise} (h : parseDelta D a.dst.size = .error r) (p : Port) :
    applyStream D a p = (.raise r, p) := by
  simp only [applyStream, h]

/-- An apply that ends in an error other than BUS changes no byte of DST but one of SCR (60_exceptions.md R204). -/
theorem memRead_failB_of_apply {i : Instr} (hi : i = .applyDelta ∨ i = .mixedDecompress) {s : State} (d : Nat)
    (r : Raise) {x : Nat} (hx : i = .mixedDecompress → s.latch.args.scr.holds x = false) :
    memRead ((s.withDraws d).failB i r).mem x = memRead s.mem x := by
  refine State.memRead_scramble (s.withDraws d) _ ?_
  rcases hi with rfl | rfl
  · rfl
  · exact inSpans_cons.mpr ⟨Region.span_holds_of_outside (hx rfl), rfl⟩

/-- Past phase A, no byte of DST is one of SCR. -/
theorem scr_outside_dst_of_phaseA {a : Args}
    (hphase : phaseA .mixedDecompress (earlyCheckOf .mixedDecompress) a = none) {x : Nat}
    (hx : a.dst.holds x = true) : a.scr.holds x = false := by
  rw [phaseA, Option.or_eq_none_iff, Option.or_eq_none_iff] at hphase
  obtain ⟨_, hoverlap, _⟩ := hphase
  exact checkOverlap_none_iff.mp hoverlap .dst (by decide) .scr (by decide) (by decide) (.inr rfl) x hx

/-- Settles O51: an apply writes nothing but SCR before its records are checked, and DST and SCR are apart by then. -/
theorem frameBufferSurvivesEveryErrorButBus : Obligations.FrameBufferSurvivesEveryErrorButBus := by
  refine ⟨?_, ?_, ?_⟩
  · intro s r hquiet hfit hapart a hr hparse
    have hbody : bodyOf .applyDelta a (s.port false s.draws) = (.raise r, s.port false s.draws) := by
      simp only [bodyOf, applyDeltaBody, State.port_bytesOf hr, applyStream_error_eq hparse]
    obtain ⟨t, hexec, hends, hrest, hmem⟩ := exec_of_raise hquiet (phaseA_none hfit hapart rfl) hbody rfl
    exact ⟨t, hexec, hends, hrest, fun x => hmem x rfl⟩
  · intro s D r hwf hquiet hfit hapart a hr hdec hsw hsr hparse
    have hscr : D.length ≤ a.scr.size := decompressBytes_length hdec
    have hscrfit : a.scr.base + a.scr.size ≤ addrSpace := hfit .scr (by decide)
    have hbody : bodyOf .mixedDecompress a (s.port false s.draws) =
        (.raise r, (s.port false s.draws).withMem (memWriteBytes s.mem a.scr.base D)) := by
      have hdec' : decompressBytes (s.port false s.draws).cfg (regionBytes s a.src0) a.scr.size .scrOverflow = .ok D :=
        hdec
      have hthrough := throughScratch_admitted (p := s.port false s.draws) hwf
        (Nat.le_trans (Nat.add_le_add_left hscr _) hscrfit) hsw hsr
      simp only [bodyOf, mixedDecompressBody, State.port_bytesOf hr, hdec', hthrough]
      exact applyStream_error_eq hparse _
    obtain ⟨t, hexec, hends, hrest, hmem⟩ := exec_of_raise hquiet (phaseA_none hfit hapart rfl) hbody rfl
    exact ⟨t, hexec, hends, hrest, fun x hx => hmem x (inSpans_cons.mpr ⟨Region.span_holds_of_outside hx, rfl⟩)⟩
  · intro i s t hi hquiet hexec hnone hbus x hx hshared
    rcases exec_quiet_cases hquiet hexec with
      ⟨r, _, rfl⟩ | ⟨hphase, ⟨len, aux, q, _, _, rfl⟩ | ⟨r, d, _, rfl⟩ | ⟨y, d, rfl⟩⟩
    · refine s.memRead_failA fun hloses => ?_
      rcases hi with rfl | rfl
      · rfl
      · exact scratchSpans_of_outside (hshared rfl hloses)
    · exact absurd rfl hnone
    · refine memRead_failB_of_apply hi d r ?_
      rintro rfl
      exact scr_outside_dst_of_phaseA hphase hx
    · exact absurd rfl hbus

end Sys2Proof.Machine
end

section
/-! SUPPORT. The delta round trip: the parser gives back the dirty pairs of an encoded stream with their payloads, and a
frame buffer that holds the previous frame holds the current one in RGB once these are in it. -/

namespace Sys2Proof.Machine

/-! ### Parsing a group of an encoded stream (30_encoding.md R76 to R79, 41_delta_stage.md R122) -/

/-- The record of pair `k` of the current frame. -/
def recordOf (C : Bytes) (k : Nat) : Record := (k, payload C k)

/-- What an apply of the stream of two frames of `n` pairs has to scatter. -/
def dirtyRecords (P C : Bytes) (n : Nat) : List Record := (dirtyPairs P C n).map (recordOf C)

theorem mem_dirtyPairs {P C : Bytes} {n k : Nat} : k ∈ dirtyPairs P C n ↔ k < n ∧ dirty P C k = true := by
  rw [dirtyPairs, List.mem_filter, List.mem_range]

/-- The pairs that a header names are the flagged pairs of its group. -/
theorem pendOf_groupHeader (P C : Bytes) (n g : Nat) :
    pendOf (groupHeader P C n g) (8 * g) = groupPairsOf P C n g := by
  rw [pendOf, groupPairsOf, List.filter_map]
  refine congrArg _ (List.filter_congr fun i hi => ?_)
  exact getLsbD_groupHeader P C n g (List.mem_range.mp hi)

theorem lt_of_mem_groupPairsOf {P C : Bytes} {n g k : Nat} (h : k ∈ groupPairsOf P C n g) : k < n := by
  have hflagged : flagged P C n k = true := (List.mem_filter.mp h).2
  by_contra hpast
  rw [flagged_of_le (Nat.le_of_not_lt hpast)] at hflagged
  cases hflagged

/-- The parser finds the payloads of its pending pairs one after another, and leaves the rest of the stream. -/
theorem groupRecords_payloads {D C rest : Bytes} {cap hpos c : Nat} {ks : List Nat}
    (h : D.drop c = ks.flatMap (payload C) ++ rest) (hcap : ∀ k ∈ ks, 8 * k + 8 ≤ cap) :
    ∃ c', groupRecords D cap hpos ks c = .ok (ks.map (recordOf C), c') ∧ D.drop c' = rest := by
  induction ks generalizing c with
  | nil => exact ⟨c, rfl, h⟩
  | cons k ks ih =>
    rw [List.forall_mem_cons] at hcap
    obtain ⟨hk, hks⟩ := hcap
    rw [List.flatMap_cons, List.append_assoc] at h
    have hpayload : (D.drop c).take 6 = payload C k := by rw [h]; exact List.take_left' rfl
    have hdrop : D.drop (c + 6) = ks.flatMap (payload C) ++ rest := by
      rw [← List.drop_drop, h]
      exact List.drop_left' rfl
    have hroom : ¬ D.length < c + 6 := by
      have hlen := congrArg List.length h
      rw [List.length_drop, List.length_append, show (payload C k).length = 6 from rfl] at hlen
      omega
    obtain ⟨c', hrest, hdrop'⟩ := ih hdrop hks
    refine ⟨c', ?_, hdrop'⟩
    rw [groupRecords, if_neg hroom, if_neg (Nat.not_lt.mpr hk), hrest]
    simp only [hpayload, List.map_cons, recordOf, payloadBytes]

/-- A stream that goes on with a byte has it at the read cursor. -/
theorem of_drop_eq_cons {D rest : Bytes} {c : Nat} {b : Byte} (h : D.drop c = b :: rest) :
    c < D.length ∧ byteAt D c = b ∧ D.drop (c + 1) = rest := by
  refine ⟨Nat.lt_of_not_le fun hend => ?_, ?_, ?_⟩
  · rw [List.drop_eq_nil_of_le hend] at h
    cases h
  · rw [byteAt, List.getD_eq_getElem?_getD, ← List.head?_drop, h]
    rfl
  · rw [← List.tail_drop, h]
    rfl

/-- From the header of group `g` on, the parser gives the records of the groups that are left. -/
theorem parseGroups_groups {D P C : Bytes} {n cap m fuel c g : Nat}
    (h : D.drop c = (List.range' g m).flatMap (groupBytes P C n)) (hfuel : m ≤ fuel) (hcap : 8 * n ≤ cap) :
    parseGroups D cap fuel c (8 * g) =
      .ok ((List.range' g m).flatMap fun g => (groupPairsOf P C n g).map (recordOf C)) := by
  induction m generalizing fuel c g with
  | zero =>
    have hend : ¬ c < D.length := Nat.not_lt.mpr (List.drop_eq_nil_iff.mp h)
    cases fuel with
    | zero => rfl
    | succ fuel => rw [parseGroups, if_neg hend]; rfl
  | succ m ih =>
    cases fuel with
    | zero => omega
    | succ fuel =>
      rw [List.range'_succ, List.flatMap_cons, groupBytes, List.cons_append] at h
      obtain ⟨hlt, hheader, hpayloads⟩ := of_drop_eq_cons h
      have hpairs : ∀ k ∈ groupPairsOf P C n g, 8 * k + 8 ≤ cap := fun k hk => by
        have := lt_of_mem_groupPairsOf hk
        omega
      obtain ⟨c', hgroup, hrest⟩ := groupRecords_payloads hpayloads hpairs
      have hmore := ih (g := g + 1) hrest (Nat.le_of_succ_le_succ hfuel)
      rw [parseGroups, if_pos hlt, hheader, pendOf_groupHeader, hgroup]
      simp only [groupPairs, ← Nat.mul_succ, hmore, List.range'_succ, List.flatMap_cons]

/-- The parser accepts an encoded stream and gives its dirty pairs with their payloads. -/
theorem parseDelta_encodeDelta {P C : Bytes} {n cap : Nat} (hP : P.length = 8 * n) (hC : C.length = 8 * n)
    (hcap : 8 * n ≤ cap) : parseDelta (encodeDelta P C).1 cap = .ok (dirtyRecords P C n) := by
  have hlen : ceilDiv n 8 ≤ (encodeDelta P C).1.length := by
    obtain ⟨hlen, _⟩ := encodedStreamLength P C n hP hC
    omega
  have hstream : (encodeDelta P C).1.drop 0 = (List.range' 0 (ceilDiv n 8)).flatMap (groupBytes P C n) := by
    rw [encodedStreamIsItsGroups P C n hP hC, List.drop_zero, List.range_eq_range']
  have hparse := parseGroups_groups hstream hlen hcap
  rwa [← List.range_eq_range', ← List.map_flatMap, ← dirtyPairs_eq_groups] at hparse

/-! ### The current frame in the buffer (41_delta_stage.md R130) -/

/-- The bytes that the dirty records write are the RGB bytes of the dirty pairs. -/
theorem inRecords_dirtyRecords {P C : Bytes} {n a x : Nat} :
    InRecords a (dirtyRecords P C n) x ↔
      ∃ k, (k < n ∧ dirty P C k = true) ∧ ∃ j ∈ rgbOffsets, x = a + 8 * k + j := by
  constructor
  · rintro ⟨r, hr, hx⟩
    obtain ⟨k, hk, rfl⟩ := List.mem_map.mp hr
    exact ⟨k, mem_dirtyPairs.mp hk, hx⟩
  · rintro ⟨k, hk, hx⟩
    exact ⟨recordOf C k, List.mem_map_of_mem (mem_dirtyPairs.mpr hk), hx⟩

theorem rgbOffset_lt {j : Nat} (h : j ∈ rgbOffsets) : j < 8 := by
  revert j
  decide

/-- No record writes an alpha byte. -/
theorem alpha_not_inRecords {P C : Bytes} {n a x : Nat} (h : x % 4 = 3) :
    ¬ InRecords a (dirtyRecords P C n) (a + x) := by
  rw [inRecords_dirtyRecords]
  rintro ⟨k, _, j, hj, heq⟩
  have := rgbOffset_not_alpha (k := k) hj
  rw [pairBytes] at this
  omega

/-- No record writes a byte outside the frame. -/
theorem outside_not_inRecords {P C : Bytes} {n a y : Nat} (h : y < a ∨ a + 8 * n ≤ y) :
    ¬ InRecords a (dirtyRecords P C n) y := by
  rw [inRecords_dirtyRecords]
  rintro ⟨k, ⟨hk, _⟩, j, hj, rfl⟩
  have := rgbOffset_lt hj
  omega

/-- A pair that holds its payload holds the RGB bytes of the current frame. -/
theorem memRead_of_pairHolds {m : List Host.Cell} {C : Bytes} {a k j : Nat} (h : PairHolds m a k (payload C k))
    (hj : j ∈ rgbOffsets) : memRead m (a + 8 * k + j) = byteAt C (8 * k + j) := by
  obtain ⟨h0, h1, h2, h4, h5, h6⟩ := h
  simp only [rgbOffsets, List.mem_cons, List.not_mem_nil, or_false] at hj
  rcases hj with rfl | rfl | rfl | rfl | rfl | rfl
  · exact h0
  · exact h1
  · exact h2
  · exact h4
  · exact h5
  · exact h6

/-- Every offset into a frame but alpha is an RGB byte of its pair. -/
theorem rgbOffset_of_not_alpha {x : Nat} (h : x % 4 ≠ 3) : x % 8 ∈ rgbOffsets := by
  simp only [rgbOffsets, List.mem_cons, List.not_mem_nil, or_false]
  omega

/-- An RGB byte of the buffer is that of the current frame where the dirty pairs hold their payloads and a byte that no
record writes is that of the previous frame. -/
theorem memRead_rgb_of_dirtyRecords {m : List Host.Cell} {P C : Bytes} {n a x : Nat} (hx : x < 8 * n)
    (hrgb : x % 4 ≠ 3) (hpairs : ∀ r ∈ dirtyRecords P C n, PairHolds m a r.1 r.2)
    (hkept : ¬ InRecords a (dirtyRecords P C n) (a + x) → memRead m (a + x) = byteAt P x) :
    memRead m (a + x) = byteAt C x := by
  have hj := rgbOffset_of_not_alpha hrgb
  have hsplit : 8 * (x / 8) + x % 8 = x := Nat.div_add_mod x 8
  cases hd : dirty P C (x / 8) with
  | true =>
    have hmem : x / 8 ∈ dirtyPairs P C n := mem_dirtyPairs.mpr ⟨by omega, hd⟩
    have hread := memRead_of_pairHolds (k := x / 8) (hpairs _ (List.mem_map_of_mem hmem)) hj
    rwa [Nat.add_assoc, hsplit] at hread
  | false =>
    have hsame := dirty_eq_false_iff.mp hd _ hj
    rw [pairBytes, hsplit] at hsame
    rw [← hsame]
    refine hkept fun hin => ?_
    obtain ⟨k, ⟨_, hk⟩, j, hj', heq⟩ := inRecords_dirtyRecords.mp hin
    have := rgbOffset_lt hj'
    rw [show k = x / 8 by omega, hd] at hk
    cases hk

/-! ### The two commands, one after the other -/

/-- Where phase A of a command that takes frames passes, the frames match. -/
theorem framesMatch_of_phaseA {i : Instr} {a : Args} (hearly : earlyCheckOf i = geometryCheck)
    (hphase : phaseA i (earlyCheckOf i) a = none) : FramesMatch a := by
  rw [phaseA, Option.or_eq_none_iff, Option.or_eq_none_iff, hearly] at hphase
  obtain ⟨_, _, hgeometry⟩ := hphase
  by_contra hmismatch
  cases (geometryCheck_some hmismatch).symm.trans hgeometry

/-- An ENCODE_DELTA that succeeds had two frames of one length and whole pairs, and left their stream in DST. -/
theorem encodeDelta_success {s t : State} (hwf : memWf s.mem = true) (hquiet : Quiet .encodeDelta s)
    (hexec : exec .encodeDelta s = .next t) (hok : t.err = .none) :
    let a := s.latch.args
    let D := encodeDelta (regionBytes s a.src0) (regionBytes s a.src1)
    FramesMatch a ∧ t.resultAux = BitVec.ofNat 64 D.2 ∧ memBytes t.mem a.dst.base t.resultLen.toNat = D.1 := by
  intro a D
  obtain ⟨hphase, len, aux, q, hbody, _, ht⟩ := exec_success hquiet hexec hok
  have hmem : t.mem = q.mem := by rw [ht]; rfl
  have hlen : t.resultLen = BitVec.ofNat 64 len := by rw [ht]; rfl
  have haux : t.resultAux = BitVec.ofNat 64 aux := by rw [ht]; rfl
  obtain ⟨hkept, _, hlossy⟩ := gatherDelta_kept a (s.port false s.draws)
  have hgather : (gatherDelta a (s.port false s.draws)).1 = D := gatherDelta_plain rfl a
  replace hbody : encodeDeltaBody a (s.port false s.draws) = (.finish len aux, q) := hbody
  simp only [encodeDeltaBody, hgather] at hbody
  split at hbody
  · cases hbody
  · next hfits =>
    cases hbody
    replace hfits : D.1.length ≤ a.dst.size := Nat.le_of_not_lt hfits
    have hdst : a.dst.base + a.dst.size ≤ addrSpace := fits_of_phaseA hphase .dst (by decide)
    have hD : a.dst.base + D.1.length ≤ addrSpace := Nat.le_trans (Nat.add_le_add_left hfits _) hdst
    have hword : D.1.length < 2 ^ 64 := hfits.trans_lt a.dst.len.isLt
    refine ⟨framesMatch_of_phaseA rfl hphase, haux, ?_⟩
    rw [hlen, BitVec.toNat_ofNat, Nat.mod_eq_of_lt hword, hmem, Port.write_plain hlossy, hkept]
    exact memBytes_eq_of_reads (holds_memWriteBytes hwf hD)

theorem byteAt_memBytes {m : List Host.Cell} {a n x : Nat} (h : x < n) :
    byteAt (memBytes m a n) x = memRead m (a + x) :=
  memBytes_getD h 0

/-- Settles O59: the records of the stream are the dirty pairs of the frames, whose other pairs are as they were. -/
theorem deltaRoundTrip : Obligations.DeltaRoundTrip := by
  intro s t u hwf hwf' hquiet hexec hok hquiet' hfit hapart hadmit a b hstream hroom hprevious
  obtain ⟨⟨hsize, hwhole⟩, haux, hleft⟩ := encodeDelta_success hwf hquiet hexec hok
  obtain ⟨n, hn⟩ : ∃ n, a.src0.size = 8 * n := Nat.dvd_of_mod_eq_zero hwhole
  have hP : (regionBytes s a.src0).length = 8 * n := (memBytes_length _ _ _).trans hn
  have hC : (regionBytes s a.src1).length = 8 * n := (memBytes_length _ _ _).trans (hsize.symm.trans hn)
  have hparse : parseDelta (regionBytes u b.src0) b.dst.size =
      .ok (dirtyRecords (regionBytes s a.src0) (regionBytes s a.src1) n) := by
    rw [hstream, hleft]
    exact parseDelta_encodeDelta hP hC (hn ▸ hroom)
  have hreads : Admitted u.cfg .read b.src0.base b.src0.size := fun x hlo hhi =>
    (hadmit .src0 (by decide) x (Region.holds_iff.mpr ⟨hlo, hhi⟩)).1
  have hwrites : ∀ x, InRecords b.dst.base (dirtyRecords (regionBytes s a.src0) (regionBytes s a.src1) n) x →
      admits u.cfg .write x = true := fun x hx => by
    have hin : b.dst.base ≤ x ∧ x < b.dst.base + 8 * n := by
      by_contra hout
      exact outside_not_inRecords (by omega) hx
    have hend : x < b.dst.base + b.dst.size := hin.2.trans_le (Nat.add_le_add_left (hn ▸ hroom) _)
    exact (hadmit .dst (by decide) x (Region.holds_iff.mpr ⟨hin.1, hend⟩)).2
  obtain ⟨v, hexec', ⟨_, _, herr, _, haux', _⟩, _, hpairs, hkept⟩ :=
    applyDeltaWritesTheRecords u _ hwf' hquiet' hfit hapart hreads hparse hwrites
  have hbefore : ∀ x, x < a.src0.size →
      memRead u.mem (b.dst.base + x) = byteAt (regionBytes s a.src0) x := fun x hx => by
    rw [← hprevious, byteAt_memBytes hx]
  refine ⟨v, hexec', herr, ?_, fun x hx hrgb => ?_, fun x hx halpha => ?_, fun y hy => ?_⟩
  · rw [haux', haux, dirtyRecords, List.length_map, encodedStreamIsItsGroups _ _ n hP hC]
  · rw [memRead_rgb_of_dirtyRecords (hn ▸ hx) hrgb hpairs fun hout => (hkept _ hout).trans (hbefore x hx)]
    exact byteAt_memBytes (hsize ▸ hx)
  · rw [hkept _ (alpha_not_inRecords halpha), hbefore x hx]
    exact byteAt_memBytes hx
  · exact hkept y (outside_not_inRecords (hn ▸ hy))

end Sys2Proof.Machine
end

section
/-! SUPPORT. The default codec: the decoder gives a result exactly where its input is a block of sequences that gives
it, and gives back what LIT_ENC was given. -/

namespace Sys2Proof.Machine

/-! ### Lengths (42_entropy_stage.md R161, R164) -/

/-- A run of 255 and one other byte are all added to the length. -/
theorem lz4Extend_run {e : Byte} (he : e ≠ 255#8) (m n : Nat) (rest : Bytes) :
    lz4Extend (List.replicate m 255#8 ++ e :: rest) n = some (n + 255 * m + e.toNat, rest) := by
  induction m generalizing n with
  | zero => exact if_neg he
  | succ m ih =>
    rw [List.replicate_succ, List.cons_append, lz4Extend, if_pos rfl, ih]
    congr 2
    omega

/-- The bytes that extend a length are a run of 255 and one other byte. -/
theorem exists_run_of_lz4Extend {B rest : Bytes} {n k : Nat} (h : lz4Extend B n = some (k, rest)) :
    ∃ (m : Nat) (e : Byte), e ≠ 255#8 ∧ B = List.replicate m 255#8 ++ e :: rest ∧ k = n + 255 * m + e.toNat := by
  induction B generalizing n with
  | nil => cases h
  | cons b B ih =>
    rw [lz4Extend] at h
    split at h
    · next hb =>
      obtain ⟨m, e, he, rfl, rfl⟩ := ih h
      exact ⟨m + 1, e, he, by rw [hb, List.replicate_succ, List.cons_append], by omega⟩
    · next hb =>
      cases h
      exact ⟨0, b, hb, rfl, by omega⟩

/-- A decoder that meets the bytes of a length reads it and goes on after them. -/
theorem lz4Length_of_run {nibble n : Nat} {ext : Bytes} (h : LengthRun nibble ext n) (rest : Bytes) :
    lz4Length nibble (ext ++ rest) = some (n, rest) := by
  rcases h with ⟨hlt, rfl, rfl⟩ | ⟨rfl, m, e, he, rfl, rfl⟩
  · exact if_neg (Nat.ne_of_lt hlt)
  · rw [lz4Length, if_pos rfl, List.append_assoc, List.singleton_append, lz4Extend_run he]

/-- A length is read only from its bytes. -/
theorem exists_run_of_lz4Length {nibble n : Nat} {B rest : Bytes} (hnibble : nibble < 16)
    (h : lz4Length nibble B = some (n, rest)) : ∃ ext, B = ext ++ rest ∧ LengthRun nibble ext n := by
  rw [lz4Length] at h
  split at h
  · next hfull =>
    obtain ⟨m, e, he, rfl, rfl⟩ := exists_run_of_lz4Extend h
    exact ⟨List.replicate m 255#8 ++ [e], by rw [List.append_assoc, List.singleton_append],
      .inr ⟨hfull, m, e, he, rfl, rfl⟩⟩
  · next hpart =>
    cases h
    exact ⟨[], rfl, .inl ⟨by omega, rfl, rfl⟩⟩

theorem highNibble_lt (t : Byte) : t.toNat / 16 < 16 := by have := t.isLt; omega

theorem lowNibble_lt (t : Byte) : t.toNat % 16 < 16 := Nat.mod_lt _ (by decide)

/-! ### The match copy (42_entropy_stage.md R165) -/

theorem byteAt_append_left {a b : Bytes} {j : Nat} (h : j < a.length) : byteAt (a ++ b) j = byteAt a j :=
  List.getD_append a b 0 j h

theorem byteAt_append_length (a : Bytes) (b : Byte) (s : Bytes) : byteAt (a ++ b :: s) a.length = b := by
  rw [byteAt, List.getD_append_right _ _ _ _ le_rfl, Nat.sub_self, List.getD_cons_zero]

/-- A copied output is the output so far with the copied bytes after it. -/
theorem copiedBack_iff {off n : Nat} {out out' : Bytes} :
    CopiedBack off n out out' ↔ ∃ s : Bytes, out' = out ++ s ∧ s.length = n ∧
      ∀ j, out.length ≤ j → j < out.length + n → byteAt out' j = byteAt out' (j - off) := by
  constructor
  · rintro ⟨hlen, hprefix, hbytes⟩
    refine ⟨out'.drop out.length, ?_, ?_, hlen ▸ hbytes⟩
    · conv_rhs => rw [← hprefix, List.length_take, Nat.min_eq_left (by omega), List.take_append_drop]
    · rw [List.length_drop]
      omega
  · rintro ⟨s, rfl, rfl, hbytes⟩
    exact ⟨List.length_append, List.take_left, List.length_append ▸ hbytes⟩

/-- A copy of one byte more is one byte from `off` back, then the copy of the others. -/
theorem copiedBack_succ {off n : Nat} {out out' : Bytes} (hpos : 1 ≤ off) (hle : off ≤ out.length) :
    CopiedBack off (n + 1) out out' ↔ CopiedBack off n (out ++ [byteAt out (out.length - off)]) out' := by
  have hback (s : Bytes) : byteAt (out ++ s) (out.length - off) = byteAt out (out.length - off) :=
    byteAt_append_left (by omega)
  simp only [copiedBack_iff, List.length_append, List.length_singleton]
  constructor
  · rintro ⟨_ | ⟨b, s⟩, rfl, hlen, hbytes⟩
    · cases hlen
    · have hfirst : b = byteAt out (out.length - off) := by
        rw [← hback (b :: s), ← hbytes out.length le_rfl (by omega), byteAt_append_length]
      exact ⟨s, by rw [← hfirst, List.append_assoc, List.singleton_append], Nat.succ.inj hlen,
        fun j hlo hhi => hbytes j (by omega) (by omega)⟩
  · rintro ⟨s, hout, hlen, hbytes⟩
    rw [List.append_assoc, List.singleton_append] at hout
    refine ⟨_ :: s, hout, congrArg Nat.succ hlen, fun j hlo hhi => ?_⟩
    rcases Nat.eq_or_lt_of_le hlo with rfl | hlt
    · rw [hout, byteAt_append_length, hback]
    · exact hbytes j hlt (by omega)

/-- The copy loop gives the one output that is copied back. -/
theorem lz4Copy_eq_iff {off n : Nat} {out out' : Bytes} (hpos : 1 ≤ off) (hle : off ≤ out.length) :
    lz4Copy off n out = out' ↔ CopiedBack off n out out' := by
  induction n generalizing out with
  | zero =>
    rw [copiedBack_iff, lz4Copy]
    constructor
    · rintro rfl
      exact ⟨[], (List.append_nil _).symm, rfl, fun j hlo hhi => by omega⟩
    · rintro ⟨s, rfl, hlen, _⟩
      rw [List.eq_nil_of_length_eq_zero hlen, List.append_nil]
  | succ n ih =>
    rw [lz4Copy, copiedBack_succ hpos hle]
    exact ih (by rw [List.length_append]; omega)

/-! ### One sequence (42_entropy_stage.md R160 to R166) -/

/-- Literals that the input holds and the output has room for are moved from one to the other. -/
theorem lz4Literals_append (L : Nat) (lits rest out : Bytes) :
    lz4Literals L lits.length (lits ++ rest) out =
      if L < out.length + lits.length then none else some (out ++ lits, rest) := by
  have henough : ¬ (lits ++ rest).length < lits.length := by rw [List.length_append]; omega
  rw [lz4Literals, if_neg henough, List.take_left, List.drop_left]

/-- The literals are the first bytes of the input. -/
theorem exists_lits_of_lz4Literals {L lit : Nat} {B rest out out' : Bytes}
    (h : lz4Literals L lit B out = some (out', rest)) :
    ∃ lits : Bytes, lits.length = lit ∧ B = lits ++ rest := by
  rw [lz4Literals] at h
  split at h
  · cases h
  · next henough =>
    split at h
    · cases h
    · cases h
      exact ⟨B.take lit, by rw [List.length_take]; omega, (List.take_append_drop lit B).symm⟩

/-- A match is two offset bytes, an offset into the output so far, the bytes of its length, and a copy that keeps to the
declared length. -/
theorem lz4Match_eq_some_iff {L nibble : Nat} (hnibble : nibble < 16) {B rest out out' : Bytes} :
    lz4Match L nibble B out = some (out', rest) ↔
      ∃ (o0 o1 : Byte) (ext : Bytes) (ml : Nat), B = o0 :: o1 :: (ext ++ rest) ∧
        1 ≤ o0.toNat + 256 * o1.toNat ∧ o0.toNat + 256 * o1.toNat ≤ out.length ∧ LengthRun nibble ext ml ∧
        out.length + (ml + 4) ≤ L ∧ CopiedBack (o0.toNat + 256 * o1.toNat) (ml + 4) out out' := by
  constructor
  · intro h
    rcases B with _ | ⟨o0, _ | ⟨o1, B⟩⟩
    · cases h
    · cases h
    · simp only [lz4Match] at h
      split at h
      · cases h
      · next hoff =>
        cases hlen : lz4Length nibble B with
        | none => rw [hlen] at h; cases h
        | some q =>
          obtain ⟨ml, B'⟩ := q
          simp only [hlen] at h
          split at h
          · cases h
          · next hroom =>
            cases h
            obtain ⟨ext, rfl, hrun⟩ := exists_run_of_lz4Length hnibble hlen
            have hpos : 1 ≤ o0.toNat + 256 * o1.toNat := by omega
            have hle : o0.toNat + 256 * o1.toNat ≤ out.length := by omega
            exact ⟨o0, o1, ext, ml, rfl, hpos, hle, hrun, Nat.le_of_not_lt hroom, (lz4Copy_eq_iff hpos hle).mp rfl⟩
  · rintro ⟨o0, o1, ext, ml, rfl, hpos, hle, hrun, hroom, hcopy⟩
    have hoff : ¬ (o0.toNat + 256 * o1.toNat = 0 ∨ out.length < o0.toNat + 256 * o1.toNat) := by omega
    simp only [lz4Match, if_neg hoff, lz4Length_of_run hrun, if_neg (Nat.not_lt.mpr hroom),
      (lz4Copy_eq_iff hpos hle).mpr hcopy]

/-- What a decoder does with a token, its length bytes and its literals: it fails where the output would pass the
declared length, ends where the input ends, and goes on after the match that must follow elsewhere. -/
theorem lz4Sequences_token {L fuel : Nat} {t : Byte} {ext lits : Bytes}
    (hrun : LengthRun (t.toNat / 16) ext lits.length) (tail out : Bytes) :
    lz4Sequences L (fuel + 1) (t :: (ext ++ lits ++ tail)) out =
      if L < out.length + lits.length then none
      else if tail = [] then some (out ++ lits)
      else (lz4Match L (t.toNat % 16) tail (out ++ lits)).bind fun q => lz4Sequences L fuel q.2 q.1 := by
  simp only [lz4Sequences, List.append_assoc, lz4Length_of_run hrun, lz4Literals_append]
  by_cases hroom : L < out.length + lits.length
  · simp only [if_pos hroom]
  · simp only [if_neg hroom]
    cases lz4Match L (t.toNat % 16) tail (out ++ lits) <;> rfl

/-- A decoder that does not fail has read a token, its length bytes and its literals. -/
theorem exists_token_of_lz4Sequences {L fuel : Nat} {B out r : Bytes} (h : lz4Sequences L fuel B out = some r) :
    ∃ (n : Nat) (t : Byte) (ext lits tail : Bytes), fuel = n + 1 ∧ B = t :: (ext ++ lits ++ tail) ∧
      LengthRun (t.toNat / 16) ext lits.length := by
  rcases fuel with _ | n
  · cases h
  rcases B with _ | ⟨t, B⟩
  · cases h
  rw [lz4Sequences] at h
  cases hlen : lz4Length (t.toNat / 16) B with
  | none => rw [hlen] at h; cases h
  | some q =>
    obtain ⟨lit, B'⟩ := q
    obtain ⟨ext, rfl, hrun⟩ := exists_run_of_lz4Length (highNibble_lt t) hlen
    cases hlits : lz4Literals L lit B' out with
    | none => simp only [hlen, hlits] at h; cases h
    | some q =>
      obtain ⟨lits, rfl, rfl⟩ := exists_lits_of_lz4Literals hlits
      exact ⟨n, t, ext, lits, q.2, rfl, by rw [List.append_assoc], hrun⟩

/-! ### Blocks (42_entropy_stage.md R160) -/

/-- What the decoder accepts is a block of sequences. -/
theorem lz4Block_of_lz4Sequences {L fuel : Nat} {B out r : Bytes} (h : lz4Sequences L fuel B out = some r) :
    Lz4Block L B out r := by
  induction fuel generalizing B out with
  | zero => cases h
  | succ fuel ih =>
    obtain ⟨_, t, ext, lits, tail, hfuel, rfl, hrun⟩ := exists_token_of_lz4Sequences h
    cases hfuel
    rw [lz4Sequences_token hrun] at h
    split at h
    · cases h
    · next hroom =>
      have hroom := Nat.le_of_not_lt hroom
      split at h
      · next htail =>
        cases h
        rw [htail, List.append_nil]
        exact .last t ext lits out hrun hroom
      · obtain ⟨⟨out', rest⟩, hmatch, hrest⟩ := Option.bind_eq_some_iff.mp h
        obtain ⟨o0, o1, ext', ml, rfl, hpos, hle, hrun', hroom', hcopy⟩ :=
          (lz4Match_eq_some_iff (lowNibble_lt t)).mp hmatch
        rw [List.length_append] at hle hroom'
        exact .more t ext lits out o0 o1 ext' rest out' r ml hrun hroom hpos hle hrun' hroom' hcopy (ih hrest)

/-- The decoder accepts a block of sequences, in one round for each token. -/
theorem lz4Sequences_of_lz4Block {L : Nat} {B out r : Bytes} (h : Lz4Block L B out r) {fuel : Nat}
    (hfuel : B.length < fuel) : lz4Sequences L fuel B out = some r := by
  induction h generalizing fuel with
  | last t ext lits out hrun hroom =>
    cases fuel with
    | zero => cases hfuel
    | succ fuel =>
      rw [← List.append_nil (ext ++ lits), lz4Sequences_token hrun, if_neg (Nat.not_lt.mpr hroom), if_pos rfl]
  | more t ext lits out o0 o1 ext' rest out' r ml hrun hroom hpos hle hrun' hroom' hcopy _ ih =>
    cases fuel with
    | zero => cases hfuel
    | succ fuel =>
      have hmatch : lz4Match L (t.toNat % 16) (o0 :: o1 :: (ext' ++ rest)) (out ++ lits) = some (out', rest) :=
        (lz4Match_eq_some_iff (lowNibble_lt t)).mpr
          ⟨o0, o1, ext', ml, rfl, hpos, by rwa [List.length_append], hrun', by rwa [List.length_append], hcopy⟩
      rw [lz4Sequences_token hrun, if_neg (Nat.not_lt.mpr hroom), if_neg (List.cons_ne_nil _ _), hmatch,
        Option.bind_some]
      refine ih ?_
      simp only [List.length_cons, List.length_append] at hfuel
      omega

theorem lz4Decode_eq_some_iff {L : Nat} {B r : Bytes} : lz4Decode B L = some r ↔ Lz4Block L B [] r :=
  ⟨lz4Block_of_lz4Sequences, fun h => lz4Sequences_of_lz4Block h (Nat.lt_succ_self _)⟩

/-- The result of a block is within the declared length (42_entropy_stage.md R166). -/
theorem Lz4Block.length_le {L : Nat} {B out r : Bytes} (h : Lz4Block L B out r) : r.length ≤ L := by
  induction h with
  | last t ext lits out _ hroom => rwa [List.length_append]
  | more _ _ _ _ _ _ _ _ _ _ _ _ _ _ _ _ _ _ _ ih => exact ih

/-! ### Blocks that fail (42_entropy_stage.md R160, R163) -/

/-- A decoder fails where what follows the first literals is no match, or is a match that leaves no input. -/
theorem lz4Decode_eq_none_of_match {L : Nat} {t : Byte} {ext lits tail : Bytes}
    (hrun : LengthRun (t.toNat / 16) ext lits.length) (htail : tail ≠ [])
    (hmatch : ∀ out' rest, lz4Match L (t.toNat % 16) tail lits = some (out', rest) → rest = []) :
    lz4Decode (t :: (ext ++ lits ++ tail)) L = none := by
  rw [lz4Decode, lz4Sequences_token hrun, List.nil_append, if_neg htail]
  split
  · rfl
  · rw [Option.bind_eq_none_iff]
    rintro ⟨out', rest⟩ hsome
    obtain rfl := hmatch out' rest hsome
    rfl

theorem lz4Match_single (L nibble : Nat) (b : Byte) (out : Bytes) : lz4Match L nibble [b] out = none := rfl

theorem lz4Match_badOffset {nibble : Nat} {o0 o1 : Byte} {out : Bytes}
    (h : o0.toNat + 256 * o1.toNat = 0 ∨ out.length < o0.toNat + 256 * o1.toNat) (L : Nat) (rest : Bytes) :
    lz4Match L nibble (o0 :: o1 :: rest) out = none :=
  if_pos h

/-- After the bytes of its length, a match leaves the rest of the input. -/
theorem rest_of_lz4Match {L nibble ml : Nat} {o0 o1 : Byte} {ext rest rest' out out' : Bytes}
    (hrun : LengthRun nibble ext ml) (h : lz4Match L nibble (o0 :: o1 :: (ext ++ rest)) out = some (out', rest')) :
    rest' = rest := by
  simp only [lz4Match, lz4Length_of_run hrun] at h
  split at h
  · cases h
  · split at h
    · cases h
    · cases h
      rfl

/-! ### The fitted decoder (42_entropy_stage.md R153) -/

theorem entropyDecode_default {c : Config} (h : c.codecId = 1) (E : Bytes) (L : Nat) :
    entropyDecode c E L = lz4Decode E L :=
  if_pos h

theorem entropyDecode_other {c : Config} (h : c.codecId ≠ 1) (E : Bytes) (L : Nat) :
    entropyDecode c E L = (fittedCodec c.codecId).decode E L :=
  if_neg h

theorem entropyDecode_length {c : Config} {E r : Bytes} {L : Nat} (h : entropyDecode c E L = some r) :
    r.length ≤ L := by
  by_cases hid : c.codecId = 1
  · rw [entropyDecode_default hid] at h
    exact (lz4Decode_eq_some_iff.mp h).length_le
  · rw [entropyDecode_other hid] at h
    exact (fittedCodec c.codecId).bounded E L r h

/-- Settles O57: the rounds of the decoder are the sequences of the block. -/
theorem decoderStaysWithinTheDeclaredLength : Obligations.DecoderStaysWithinTheDeclaredLength := by
  refine fun c E L => ⟨fun r => entropyDecode_length, fun hid r => ?_, fun hid => ?_⟩
  · rw [entropyDecode_default hid, lz4Decode_eq_some_iff]
  · simp only [entropyDecode_default hid]
    refine ⟨rfl, fun t ext lits hrun => ⟨fun b => ?_, fun o0 o1 rest hoff => ?_, fun o0 o1 ext' ml hrun' => ?_⟩⟩
    · refine lz4Decode_eq_none_of_match hrun (List.cons_ne_nil _ _) fun out' rest hsome => ?_
      cases (lz4Match_single _ _ _ _).symm.trans hsome
    · refine lz4Decode_eq_none_of_match hrun (List.cons_ne_nil _ _) fun out' rest' hsome => ?_
      cases (lz4Match_badOffset hoff _ _).symm.trans hsome
    · refine lz4Decode_eq_none_of_match hrun (List.cons_ne_nil _ _) fun out' rest hsome => ?_
      rw [← List.append_nil ext'] at hsome
      exact rest_of_lz4Match hrun' hsome

end Sys2Proof.Machine
end

section
/-! SUPPORT. The round trips of the codec and of the wrapper. -/

namespace Sys2Proof.Machine

/-! ### LIT_ENC (42_entropy_stage.md R157) -/

/-- LIT_ENC writes one sequence: a token, the bytes of the length, and the input as literals. -/
theorem litEnc_eq_sequence (X : Bytes) :
    ∃ (t : Byte) (ext : Bytes), litEnc X = t :: (ext ++ X) ∧ LengthRun (t.toNat / 16) ext X.length := by
  by_cases hshort : X.length < 15
  · have hnibble : (BitVec.ofNat 8 (X.length * 16)).toNat / 16 = X.length := by
      rw [BitVec.toNat_ofNat]
      omega
    exact ⟨_, [], if_pos hshort, .inl ⟨hnibble.trans_lt hshort, rfl, hnibble.symm⟩⟩
  · have hlast : (BitVec.ofNat 8 ((X.length - 15) % 255)).toNat = (X.length - 15) % 255 := by
      rw [BitVec.toNat_ofNat]
      omega
    have hne : BitVec.ofNat 8 ((X.length - 15) % 255) ≠ 255#8 := fun heq => by
      have : (X.length - 15) % 255 = 255 := hlast.symm.trans (congrArg BitVec.toNat heq)
      omega
    refine ⟨0xF0#8, List.replicate ((X.length - 15) / 255) 255#8 ++ [BitVec.ofNat 8 ((X.length - 15) % 255)], ?_,
      .inr ⟨rfl, _, _, hne, rfl, ?_⟩⟩
    · rw [List.append_assoc, List.singleton_append]
      exact if_neg hshort
    · rw [hlast]
      omega

theorem lz4Decode_litEnc (X : Bytes) : lz4Decode (litEnc X) X.length = some X := by
  obtain ⟨t, ext, hseq, hrun⟩ := litEnc_eq_sequence X
  rw [hseq, lz4Decode_eq_some_iff]
  exact .last t ext X [] hrun (Nat.zero_add _).le

/-! ### The codec (42_entropy_stage.md R152) -/

/-- Whatever the unknown encoder does, it is used only where its output decodes. -/
theorem lz4Decode_lawfulEncode (f : Bytes → Bytes) (X : Bytes) :
    lz4Decode (lawfulEncode f X) X.length = some X := by
  unfold lawfulEncode
  split
  · next hlaw => exact hlaw
  · exact lz4Decode_litEnc X

/-- Settles O56: LIT_ENC, the unknown encoder and every other codec obey the law. -/
theorem codecRoundTrip : Obligations.CodecRoundTrip := by
  intro c X
  by_cases hid : c.codecId = 1
  · rw [entropyDecode_default hid, entropyEncode, if_pos hid]
    cases c.encoder with
    | litEnc => exact lz4Decode_litEnc X
    | fitted => exact lz4Decode_lawfulEncode _ X
  · rw [entropyDecode_other hid, entropyEncode, if_neg hid]
    exact (fittedCodec c.codecId).roundTrip X

/-! ### The wrapper (42_entropy_stage.md R151) -/

/-- Where the length bytes give a length that the buffer holds, and the decoder gives so many bytes, the result
is these. -/
theorem decompressBytes_ok {c : Config} {Y X : Bytes} {cap : Nat} (ovf : ErrCode) (hprefix : 4 ≤ Y.length)
    (hlen : fromLe (Y.take 4) = X.length) (hcap : X.length ≤ cap)
    (hdec : entropyDecode c (Y.drop 4) X.length = some X) : decompressBytes c Y cap ovf = .ok X := by
  simp only [decompressBytes, lenPrefixBytes, if_neg (Nat.not_lt.mpr hprefix), hlen, if_neg (Nat.not_lt.mpr hcap), hdec,
    ne_eq, not_true_eq_false, if_false]

/-- Settles O58: the four length bytes read back as the length of the input, and the rest decodes to it. -/
theorem wrapperRoundTrip : Obligations.WrapperRoundTrip := by
  intro c X hlen
  refine ⟨_, compressBytes_ok c hlen, fun cap ovf hcap => ?_⟩
  have hprefix : (leBytes 4 X.length).length = 4 := leBytes_length 4 _
  refine decompressBytes_ok ovf ?_ ?_ hcap ?_
  · rw [List.length_append, hprefix]
    exact Nat.le_add_right _ _
  · rw [List.take_left' hprefix, fromLe_leBytes hlen]
  · rw [List.drop_left' hprefix]
    exact codecRoundTrip c X

end Sys2Proof.Machine
end

section
/-! SUPPORT. Commands of the entropy stage that stop at a check of their own: an input that is too large to compress,
and a stream that does not decompress. -/

namespace Sys2Proof.Machine

theorem sizeCheck_some {a : Args} (h : 2 ^ 32 ≤ a.src0.size) : sizeCheck a = some ⟨.tooLarge, a.src0.size⟩ :=
  if_pos h

/-- Settles O36: the size check is the last of phase A, and the others pass. -/
theorem compressRefusesWhatThePrefixCannotHold : Obligations.CompressRefusesWhatThePrefixCannotHold := by
  intro s hquiet hfit hapart hlarge
  have hfail : phaseA .compress (earlyCheckOf .compress) s.latch.args = some ⟨.tooLarge, s.latch.args.src0.size⟩ := by
    rw [phaseA, checkRegions_none.mpr hfit, checkOverlap_none_of_apart hapart, earlyCheckOf, sizeCheck_some hlarge]
    rfl
  obtain ⟨t, hexec, hends, hrest, _, hsame⟩ := exec_of_phaseA hquiet hfail
  exact ⟨t, hexec, hends, hsame (.inl (by decide)), hrest⟩

/-- The first check of a compressed stream that fails is the error of its unwrapping (42_entropy_stage.md R151). -/
theorem decompressBytes_error {c : Config} {Y : Bytes} {cap info : Nat} {ovf e : ErrCode}
    (h : if Y.length < 4 then e = .entropy ∧ info = 1
      else if cap < fromLe (Y.take 4) then e = ovf ∧ info = fromLe (Y.take 4)
      else if entropyDecode c (Y.drop 4) (fromLe (Y.take 4)) = none then e = .entropy ∧ info = 2
      else (entropyDecode c (Y.drop 4) (fromLe (Y.take 4))).map List.length ≠ some (fromLe (Y.take 4)) ∧
        e = .entropy ∧ info = 3) :
    decompressBytes c Y cap ovf = .error ⟨e, info⟩ := by
  simp only [decompressBytes, lenPrefixBytes]
  split at h
  · next hshort =>
    obtain ⟨rfl, rfl⟩ := h
    exact if_pos hshort
  · next hprefix =>
    rw [if_neg hprefix]
    split at h
    · next hover =>
      obtain ⟨rfl, rfl⟩ := h
      exact if_pos hover
    · next hroom =>
      rw [if_neg hroom]
      cases hdec : entropyDecode c (Y.drop 4) (fromLe (Y.take 4)) with
      | none =>
        rw [if_pos hdec] at h
        obtain ⟨rfl, rfl⟩ := h
        rfl
      | some r =>
        rw [hdec, if_neg (Option.some_ne_none r)] at h
        obtain ⟨hlen, rfl, rfl⟩ := h
        exact if_pos fun heq => hlen (congrArg some heq)

/-- A stream that does not decompress, against DST for DECOMPRESS and against SCR for MIXED_DECOMPRESS, stops the
evaluation before any write. -/
theorem bodyOf_decompress_error {i : Instr} (hi : i = .decompress ∨ i = .mixedDecompress) {s : State} {r : Raise}
    (hr : Admitted s.cfg .read s.latch.args.src0.base s.latch.args.src0.size)
    (h : decompressBytes s.cfg (regionBytes s s.latch.args.src0)
      (if i = .decompress then s.latch.args.dst else s.latch.args.scr).size
      (if i = .decompress then .dstOverflow else .scrOverflow) = .error r) (d : Nat) :
    bodyOf i s.latch.args (s.port false d) = (.raise r, s.port false d) := by
  change decompressBytes (s.port false d).cfg _ _ _ = _ at h
  rcases hi with rfl | rfl
  · rw [if_pos rfl, if_pos rfl] at h
    simp only [bodyOf, decompressBody, State.port_bytesOf hr, h]
  · rw [if_neg (by decide), if_neg (by decide)] at h
    simp only [bodyOf, mixedDecompressBody, State.port_bytesOf hr, h]

/-- Settles O50: the evaluation raises the error of the unwrapping, and an error may change the checked buffer alone. -/
theorem decompressReportsTheFirstFailedCheck : Obligations.DecompressReportsTheFirstFailedCheck := by
  intro i s hi hquiet hfit hapart a Y L out buf hr e info hcheck
  have hearly : earlyCheckOf i a = none := by rcases hi with rfl | rfl <;> rfl
  have hspans : errorSpans i a = [buf.span] := by rcases hi with rfl | rfl <;> rfl
  obtain ⟨t, hexec, hends, hrest, hmem⟩ := exec_of_raise hquiet (phaseA_none hfit hapart hearly)
    (bodyOf_decompress_error hi hr (decompressBytes_error hcheck) s.draws) rfl
  refine ⟨t, hexec, hends, hrest, fun x hx => hmem x ?_⟩
  rw [hspans]
  exact inSpans_cons.mpr ⟨Region.span_holds_of_outside hx, rfl⟩

end Sys2Proof.Machine
end

section
/-! SUPPORT. The mixed round trip: a MIXED_COMPRESS that succeeds leaves the wrapped delta stream in DST, a block of the
same codec unwraps it whatever its encoder, and the buffer then holds the current frame as after the delta round trip. -/

namespace Sys2Proof.Machine

/-! ### The wrapper between two blocks of one codec (42_entropy_stage.md R151 to R153) -/

/-- Decoding looks at no part of the configuration but `CODEC_ID`. -/
theorem decompressBytes_congr {c c' : Config} (h : c.codecId = c'.codecId) (Y : Bytes) (cap : Nat) (ovf : ErrCode) :
    decompressBytes c Y cap ovf = decompressBytes c' Y cap ovf := by
  have hdecode : entropyDecode c = entropyDecode c' := by
    funext E L
    rw [entropyDecode, entropyDecode, h]
  rw [decompressBytes, decompressBytes, hdecode]

theorem decompressBytes_of_compressBytes {c : Config} {X Y : Bytes} {cap : Nat} (h : compressBytes c X = .ok Y)
    (ovf : ErrCode) (hcap : X.length ≤ cap) : decompressBytes c Y cap ovf = .ok X := by
  by_cases hsmall : X.length < 2 ^ 32
  · obtain ⟨Y', hcompress, hback⟩ := wrapperRoundTrip c X hsmall
    cases h.symm.trans hcompress
    exact hback cap ovf hcap
  · have herror : compressBytes c X = .error ⟨.tooLarge, X.length⟩ := if_pos (Nat.le_of_not_lt hsmall)
    cases h.symm.trans herror

/-! ### What a MIXED_COMPRESS that succeeds leaves (43_codec_facade.md R180) -/

theorem regionsApart_of_phaseA {i : Instr} {a : Args} (h : phaseA i (earlyCheckOf i) a = none) : RegionsApart i a := by
  rw [phaseA, Option.or_eq_none_iff, Option.or_eq_none_iff] at h
  obtain ⟨_, hoverlap, _⟩ := h
  exact checkOverlap_none_iff.mp hoverlap

/-- An evaluation without loss that finishes wrote the delta stream to SCR and its wrapped form to DST, which holds it. -/
theorem mixedCompressBody_finish {a : Args} {p q : Port} {len aux : Nat} (hlossy : p.lossy = false)
    (hwf : memWf p.mem = true) (hscrfit : a.scr.base + a.scr.size ≤ addrSpace)
    (h : mixedCompressBody a p = (.finish len aux, q)) :
    let D := encodeDelta (memBytes p.mem a.src0.base a.src0.size) (memBytes p.mem a.src1.base a.src1.size)
    ∃ Y, compressBytes p.cfg D.1 = .ok Y ∧ len = Y.length ∧ aux = D.2 ∧ Y.length ≤ a.dst.size ∧
      a.scr.base + D.1.length ≤ addrSpace ∧
      q.mem = memWriteBytes (memWriteBytes p.mem a.scr.base D.1) a.dst.base Y := by
  intro D
  obtain ⟨hmem, hcfg, hkept⟩ := gatherDelta_kept a p
  replace hkept := hkept.trans hlossy
  have hgather : (gatherDelta a p).1 = D := gatherDelta_plain hlossy a
  simp only [mixedCompressBody, hgather] at h
  split at h
  · cases h
  · next hfits =>
    have hD : a.scr.base + D.1.length ≤ addrSpace :=
      Nat.le_trans (Nat.add_le_add_left (Nat.le_of_not_lt hfits) _) hscrfit
    have hscratch := throughScratch_visits hkept D.1 a
    rw [throughScratch_plain hkept (hmem ▸ hwf) hD] at h
    rcases emitCompressed_cases D.1 D.2 a (throughScratch D.1 a (gatherDelta a p).2).2 with
      ⟨r, hraise, _⟩ | ⟨Y, hY, hlen, hfinish⟩
    · cases hraise.symm.trans h
    · cases hfinish.symm.trans h
      rw [hscratch.cfg, hcfg] at hY
      refine ⟨Y, hY, rfl, rfl, hlen, hD, ?_⟩
      rw [Port.write_plain hscratch.plain, (throughScratch_kept D.1 a _).1, Port.write_plain hkept, hmem]

/-- A MIXED_COMPRESS that succeeds had two frames of one length and whole pairs, and left their wrapped stream in DST,
which shares no byte with the SCR that is lost. -/
theorem mixedCompress_success {s t : State} (hwf : memWf s.mem = true) (hquiet : Quiet .mixedCompress s)
    (hexec : exec .mixedCompress s = .next t) (hok : t.err = .none) :
    let a := s.latch.args
    let D := encodeDelta (regionBytes s a.src0) (regionBytes s a.src1)
    FramesMatch a ∧ t.resultAux = BitVec.ofNat 64 D.2 ∧
      compressBytes s.cfg D.1 = .ok (memBytes t.mem a.dst.base t.resultLen.toNat) := by
  intro a D
  obtain ⟨hphase, len, aux, q, hbody, _, ht⟩ := exec_success hquiet hexec hok
  have hdst : a.dst.base + a.dst.size ≤ addrSpace := fits_of_phaseA hphase .dst (by decide)
  have hscr : a.scr.base + a.scr.size ≤ addrSpace := fits_of_phaseA hphase .scr (by decide)
  obtain ⟨Y, hY, rfl, rfl, hlen, hD, hqmem⟩ := mixedCompressBody_finish (p := s.port false s.draws) rfl hwf hscr hbody
  have hresult : t.resultLen.toNat = Y.length := by
    have hword : Y.length < 2 ^ 64 := hlen.trans_lt a.dst.len.isLt
    rw [ht]
    exact Nat.mod_eq_of_lt hword
  have hholds : Holds q.mem a.dst.base Y := by
    rw [hqmem]
    exact holds_memWriteBytes (memWriteBytes_wf hwf _ hD) (Nat.le_trans (Nat.add_le_add_left hlen _) hdst)
  have hleft : Holds t.mem a.dst.base Y := fun j hj => by
    have hout := dst_byte_not_in_scr (regionsApart_of_phaseA hphase) (by decide) (by decide) (hj.trans_le hlen)
    rw [ht, ← hholds j hj]
    exact State.memRead_scramble (s.afterPort q) _ (not_in_scratchSpans hscr hout)
  refine ⟨framesMatch_of_phaseA rfl hphase, by rw [ht]; rfl, ?_⟩
  rw [hresult, memBytes_eq_of_reads hleft]
  exact hY

/-! ### The two commands, one after the other (43_codec_facade.md R182) -/

theorem AllAdmitted.admitted {i : Instr} {s : State} (h : AllAdmitted i s) {r : RegionName} (hr : r ∈ usedRegions i)
    (k : AccessKind) {n : Nat} (hn : n ≤ (s.latch.args.region r).size) :
    Admitted s.cfg k (s.latch.args.region r).base n := fun x hlo hhi => by
  obtain ⟨hread, hwrite⟩ := h r hr x (Region.holds_iff.mpr ⟨hlo, hhi.trans_le (Nat.add_le_add_left hn _)⟩)
  cases k with
  | read => exact hread
  | write => exact hwrite

/-- The dirty records write within the frame. -/
theorem within_of_inRecords {P C : Bytes} {n a x : Nat} (h : InRecords a (dirtyRecords P C n) x) :
    a ≤ x ∧ x < a + 8 * n := by
  by_contra hout
  exact outside_not_inRecords (by omega) h

/-- Settles O60: the unwrapped stream is that of the two frames, and its dirty records turn the previous frame into the
current one in DST, which SCR does not meet. -/
theorem mixedRoundTrip : Obligations.MixedRoundTrip := by
  intro s t u hwf hwf' hcodec hquiet hexec hok hquiet' hfit hapart hadmit a b hstream hroom hprevious hscr
  obtain ⟨⟨hsize, hwhole⟩, haux, hleft⟩ := mixedCompress_success hwf hquiet hexec hok
  obtain ⟨n, hn⟩ : ∃ n, a.src0.size = 8 * n := Nat.dvd_of_mod_eq_zero hwhole
  have hP : (regionBytes s a.src0).length = 8 * n := (memBytes_length _ _ _).trans hn
  have hC : (regionBytes s a.src1).length = 8 * n := (memBytes_length _ _ _).trans (hsize.symm.trans hn)
  have hunwrap : decompressBytes u.cfg (regionBytes u b.src0) b.scr.size .scrOverflow =
      .ok (encodeDelta (regionBytes s a.src0) (regionBytes s a.src1)).1 := by
    rw [hstream, decompressBytes_congr hcodec]
    exact decompressBytes_of_compressBytes hleft _ hscr
  have hwrites : Admitted u.cfg .write b.dst.base (8 * n) := hadmit.admitted (r := .dst) (by decide) _ (hn ▸ hroom)
  obtain ⟨v, hexec', ⟨_, _, herr, _, haux', _⟩, _, hpairs, hkept⟩ :=
    mixedDecompressWritesTheRecords u _ _ hwf' hquiet' hfit hapart (hadmit.admitted (r := .src0) (by decide) _ le_rfl)
      hunwrap (hadmit.admitted (r := .scr) (by decide) _ hscr) (hadmit.admitted (r := .scr) (by decide) _ hscr)
      (parseDelta_encodeDelta hP hC (hn ▸ hroom)) fun x hx =>
        hwrites x (within_of_inRecords hx).1 (within_of_inRecords hx).2
  have hbefore : ∀ x, x < a.src0.size →
      ¬ InRecords b.dst.base (dirtyRecords (regionBytes s a.src0) (regionBytes s a.src1) n) (b.dst.base + x) →
      memRead v.mem (b.dst.base + x) = byteAt (regionBytes s a.src0) x := fun x hx hout => by
    rw [hkept _ hout (dst_byte_not_in_scr hapart (by decide) (by decide) (hx.trans_le hroom)), ← hprevious,
      byteAt_memBytes hx]
  refine ⟨v, hexec', herr, ?_, fun x hx hrgb => ?_, fun x hx halpha => ?_, fun y hy => ?_⟩
  · rw [haux', haux, dirtyRecords, List.length_map, encodedStreamIsItsGroups _ _ n hP hC]
  · rw [memRead_rgb_of_dirtyRecords (hn ▸ hx) hrgb hpairs (hbefore x hx)]
    exact byteAt_memBytes (hsize ▸ hx)
  · rw [hbefore x hx (alpha_not_inRecords halpha)]
    exact byteAt_memBytes hx
  · exact hkept y (outside_not_inRecords (hn ▸ hy))

end Sys2Proof.Machine
end

section
/-! SUPPORT. Bounded progress: while the block stays BUSY a step uses up one event of another agent, so a running
command ends at the latest when they are used up (60_exceptions.md R244). -/

namespace Sys2Proof.Machine

/-! ### An agent never changes what the agents do next -/

theorem State.breach_events (s : State) (hit : Latch → Bool) : (s.breach hit).events = s.events := by
  obtain ⟨z, hb, _⟩ := s.breach_eq hit
  obtain ⟨⟨_, _, _, _, _, _, hs⟩, _⟩ := State.spoilEnded_kept hit s.ended s
  rw [hb, hs]

theorem State.mmioWrite_events (s : State) (off : Nat) (w : Word) : (s.mmioWrite off w).events = s.events := by
  rcases s.mmioWrite_cases off w with ⟨_, hc⟩ | hc | ⟨_, _, hc⟩
  · rw [hc]
    rcases s.commandWrite_cases w with ⟨_, h⟩ | ⟨_, _, h⟩ | ⟨_, _, h⟩ <;> rw [h] <;> rfl
  · rw [hc, State.statusWrite_events]
  · rw [hc]

theorem State.mmioAccess_events (s : State) (a : MmioAccess) : (s.mmioAccess a).events = s.events := by
  cases hwf : a.wellFormed (windowOffset s.cfg a.addr) with
  | false => rw [State.mmioAccess_undefined hwf, State.reply_events]
  | true =>
    cases ho : a.op with
    | read =>
      obtain ⟨u, hu, _⟩ := s.hostRead_eq (windowOffset s.cfg a.addr)
      rw [State.mmioAccess_read hwf ho, hu]
      rfl
    | write w => rw [State.mmioAccess_write hwf ho, State.reply_events, State.mmioWrite_events]

theorem State.agentEvent_events (s : State) (e : Event) : (s.agentEvent e).events = s.events := by
  cases e with
  | mmio a => exact s.mmioAccess_events a
  | memWrite addr b => exact State.breach_events { s with mem := memWrite s.mem addr.toNat b } _
  | memRead addr =>
    simp only [State.agentEvent, State.agentRead]
    split <;> rfl
  | otherCommand reads writes => exact s.breach_events _
  | irqSample =>
    obtain ⟨u, hu, _⟩ := s.sampleIrq_eq
    rw [State.agentEvent, hu]
    rfl
  | reset => rcases s.resetInput_cases with ⟨_, h⟩ | ⟨_, h⟩ <;> rw [State.agentEvent, h] <;> rfl
  | engine => rfl

/-! ### Progress -/

theorem Completes.eng {i : Instr} {s t : State} (h : Completes i s t) : t.eng = .idle := by
  obtain ⟨_, _, _, _, _, _, rfl, _⟩ := h
  rfl

/-- A step that leaves a BUSY block BUSY is one event of another agent, used up: the engine's turn would have ended the
command. -/
theorem step_uses_event_of_busy {s t : State} (hs : s.eng = .busy) (hstep : step s = .next t) (ht : t.eng = .busy) :
    ∃ e, s.events = e :: t.events := by
  rcases step_cases s with ⟨e, es, hev, _, hagent⟩ | ⟨es, _, ⟨hidle, _⟩ | ⟨_, i, _, hcomplete⟩ | ⟨_, _, hfault⟩⟩
  · rw [hagent] at hstep
    cases hstep
    exact ⟨e, by rw [hev, State.agentEvent_events, State.withEvents_events]⟩
  · rw [hs] at hidle; cases hidle
  · rw [hcomplete] at hstep
    cases hstep
    rw [(completes_complete i _).eng] at ht
    cases ht
  · rw [hfault] at hstep; cases hstep

/-- From a BUSY state of the invariant there is a step; it ends the command, or it uses up an event and leaves a BUSY
state of the invariant. -/
theorem busy_step_cases {s : State} (hinv : s.Inv) (hs : s.eng = .busy) :
    ∃ t, step s = .next t ∧ (t.eng = .idle ∨ t.Inv ∧ t.eng = .busy ∧ ∃ e, s.events = e :: t.events) := by
  obtain ⟨t, hstep⟩ := noStepStops s hinv
  refine ⟨t, hstep, ?_⟩
  cases ht : t.eng with
  | idle => exact .inl rfl
  | busy => exact .inr ⟨everyStepKeepsTheInvariant s t hinv hstep, rfl, step_uses_event_of_busy hs hstep ht⟩

theorem core_run_succ {s t : State} (h : step s = .next t) (n : Nat) : core.run (n + 1) s = core.run n t := by
  have hcore : core.step s = .next t := h
  simp only [Host.Core.run, hcore]

/-- Settles O27, by induction on the events due: a step that does not end the command leaves one event fewer. -/
theorem runningCommandEndsInBoundedSteps : Obligations.RunningCommandEndsInBoundedSteps := by
  intro s hinv hbusy
  generalize hev : s.events = es
  induction es generalizing s with
  | nil =>
    obtain ⟨t, hstep, ht | ⟨_, _, _, he⟩⟩ := busy_step_cases hinv hbusy
    · exact ⟨1, le_rfl, t, core_run_succ hstep 0, ht⟩
    · rw [hev] at he; cases he
  | cons e es ih =>
    obtain ⟨t, hstep, ht | ⟨hinvt, ht, _, he⟩⟩ := busy_step_cases hinv hbusy
    · exact ⟨1, Nat.le_add_left 1 _, t, core_run_succ hstep 0, ht⟩
    · rw [hev] at he
      cases he
      obtain ⟨n, hn, u, hrun, hu⟩ := ih t hinvt ht rfl
      exact ⟨n + 1, Nat.succ_le_succ hn, u, (core_run_succ hstep n).trans hrun, hu⟩

end Sys2Proof.Machine
end

section
/-! SUPPORT. The reset input while a command runs (70_reset_and_hazards.md R231): the command is abandoned, its may-write
set holds any value, and every register reads as after any other reset. -/

namespace Sys2Proof.Machine

/-- The step of a reset that finds the engine BUSY: it scrambles the may-write set of the latched command. -/
theorem step_reset_busy {s : State} {i : Instr} {es : List Event} (hev : s.events = .reset :: es) (hb : s.eng = .busy)
    (hd : decode s.fetchBytes = .ok i) :
    step s = .next (((s.withEvents es).scramble (maySpans i s.latch.args)).resetRegisters) := by
  have hspans : latchedSpans s.latch = maySpans i s.latch.args := latchedSpans_of_decode (State.decodeOpcode_latch hd)
  rw [step_agent hev nofun, State.agentEvent]
  rcases (s.withEvents es).resetInput_cases with ⟨hi, _⟩ | ⟨_, h⟩
  · exact absurd (hb.symm.trans hi) nofun
  · rw [h, State.withEvents_latch, hspans]

/-- Settles O24: the registers are those after reset, and of memory only the may-write set was drawn anew. -/
theorem resetAbandonsARunningCommand : Obligations.ResetAbandonsARunningCommand := by
  intro s i es hev hb hd
  refine ⟨_, step_reset_busy hev hb hd, rfl, rfl, rfl, rfl, rfl, rfl, rfl, ?_, ?_⟩
  · rw [State.resetRegisters_mmioRead, resetWith_mmioRead _ (by decide)]
  · exact fun _ hx => (s.withEvents es).memRead_scramble _ hx

end Sys2Proof.Machine
end
